-- ==== Sys2Proof/Word.lean ====
section
/-! DEFINITION. The byte, and the signed reading of a 32-bit pattern (00_scope.md R8). -/

namespace Sys2Proof

/-- One byte of the input buffer, one command byte, one pixel index (R7: 8 bits). -/
abbrev Byte := BitVec 8

/-- R8: `s32(raw)` reads a 32-bit pattern as a two's-complement integer in [-2^31, 2^31 - 1] (log 16). -/
abbrev s32 (raw : BitVec 32) : Int := raw.toInt

end Sys2Proof
end

