-- ==== Sys2Proof/Config.lean ====
section
/-! DEFINITION. What the spec fixes as a literal (00_scope.md R7; log 22), and the free values: what the spec leaves
unspecified (10_state.md R53, 60_exceptions.md R237, 20_memory.md R79). A free value is an opaque constant, so nothing
can be proved of it. -/

namespace Sys2Proof

/-- R7, R108: the bound value that marks a fully transparent row. -/
def Config.sentinel : BitVec 16 := 0x8000#16

/-- R7: bytes from one table entry to the next, in both tables. -/
def Config.tableStride : Nat := 4

/-- R73: bytes of the file header (read by the host only). -/
def Config.headerSize : Nat := 32

/-- R74: bytes of one FrameInfo record (read by the host only). -/
def Config.frameInfoSize : Nat := 32

/-- R101: the most bytes one command takes, a BDRAW of 4095 indices. -/
def Config.longestCommand : Nat := 4097

/-- Which unspecified thing a free value stands for. -/
inductive FreeSource where
  /-- The contents of a store element that nothing has written since the stores last became unspecified for the
  `draw`-th time (R53, R237). -/
  | contents (draw : Nat)
  /-- What the host's `nth` read returns while the store is not defined for it (R79, R265). -/
  | hostRead (nth : Nat)
deriving DecidableEq, Repr

/-- A free `LEFT` of `BOUNDS_OUT[i]`. -/
opaque Config.freeLeft : FreeSource → Nat → BitVec 16

/-- A free `RIGHT` of `BOUNDS_OUT[i]`. -/
opaque Config.freeRight : FreeSource → Nat → BitVec 16

/-- A free `FULL` of `BOUNDS_OUT[i]`. -/
opaque Config.freeFull : FreeSource → Nat → Bool

/-- A free `CMDOFF_OUT[i]`. -/
opaque Config.freeOffset : FreeSource → Nat → BitVec 32

/-- A free `GRID[r][c]`. -/
opaque Config.freePixelWord : FreeSource → Nat → Nat → BitVec 16

end Sys2Proof
end

