-- ==== Sys2Proof/Machine/State.lean ====
section
/-! DEFINITION. The state of the block (10_state.md R21), with the host's buffer, the capacity parameter and the turns
of host and block held beside it as plain data; the reasons a step can stop; the state after reset (R53). -/

namespace Sys2Proof.Machine

/-- R40: `STATUS`. Its 2-bit encoding is `Status.bits`. -/
inductive Status where
  | idle
  | running
  | done
  | error
deriving DecidableEq, Repr

/-- R37: `PHASE`, which step of the frame operation runs next while `STATUS` is RUNNING. -/
inductive Phase where
  | check
  | bounds
  | cmdtab
  | rowStart
  | cmds
  | rowEnd
deriving DecidableEq, Repr

/-- R41, R230: the error codes the block records; the codes 6 and 7 are never written. The 3-bit encoding is
`ErrCode.bits`. -/
inductive ErrCode where
  | noError
  | truncatedInput
  | unknownCommand
  | unknownExtendedCommand
  | rowOverrun
  | invalidDimensions
deriving DecidableEq, Repr

/-- R42: the phase group an error arose in. The 2-bit encoding is `ErrStage.bits`. -/
inductive ErrStage where
  | check
  | bounds
  | cmdtab
  | row
deriving DecidableEq, Repr

/-- R22 to R33: one frame's FrameInfo fields, as raw bits. -/
structure Descriptor where
  /-- R23 -/
  cmdTableOffset : BitVec 32
  /-- R24 -/
  boundsTableOffset : BitVec 32
  /-- R25: carried, never read. -/
  paletteOffset : BitVec 32
  /-- R26: carried, never read. -/
  properties : BitVec 32
  /-- R27: read as `s32`. -/
  width : BitVec 32
  /-- R28: read as `s32`. -/
  height : BitVec 32
  /-- R29: carried, never read. -/
  anchorX : BitVec 32
  /-- R30: carried, never read. -/
  anchorY : BitVec 32
  /-- R31: 0 = Main, 1 = Shadow; never read. -/
  frameKind : BitVec 1
  /-- R32: byte 0 of the tag is bits `[7:0]`; never read. -/
  version : BitVec 32
  /-- R33: copied to `ERR_FRAME` by an error. -/
  frameIndex : BitVec 32
deriving DecidableEq, Repr

/-- R46: one element of `BOUNDS_OUT`. -/
structure RowBound where
  left : BitVec 16
  right : BitVec 16
  full : Bool
deriving DecidableEq, Repr

/-- R60: the input buffer, `BUF[0..BUF_LEN-1]`. `cells` lists its nonzero bytes, addresses strictly rising, all below
`len`; every other byte of `BUF` is 0, which is only how the list is written, not a claim about a buffer (log 4). -/
structure Memory where
  len : Nat
  cells : List Host.Cell
deriving DecidableEq, Repr

/-- R54, R262 to R266: what the host can do to the block. -/
inductive HostAction where
  /-- R263: issue START. -/
  | start
  /-- R260: assert reset. -/
  | reset
  /-- R22, R262: write the pending descriptor. -/
  | writePending (d : Descriptor)
  /-- R262: bind a buffer of these bytes, the first at address 0. -/
  | bindBuffer (bytes : List Byte)
  /-- R266: every other host action (a read, a write of a register the host may not write): no effect. -/
  | other
deriving DecidableEq, Repr

/-- One entry of the schedule in which host and block move (log 6). -/
inductive HostMove where
  /-- The host does nothing and the block takes its step. -/
  | blockTurn
  /-- The host acts and the block takes no step. -/
  | act (a : HostAction)
deriving DecidableEq, Repr

/-- The whole state. Fields of the spec's block (R21) first, then what the spec binds or leaves to the model. -/
structure State where
  /-- R22: the pending copy of the descriptor. -/
  pending : Descriptor
  /-- R22: `DESC`, the latched descriptor. -/
  desc : Descriptor
  /-- R34: `CURSOR`. -/
  cursor : Nat
  /-- R35: `EMITTED`. -/
  emitted : Nat
  /-- R36: `EXPECTED`. -/
  expected : Int
  /-- R37: `PHASE`. -/
  phase : Phase
  /-- R38: `IDX`. -/
  idx : Nat
  /-- R39: `ROW`. -/
  row : Nat
  /-- R40: `STATUS`. -/
  status : Status
  /-- R41: `ERR_CODE`. -/
  errCode : ErrCode
  /-- R42: `ERR_STAGE`. -/
  errStage : ErrStage
  /-- R43: `ERR_ROW`. -/
  errRow : BitVec 32
  /-- R44: `ERR_OFFSET`. -/
  errOffset : Nat
  /-- R45: `ERR_FRAME`. -/
  errFrame : BitVec 32
  /-- R46: the written elements of `BOUNDS_OUT`, by row, rows strictly rising; the others hold free values (log 2). -/
  boundsOut : List (Nat × RowBound)
  /-- R47: the written elements of `CMDOFF_OUT`, by row. -/
  cmdoffOut : List (Nat × BitVec 32)
  /-- R48: the written elements of `GRID`, by row and then by column. -/
  grid : List (Nat × List (Nat × BitVec 16))
  /-- R60: `BUF` and `BUF_LEN`, bound by the host (log 4). -/
  buf : Memory
  /-- R7: `GRID_CAP`, `none` for unbounded (log 5). -/
  gridCap : Option Nat
  /-- The model's own: how often the stores have become unspecified (log 2). -/
  draws : Nat
  /-- The model's own: the turns that host and block take next; with none left, every turn is the block's (log 6). -/
  hostMoves : List HostMove
deriving DecidableEq, Repr

/-- Why a step stops with a fault: never. The spec's errors are next states with `STATUS` = ERROR (R236), and nothing
else in the spec stops the machine, so the type has no constructor. Safe: nothing is proved of a stop that the hardware
does not make. -/
inductive Fault
deriving DecidableEq, Repr

/-- Why a step is given no meaning. -/
inductive Refusal where
  /-- Raised by an arm of exec for an instruction that has no meaning yet; no arm does. Safe. -/
  | notModelled (mnemonic : String)
  /-- Raised by the host's action of changing `BUF` while `STATUS` is RUNNING, a run that the spec itself tells a model
  to refuse (70_reset_and_hazards.md R264, 93_implementation_defined.md I21; log 10). Safe. -/
  | bufferChangedWhileRunning
deriving DecidableEq, Repr

/-- What the model names for a descriptor the host has not written (R53 leaves it unspecified; log 1). -/
def Descriptor.atReset : Descriptor where
  cmdTableOffset := 0#32
  boundsTableOffset := 0#32
  paletteOffset := 0#32
  properties := 0#32
  width := 0#32
  height := 0#32
  anchorX := 0#32
  anchorY := 0#32
  frameKind := 0#1
  version := 0#32
  frameIndex := 0#32

/-- R53, R260: the state after reset. No buffer is bound (log 4), `GRID_CAP` is at its default (log 5), no store element
is written (log 2). -/
def State.reset : State where
  pending := Descriptor.atReset
  desc := Descriptor.atReset
  cursor := 0
  emitted := 0
  expected := 0
  phase := .check
  idx := 0
  row := 0
  status := .idle
  errCode := .noError
  errStage := .check
  errRow := 0#32
  errOffset := 0
  errFrame := 0#32
  boundsOut := []
  cmdoffOut := []
  grid := []
  buf := ⟨0, []⟩
  gridCap := none
  draws := 0
  hostMoves := []

end Sys2Proof.Machine
end

