-- ==== Sys2Proof/Machine/Cells.lean ====
section
/-! DEFINITION. Sparse arrays as plain data: a list of (index, value) pairs, indices strictly rising. `BUF`'s nonzero
bytes and the output stores are such lists. -/

namespace Sys2Proof.Machine

/-- The value listed at an index. -/
def Cells.get {α : Type} : List (Nat × α) → Nat → Option α
  | [], _ => none
  | (k, v) :: rest, a => if a = k then some v else Cells.get rest a

/-- List `v` at index `a`, in place of what was listed there. -/
def Cells.put {α : Type} (a : Nat) (v : α) : List (Nat × α) → List (Nat × α)
  | [] => [(a, v)]
  | (k, w) :: rest =>
    if a < k then (a, v) :: (k, w) :: rest
    else if a = k then (a, v) :: rest
    else (k, w) :: Cells.put a v rest

/-- List nothing at index `a`. -/
def Cells.erase {α : Type} (a : Nat) : List (Nat × α) → List (Nat × α)
  | [] => []
  | (k, w) :: rest => if a = k then rest else (k, w) :: Cells.erase a rest

/-- The canonical order: indices strictly rising. -/
abbrev Cells.Rising {α : Type} (l : List (Nat × α)) : Prop :=
  l.Pairwise fun x y => x.1 < y.1

end Sys2Proof.Machine
end

