-- ==== Sys2Proof/Machine/Pixel.lean ====
section
/-! DEFINITION. The pixel model (10_state.md R49 to R51) and the numeric codes of `STATUS`, `ERR_CODE` and `ERR_STAGE`
(R40 to R42). -/

namespace Sys2Proof.Machine

/-- R49: a pixel is a tagged value of one of eight kinds. No rule emits `shadowV4` or `playerV4`. -/
inductive Pixel where
  | palette (idx : Byte)
  | shadow
  | transparent
  | player (idx : Byte)
  | special1
  | special2
  | shadowV4
  | playerV4 (idx : Byte)
deriving DecidableEq, Repr

/-- R50: the kind code, `word[15:8]`. -/
def Pixel.kind : Pixel → Byte
  | .palette _ => 0x00#8
  | .shadow => 0x01#8
  | .transparent => 0x02#8
  | .player _ => 0x03#8
  | .special1 => 0x04#8
  | .special2 => 0x05#8
  | .shadowV4 => 0x06#8
  | .playerV4 _ => 0x07#8

/-- R50, R51: the index, `word[7:0]`; the kinds that carry none are written with 0. -/
def Pixel.index : Pixel → Byte
  | .palette idx => idx
  | .player idx => idx
  | .playerV4 idx => idx
  | .shadow => 0#8
  | .transparent => 0#8
  | .special1 => 0#8
  | .special2 => 0#8
  | .shadowV4 => 0#8

/-- R50: the 16-bit pixel word. -/
def Pixel.word (p : Pixel) : BitVec 16 := p.kind ++ p.index

/-- The pixel a word stands for; the kind codes 0x08 to 0xFF stand for none (R50), and a kind without an index gives its
index no meaning (R51). -/
def Pixel.ofWord (w : BitVec 16) : Option Pixel :=
  let kind := w.extractLsb' 8 8
  let idx := w.extractLsb' 0 8
  if kind = 0x00#8 then some (.palette idx)
  else if kind = 0x01#8 then some .shadow
  else if kind = 0x02#8 then some .transparent
  else if kind = 0x03#8 then some (.player idx)
  else if kind = 0x04#8 then some .special1
  else if kind = 0x05#8 then some .special2
  else if kind = 0x06#8 then some .shadowV4
  else if kind = 0x07#8 then some (.playerV4 idx)
  else none

/-- R40: the 2-bit code of `STATUS`. -/
def Status.bits : Status → BitVec 2
  | .idle => 0#2
  | .running => 1#2
  | .done => 2#2
  | .error => 3#2

/-- R41, R230: the 3-bit code of `ERR_CODE`. -/
def ErrCode.bits : ErrCode → BitVec 3
  | .noError => 0#3
  | .truncatedInput => 1#3
  | .unknownCommand => 2#3
  | .unknownExtendedCommand => 3#3
  | .rowOverrun => 4#3
  | .invalidDimensions => 5#3

/-- R42: the 2-bit code of `ERR_STAGE`. -/
def ErrStage.bits : ErrStage → BitVec 2
  | .check => 0#2
  | .bounds => 1#2
  | .cmdtab => 2#2
  | .row => 3#2

end Sys2Proof.Machine
end

