-- ==== Sys2Proof/Machine/Ops.lean ====
section
/-! DEFINITION. The named operations over the buffer, the descriptor, the stores and the registers; error entry (the
spec's "trap entry", 60_exceptions.md R236) as ONE shared operation, and beside it the ways out of an error, START
(42_frame_assembler.md R207) and reset (70_reset_and_hazards.md R260), since R240 gives no other return. -/

namespace Sys2Proof.Machine

/-! ### The input buffer -/

/-- `BUF[a]`, for an address below `BUF_LEN`. -/
def Memory.byte (m : Memory) (a : Nat) : Byte := (Cells.get m.cells a).getD 0#8

/-- Store a byte at an address of the buffer; no effect outside it. The host's operation: the block never writes
`BUF` (R62). -/
def Memory.write (a : Nat) (v : Byte) (m : Memory) : Memory :=
  if a < m.len then
    { m with cells := if v = 0#8 then Cells.erase a m.cells else Cells.put a v m.cells }
  else m

/-- The canonical form: addresses strictly rising, every listed byte nonzero and inside `BUF`. -/
abbrev Memory.wf (m : Memory) : Prop :=
  Cells.Rising m.cells ∧ ∀ c ∈ m.cells, c.2 ≠ 0#8 ∧ c.1 < m.len

/-- The listing of bytes that stand at `a`, `a + 1`, … -/
def Memory.cellsFrom : Nat → List Byte → List Host.Cell
  | _, [] => []
  | a, b :: rest =>
    if b = 0#8 then Memory.cellsFrom (a + 1) rest else (a, b) :: Memory.cellsFrom (a + 1) rest

/-- R262: the buffer of these bytes, the first at address 0. -/
def Memory.ofBytes (bytes : List Byte) : Memory := ⟨bytes.length, Memory.cellsFrom 0 bytes⟩

/-- R10, R64: the little-endian value of `n` bytes, `sum of BUF[a + k] * 256^k`. -/
def Memory.littleEndian (m : Memory) (a : Nat) : Nat → Nat
  | 0 => 0
  | n + 1 => (m.byte a).toNat + 256 * Memory.littleEndian m (a + 1) n

/-- `n` bytes from `a` upwards. -/
def Memory.bytesFrom (m : Memory) (a : Nat) : Nat → List Byte
  | 0 => []
  | n + 1 => m.byte a :: Memory.bytesFrom m (a + 1) n

/-! ### The descriptor -/

/-- R27. -/
def Descriptor.widthInt (d : Descriptor) : Int := s32 d.width

/-- R28. -/
def Descriptor.heightInt (d : Descriptor) : Int := s32 d.height

/-! ### The output stores -/

/-- `BOUNDS_OUT[r]`: the written element, or a free one (R53, R237; log 2, 21). -/
def State.boundAt (s : State) (r : Nat) : RowBound :=
  (Cells.get s.boundsOut r).getD
    { left := Config.freeLeft (.contents s.draws) r
      right := Config.freeRight (.contents s.draws) r
      full := Config.freeFull (.contents s.draws) r }

/-- `CMDOFF_OUT[r]`: the written element, or a free one. -/
def State.offsetAt (s : State) (r : Nat) : BitVec 32 :=
  (Cells.get s.cmdoffOut r).getD (Config.freeOffset (.contents s.draws) r)

/-- The written word of `GRID[r][c]`, if the current operation has written one. -/
def State.pixel? (s : State) (r c : Nat) : Option (BitVec 16) :=
  (Cells.get s.grid r).bind fun cols => Cells.get cols c

/-- `GRID[r][c]`: the written word, or a free one. -/
def State.pixelAt (s : State) (r c : Nat) : BitVec 16 :=
  (s.pixel? r c).getD (Config.freePixelWord (.contents s.draws) r c)

/-- `BOUNDS_OUT[r] <- b`. -/
def writeBound (r : Nat) (b : RowBound) (s : State) : State :=
  { s with boundsOut := Cells.put r b s.boundsOut }

/-- `CMDOFF_OUT[r] <- v`. -/
def writeOffset (r : Nat) (v : BitVec 32) (s : State) : State :=
  { s with cmdoffOut := Cells.put r v s.cmdoffOut }

/-- The grid with `GRID[r][c] <- w`. -/
def gridPut (r c : Nat) (w : BitVec 16) (g : List (Nat × List (Nat × BitVec 16))) :
    List (Nat × List (Nat × BitVec 16)) :=
  Cells.put r (Cells.put c w ((Cells.get g r).getD [])) g

/-- `GRID[r][c] <- p`. -/
def writePixel (r c : Nat) (p : Pixel) (s : State) : State :=
  { s with grid := gridPut r c p.word s.grid }

/-- The stores become unspecified: no element is written, and the free values are new ones (R237; log 2). -/
def dropStores (s : State) : State :=
  { s with boundsOut := [], cmdoffOut := [], grid := [], draws := s.draws + 1 }

/-! ### Emitting and padding -/

/-- R142 `emit(p)`: a pixel past `EXPECTED` is counted and stored nowhere. -/
def emit (p : Pixel) (s : State) : State :=
  { s with
    grid :=
      if (s.emitted : Int) < s.expected then
        gridPut s.row ((s.boundAt s.row).left.toNat + s.emitted) p.word s.grid
      else s.grid
    emitted := s.emitted + 1 }

/-- `for k in 0..n-1: emit(p)`. -/
def emitMany : Nat → Pixel → State → State
  | 0, _, s => s
  | n + 1, p, s => emitMany n p (emit p s)

/-- Emit the pixels of a list, the first first. -/
def emitAll : List Pixel → State → State
  | [], s => s
  | p :: ps, s => emitAll ps (emit p s)

/-- R143 `pad(n)`: Transparent pixels in the `n` columns of row `ROW` from column `c` on. -/
def padFrom (c : Nat) : Nat → State → State
  | 0, s => s
  | n + 1, s => padFrom (c + 1) n (writePixel s.row c .transparent s)

/-! ### Error entry and the ways out of it -/

/-- R42: the phase group of a phase. No rule raises in ROW_END; it is grouped with the row (log 17). -/
def Phase.stage : Phase → ErrStage
  | .check => .check
  | .bounds => .bounds
  | .cmdtab => .cmdtab
  | .rowStart => .row
  | .cmds => .row
  | .rowEnd => .row

/-- R236: the row index an error records: `IDX` in the table phases, `ROW` in the row phases, 0 in CHECK. -/
def State.errorRow (s : State) : Nat :=
  match s.phase.stage with
  | .check => 0
  | .bounds => s.idx
  | .cmdtab => s.idx
  | .row => s.row

/-- R236, R237: `raise E(offset)`. The error registers are written, `STATUS` becomes ERROR and the stores become
unspecified; `CURSOR`, `EMITTED`, `EXPECTED`, `IDX`, `ROW` and `PHASE` keep their values. -/
def raise (e : ErrCode) (offset : Nat) (s : State) : State :=
  { dropStores s with
    errCode := e
    errStage := s.phase.stage
    errRow := BitVec.ofNat 32 s.errorRow
    errOffset := offset
    errFrame := s.desc.frameIndex
    status := .error }

/-- R207: an accepted START. The stores, unspecified to the host from here to DONE (R79), hold free values until they
are written again (log 2). -/
def acceptStart (s : State) : State :=
  { dropStores s with
    desc := s.pending
    errCode := .noError
    errStage := .check
    errRow := 0#32
    errOffset := 0
    errFrame := 0#32
    cursor := 0
    emitted := 0
    expected := 0
    idx := 0
    row := 0
    phase := .check
    status := .running }

/-- R263: START is accepted in IDLE, DONE and ERROR and ignored in RUNNING. -/
def hostStart (s : State) : State :=
  match s.status with
  | .running => s
  | .idle => acceptStart s
  | .done => acceptStart s
  | .error => acceptStart s

/-- R260: reset gives every piece of the block's state its value of R53. The buffer and the capacity are no state of
the block and stay; the free values are new ones. -/
def hostReset (s : State) : State :=
  { State.reset with
    buf := s.buf
    gridCap := s.gridCap
    draws := s.draws + 1
    hostMoves := s.hostMoves }

/-! ### Reads that can raise -/

/-- R11: `CURSOR <- target`. -/
def moveCursor (target : Nat) (s : State) : State := { s with cursor := target }

/-- R10, R68: `MemRead(addr, n)`, all or nothing; `.error` holds the state after the error entry. -/
def memRead (a n : Nat) (s : State) : Except State Nat :=
  if a + n ≤ s.buf.len then .ok (s.buf.littleEndian a n)
  else .error (raise .truncatedInput a s)

/-- R10: `NextByte()`, the cursor is advanced before the read. -/
def nextByte (s : State) : Except State (Byte × State) :=
  let s := moveCursor (s.cursor + 1) s
  match memRead s.cursor 1 s with
  | .ok v => .ok (BitVec.ofNat 8 v, s)
  | .error s => .error s

/-! ### The end of a command and of a row -/

/-- R145 step 4: `CURSOR <- CURSOR + 1`. -/
def advance (s : State) : State := moveCursor (s.cursor + 1) s

/-- A command's next state: after its own effect step 4's advance (R145); after an error the state of the error entry,
and no later statement (R12). -/
def retire : Except State State → Host.Outcome State Fault Refusal
  | .ok s => .next (advance s)
  | .error s => .next s

/-- R214 `NextRow()`. -/
def nextRow (s : State) : State :=
  if ((s.row + 1 : Nat) : Int) = s.desc.heightInt then
    { s with row := s.row + 1, status := .done }
  else
    { s with row := s.row + 1, phase := .rowStart }

end Sys2Proof.Machine
end

