-- ==== Sys2Proof/Machine/HostPort.lean ====
section
/-! DEFINITION. The host's side of the block (10_state.md R54, 70_reset_and_hazards.md R262 to R266): its actions, and
what it reads. -/

namespace Sys2Proof.Machine

/-- R264: the host binds a buffer. While `STATUS` is RUNNING a change of `BUF` or `BUF_LEN` is a breach that the spec
tells a model to refuse; binding the same bytes again changes nothing (log 10). -/
def bindBuffer (bytes : List Byte) (s : State) : Host.Outcome State Fault Refusal :=
  if s.status = .running ∧ Memory.ofBytes bytes ≠ s.buf then .refused .bufferChangedWhileRunning
  else .next { s with buf := Memory.ofBytes bytes }

/-- One action of the host. A write of the pending copy never touches `DESC` (R22, R266; log 9). -/
def hostAct (a : HostAction) (s : State) : Host.Outcome State Fault Refusal :=
  match a with
  | .start => .next (hostStart s)
  | .reset => .next (hostReset s)
  | .writePending d => .next { s with pending := d }
  | .bindBuffer bytes => bindBuffer bytes s
  | .other => .next s

/-- R40, R266: a read of `STATUS` is always defined. -/
def hostReadStatus (s : State) : BitVec 2 := s.status.bits

/-- R41. -/
def hostReadErrCode (s : State) : BitVec 3 := s.errCode.bits

/-- R42. -/
def hostReadErrStage (s : State) : BitVec 2 := s.errStage.bits

/-- R43. -/
def hostReadErrRow (s : State) : BitVec 32 := s.errRow

/-- R44. -/
def hostReadErrOffset (s : State) : Nat := s.errOffset

/-- R45. -/
def hostReadErrFrame (s : State) : BitVec 32 := s.errFrame

/-- R46, R79, R265: the host's `nth` read of a store, here `BOUNDS_OUT[r]`: the element where `STATUS` is DONE, and a
free value else, which may differ from read to read (log 3). -/
def hostReadBound (nth : Nat) (s : State) (r : Nat) : RowBound :=
  if s.status = .done then s.boundAt r
  else
    { left := Config.freeLeft (.hostRead nth) r
      right := Config.freeRight (.hostRead nth) r
      full := Config.freeFull (.hostRead nth) r }

/-- R47, R79, R265: `CMDOFF_OUT[r]`. -/
def hostReadOffset (nth : Nat) (s : State) (r : Nat) : BitVec 32 :=
  if s.status = .done then s.offsetAt r else Config.freeOffset (.hostRead nth) r

/-- R48, R79, R265: `GRID[r][c]`. -/
def hostReadPixel (nth : Nat) (s : State) (r c : Nat) : BitVec 16 :=
  if s.status = .done then s.pixelAt r c else Config.freePixelWord (.hostRead nth) r c

end Sys2Proof.Machine
end

