-- ==== Sys2Proof/Machine/Flags.lean ====
section
/-! DEFINITION. The block has no condition flag, predicate or mode bit (10_state.md R52), so there is no flag register
to compute. What decides control are the conditions below, tested where the spec tests them and kept nowhere. -/

namespace Sys2Proof.Machine

/-- R146: the row has emitted more pixels than expected. -/
abbrev State.Overrun (s : State) : Prop := s.expected < (s.emitted : Int)

/-- R147: the row has emitted exactly the expected pixels. -/
abbrev State.ExactCount (s : State) : Prop := (s.emitted : Int) = s.expected

/-- R235: `w * h > GRID_CAP`; never where the capacity is unbounded. -/
def overCapacity (w h : Int) : Option Nat → Bool
  | none => false
  | some cap => decide ((cap : Int) < w * h)

/-- R208, R235: the dimension check fails. -/
def badDimensions (d : Descriptor) (cap : Option Nat) : Bool :=
  decide (d.widthInt < 0) || decide (d.heightInt < 0) || overCapacity d.widthInt d.heightInt cap

/-- R146, `CheckCount()`. -/
def checkCount (s : State) : Except State State :=
  if s.Overrun then .error (raise .rowOverrun s.cursor s) else .ok s

end Sys2Proof.Machine
end

