-- ==== Sys2Proof/Machine/Operands.lean ====
section
/-! DEFINITION. The operand forms of the row commands (30_encoding.md R94 to R100). Each reads its bytes through
`nextByte` and ends in `.error`, the state after the error entry, where a byte lies outside `BUF`. -/

namespace Sys2Proof.Machine

/-- R96 PEC: the in-command value, or the next byte where that value is 0. -/
def packedCount (value : Nat) (s : State) : Except State (Nat × State) :=
  if value = 0 then
    match nextByte s with
    | .ok (b, s) => .ok (b.toNat, s)
    | .error s => .error s
  else .ok (value, s)

/-- R97: the 12-bit count `(high_nibble << 4) | next`; the count byte is always read. -/
def bigCount (high : BitVec 4) (s : State) : Except State (Nat × State) :=
  match nextByte s with
  | .ok (b, s) => .ok ((high ++ b : BitVec 12).toNat, s)
  | .error s => .error s

/-- R99: the 8-bit count of the next byte, no PEC. -/
def extendedCount (s : State) : Except State (Nat × State) :=
  match nextByte s with
  | .ok (b, s) => .ok (b.toNat, s)
  | .error s => .error s

/-- R100: `for k in 0..count-1: idx <- NextByte(); emit(mk(idx))`. The pixels before a byte outside `BUF` have been
emitted. -/
def drawRun (mk : Byte → Pixel) : Nat → State → Except State State
  | 0, s => .ok s
  | n + 1, s =>
    match nextByte s with
    | .ok (idx, s) => drawRun mk n (emit (mk idx) s)
    | .error s => .error s

/-- R155, R156: one shared index byte, always read, then `count` pixels of it. -/
def fillRun (mk : Byte → Pixel) (count : Nat) (s : State) : Except State State :=
  match nextByte s with
  | .ok (idx, s) => .ok (emitMany count (mk idx) s)
  | .error s => .error s

/-- A count and what is done with it. -/
def withCount (count : Except State (Nat × State)) (body : Nat → State → Except State State) :
    Except State State :=
  match count with
  | .ok (n, s) => body n s
  | .error s => .error s

/-- `for k in 0..count-1: emit(p)`. -/
def repeatPixel (p : Pixel) (count : Nat) (s : State) : Except State State :=
  .ok (emitMany count p s)

end Sys2Proof.Machine
end

