-- ==== Sys2Proof/Machine/Draw.lean ====
section
/-! DEFINITION. The commands with an index byte per pixel: LDRAW, BDRAW, PLAYER (41_row_commands.md R150, R152, R154). -/

namespace Sys2Proof.Machine

/-- R150 LDRAW: `count` Palette pixels; the count has no long form. -/
def execLdraw (count : BitVec 6) (s : State) : Host.Outcome State Fault Refusal :=
  retire (drawRun .palette count.toNat s)

/-- R152 BDRAW: a 12-bit count, then that many Palette pixels. -/
def execBdraw (high : BitVec 4) (s : State) : Host.Outcome State Fault Refusal :=
  retire (withCount (bigCount high s) (drawRun .palette))

/-- R154 PLAYER: a PEC count, then that many Player pixels. -/
def execPlayer (value : BitVec 4) (s : State) : Host.Outcome State Fault Refusal :=
  retire (withCount (packedCount value.toNat s) (drawRun .player))

end Sys2Proof.Machine
end

