-- ==== Sys2Proof/Machine/EndOfRow.lean ====
section
/-! DEFINITION. EOR, the end-of-row marker (41_row_commands.md R171). -/

namespace Sys2Proof.Machine

/-- R171, R147, R148, R212: a row with the wrong count raises RowOverrun at the EOR byte; else the row's commands are
over, `PHASE <- ROW_END`, and the cursor stays on the EOR byte. The high nibble is ignored. -/
def execEor (_high : BitVec 4) (s : State) : Host.Outcome State Fault Refusal :=
  if s.ExactCount then .next { s with phase := .rowEnd }
  else .next (raise .rowOverrun s.cursor s)

end Sys2Proof.Machine
end

