-- ==== Sys2Proof/Machine/Extended.lean ====
section
/-! DEFINITION. The extended sub-commands (41_row_commands.md R158 to R170): seven without effect beyond the cursor's
advance, SP1, SP1N, SP2, SP2N, and the five reserved bytes. -/

namespace Sys2Proof.Machine

/-- R159 to R162, R167 to R169: `(no operation)`, and step 4's advance. No flip, palette, dither or alpha state exists
(10_state.md R52). -/
def noOperation (s : State) : Host.Outcome State Fault Refusal := retire (.ok s)

/-- R170: `raise UnknownExtendedCommand(CURSOR)`; nothing after the command byte is read. -/
def reservedExtended (s : State) : Host.Outcome State Fault Refusal :=
  retire (.error (raise .unknownExtendedCommand s.cursor s))

/-- R159 XFLIP0. -/
def execXflip0 (s : State) : Host.Outcome State Fault Refusal := noOperation s

/-- R160 XFLIP1. -/
def execXflip1 (s : State) : Host.Outcome State Fault Refusal := noOperation s

/-- R161 XPAL0. -/
def execXpal0 (s : State) : Host.Outcome State Fault Refusal := noOperation s

/-- R162 XPAL1. -/
def execXpal1 (s : State) : Host.Outcome State Fault Refusal := noOperation s

/-- R163 SP1: one Special1 pixel. -/
def execSp1 (s : State) : Host.Outcome State Fault Refusal := retire (.ok (emit .special1 s))

/-- R164 SP1N: a count byte, not PEC, and that many Special1 pixels. -/
def execSp1n (s : State) : Host.Outcome State Fault Refusal :=
  retire (withCount (extendedCount s) (repeatPixel .special1))

/-- R165 SP2: one Special2 pixel. -/
def execSp2 (s : State) : Host.Outcome State Fault Refusal := retire (.ok (emit .special2 s))

/-- R166 SP2N: a count byte, not PEC, and that many Special2 pixels. -/
def execSp2n (s : State) : Host.Outcome State Fault Refusal :=
  retire (withCount (extendedCount s) (repeatPixel .special2))

/-- R167 XDA8. -/
def execXda8 (s : State) : Host.Outcome State Fault Refusal := noOperation s

/-- R168 XDA9. -/
def execXda9 (s : State) : Host.Outcome State Fault Refusal := noOperation s

/-- R169 XDAA. -/
def execXdaa (s : State) : Host.Outcome State Fault Refusal := noOperation s

/-- R170, the reserved byte 0xBE. -/
def execRsvdBE (s : State) : Host.Outcome State Fault Refusal := reservedExtended s

/-- R170, the reserved byte 0xCE. -/
def execRsvdCE (s : State) : Host.Outcome State Fault Refusal := reservedExtended s

/-- R170, the reserved byte 0xDE. -/
def execRsvdDE (s : State) : Host.Outcome State Fault Refusal := reservedExtended s

/-- R170, the reserved byte 0xEE. -/
def execRsvdEE (s : State) : Host.Outcome State Fault Refusal := reservedExtended s

/-- R170, the reserved byte 0xFE. -/
def execRsvdFE (s : State) : Host.Outcome State Fault Refusal := reservedExtended s

end Sys2Proof.Machine
end

