-- ==== Sys2Proof/Machine/Fill.lean ====
section
/-! DEFINITION. The fills: FILL, PFILL, SFILL (41_row_commands.md R155 to R157). -/

namespace Sys2Proof.Machine

/-- R155 FILL: a PEC count, one shared index, that many Palette pixels. -/
def execFill (value : BitVec 4) (s : State) : Host.Outcome State Fault Refusal :=
  retire (withCount (packedCount value.toNat s) (fillRun .palette))

/-- R156 PFILL: a PEC count, one shared index, that many Player pixels. -/
def execPfill (value : BitVec 4) (s : State) : Host.Outcome State Fault Refusal :=
  retire (withCount (packedCount value.toNat s) (fillRun .player))

/-- R157 SFILL: a PEC count of Shadow pixels, no index byte. -/
def execSfill (value : BitVec 4) (s : State) : Host.Outcome State Fault Refusal :=
  retire (withCount (packedCount value.toNat s) (repeatPixel .shadow))

end Sys2Proof.Machine
end

