-- ==== Sys2Proof/Machine/Skip.lean ====
section
/-! DEFINITION. The skips: LSKIP, BSKIP (41_row_commands.md R151, R153). -/

namespace Sys2Proof.Machine

/-- R151 LSKIP: a PEC count of Transparent pixels. -/
def execLskip (value : BitVec 6) (s : State) : Host.Outcome State Fault Refusal :=
  retire (withCount (packedCount value.toNat s) (repeatPixel .transparent))

/-- R153 BSKIP: a 12-bit count of Transparent pixels. -/
def execBskip (high : BitVec 4) (s : State) : Host.Outcome State Fault Refusal :=
  retire (withCount (bigCount high s) (repeatPixel .transparent))

end Sys2Proof.Machine
end

