-- ==== Sys2Proof/Syntax.lean ====
section
/-! DEFINITION. The row commands: one constructor per row of spec/opcode_table.json.

A constructor holds the fields of the command BYTE that the row leaves free (30_encoding.md R91, R94, R95, R97). The
operand bytes that follow in the stream are read while the command runs (41_row_commands.md R145, 00_scope.md R10), so
they are no part of the decoded command (log 11). The assembler lines, which carry their operands, are in
Sys2Proof/Assembly.lean. -/

namespace Sys2Proof

/-- A decoded command byte (30_encoding.md R92, R98, R106). -/
inductive Instr where
  /-- R150 LDRAW: `cmd[7:2]` is the count. -/
  | ldraw (count : BitVec 6)
  /-- R151 LSKIP: `cmd[7:2]` is the in-command value of PEC(2). -/
  | lskip (value : BitVec 6)
  /-- R152 BDRAW: `cmd[7:4]` is the high part of the 12-bit count. -/
  | bdraw (high : BitVec 4)
  /-- R153 BSKIP: `cmd[7:4]` is the high part of the 12-bit count. -/
  | bskip (high : BitVec 4)
  /-- R154 PLAYER: `cmd[7:4]` is the in-command value of PEC(4). -/
  | player (value : BitVec 4)
  /-- R155 FILL: `cmd[7:4]` is the in-command value of PEC(4). -/
  | fill (value : BitVec 4)
  /-- R156 PFILL: `cmd[7:4]` is the in-command value of PEC(4). -/
  | pfill (value : BitVec 4)
  /-- R157 SFILL: `cmd[7:4]` is the in-command value of PEC(4). -/
  | sfill (value : BitVec 4)
  /-- R159 XFLIP0, byte 0x0E. -/
  | xflip0
  /-- R160 XFLIP1, byte 0x1E. -/
  | xflip1
  /-- R161 XPAL0, byte 0x2E. -/
  | xpal0
  /-- R162 XPAL1, byte 0x3E. -/
  | xpal1
  /-- R163 SP1, byte 0x4E. -/
  | sp1
  /-- R164 SP1N, byte 0x5E. -/
  | sp1n
  /-- R165 SP2, byte 0x6E. -/
  | sp2
  /-- R166 SP2N, byte 0x7E. -/
  | sp2n
  /-- R167 XDA8, byte 0x8E. -/
  | xda8
  /-- R168 XDA9, byte 0x9E. -/
  | xda9
  /-- R169 XDAA, byte 0xAE. -/
  | xdaa
  /-- R170, the reserved extended byte 0xBE. -/
  | rsvdBE
  /-- R170, the reserved extended byte 0xCE. -/
  | rsvdCE
  /-- R170, the reserved extended byte 0xDE. -/
  | rsvdDE
  /-- R170, the reserved extended byte 0xEE. -/
  | rsvdEE
  /-- R170, the reserved extended byte 0xFE. -/
  | rsvdFE
  /-- R171 EOR: the high nibble is ignored, and kept so that no bit of the byte is lost. -/
  | eor (high : BitVec 4)
deriving DecidableEq, Repr

end Sys2Proof
end

