-- ==== Sys2Proof/Machine/Dispatch.lean ====
section
/-! DEFINITION. `Execute(cmd)` (41_row_commands.md R145, R158): one arm per command. -/

namespace Sys2Proof.Machine

def exec (i : Instr) (s : State) : Host.Outcome State Fault Refusal :=
  match i with
  | .ldraw count => Sys2Proof.Machine.execLdraw count s
  | .lskip value => Sys2Proof.Machine.execLskip value s
  | .bdraw high => Sys2Proof.Machine.execBdraw high s
  | .bskip high => Sys2Proof.Machine.execBskip high s
  | .player value => Sys2Proof.Machine.execPlayer value s
  | .fill value => Sys2Proof.Machine.execFill value s
  | .pfill value => Sys2Proof.Machine.execPfill value s
  | .sfill value => Sys2Proof.Machine.execSfill value s
  | .xflip0 => Sys2Proof.Machine.execXflip0 s
  | .xflip1 => Sys2Proof.Machine.execXflip1 s
  | .xpal0 => Sys2Proof.Machine.execXpal0 s
  | .xpal1 => Sys2Proof.Machine.execXpal1 s
  | .sp1 => Sys2Proof.Machine.execSp1 s
  | .sp1n => Sys2Proof.Machine.execSp1n s
  | .sp2 => Sys2Proof.Machine.execSp2 s
  | .sp2n => Sys2Proof.Machine.execSp2n s
  | .xda8 => Sys2Proof.Machine.execXda8 s
  | .xda9 => Sys2Proof.Machine.execXda9 s
  | .xdaa => Sys2Proof.Machine.execXdaa s
  | .rsvdBE => Sys2Proof.Machine.execRsvdBE s
  | .rsvdCE => Sys2Proof.Machine.execRsvdCE s
  | .rsvdDE => Sys2Proof.Machine.execRsvdDE s
  | .rsvdEE => Sys2Proof.Machine.execRsvdEE s
  | .rsvdFE => Sys2Proof.Machine.execRsvdFE s
  | .eor high => Sys2Proof.Machine.execEor high s

end Sys2Proof.Machine
end

