-- ==== Sys2Proof/Assembly.lean ====
section
/-! DEFINITION. The assembler's lines (30_encoding.md R109): a command together with its operands. The bytes a line
stands for, the reading back of a line from bytes and the pseudo-instructions of R110 are in
Sys2Proof/Machine/Assembler.lean. -/

namespace Sys2Proof

/-- One line of R109's table. A count `n` is a natural number, an index a byte; the constraint column of the table is
`AsmLine.wellFormed`. `EOR` alone is `eor 0`. -/
inductive AsmLine where
  | ldraw (idxs : List Byte)
  | lskip (n : Nat)
  | lskipX (n : Nat)
  | bdraw (idxs : List Byte)
  | bskip (n : Nat)
  | player (idxs : List Byte)
  | playerX (idxs : List Byte)
  | fill (n : Nat) (idx : Byte)
  | fillX (n : Nat) (idx : Byte)
  | pfill (n : Nat) (idx : Byte)
  | pfillX (n : Nat) (idx : Byte)
  | sfill (n : Nat)
  | sfillX (n : Nat)
  | xflip0
  | xflip1
  | xpal0
  | xpal1
  | sp1
  | sp1n (n : Nat)
  | sp2
  | sp2n (n : Nat)
  | xda8
  | xda9
  | xdaa
  | eor (k : Nat)
deriving DecidableEq, Repr

/-- R110: the pseudo-instructions. -/
inductive PseudoLine where
  | skip (n : Nat)
  | draw (idxs : List Byte)
  | shadow (n : Nat)
  | fillp (n : Nat) (idx : Byte)
deriving DecidableEq, Repr

end Sys2Proof
end

