-- ==== Sys2Proof/WellFormed.lean ====
section
/-! DEFINITION. The checks on commands: the legal encodings (30_encoding.md R103) and the constraint column of the
assembler's table (R109). -/

namespace Sys2Proof

/-- R103: the only illegal command bytes are the five reserved extended bytes. The widths of the other fields are in
their types, so nothing else of a command byte can be ill-formed. -/
def Instr.wellFormed : Instr → Bool
  | .rsvdBE => false
  | .rsvdCE => false
  | .rsvdDE => false
  | .rsvdEE => false
  | .rsvdFE => false
  | .ldraw _ => true
  | .lskip _ => true
  | .bdraw _ => true
  | .bskip _ => true
  | .player _ => true
  | .fill _ => true
  | .pfill _ => true
  | .sfill _ => true
  | .xflip0 => true
  | .xflip1 => true
  | .xpal0 => true
  | .xpal1 => true
  | .sp1 => true
  | .sp1n => true
  | .sp2 => true
  | .sp2n => true
  | .xda8 => true
  | .xda9 => true
  | .xdaa => true
  | .eor _ => true

/-- R109, the constraint column. -/
def AsmLine.wellFormed : AsmLine → Bool
  | .ldraw idxs => decide (idxs.length ≤ 63)
  | .lskip n => decide (1 ≤ n ∧ n ≤ 63)
  | .lskipX n => decide (n ≤ 255)
  | .bdraw idxs => decide (idxs.length ≤ 4095)
  | .bskip n => decide (n ≤ 4095)
  | .player idxs => decide (1 ≤ idxs.length ∧ idxs.length ≤ 15)
  | .playerX idxs => decide (idxs.length ≤ 255)
  | .fill n _ => decide (1 ≤ n ∧ n ≤ 15)
  | .fillX n _ => decide (n ≤ 255)
  | .pfill n _ => decide (1 ≤ n ∧ n ≤ 15)
  | .pfillX n _ => decide (n ≤ 255)
  | .sfill n => decide (1 ≤ n ∧ n ≤ 15)
  | .sfillX n => decide (n ≤ 255)
  | .sp1n n => decide (n ≤ 255)
  | .sp2n n => decide (n ≤ 255)
  | .eor k => decide (k ≤ 15)
  | .xflip0 => true
  | .xflip1 => true
  | .xpal0 => true
  | .xpal1 => true
  | .sp1 => true
  | .sp2 => true
  | .xda8 => true
  | .xda9 => true
  | .xdaa => true

/-- R110: the ranges for which the pseudo-instructions have an expansion. -/
def PseudoLine.wellFormed : PseudoLine → Bool
  | .skip n => decide (n ≤ 4095)
  | .draw idxs => decide (idxs.length ≤ 4095)
  | .shadow n => decide (1 ≤ n ∧ n ≤ 255)
  | .fillp n _ => decide (1 ≤ n ∧ n ≤ 255)

end Sys2Proof
end

