-- ==== Sys2Proof/Decode.lean ====
section
/-! DEFINITION. The command byte: its fields (30_encoding.md R91), the decoder in the order of R92 and R98, total on
every byte and rejecting by name, and the encoder written from the same encodings. -/

namespace Sys2Proof

/-- Why the decoder rejects a byte. -/
inductive DecodeError where
  /-- R92 step 5, R172: a low nibble with no rule. R93 shows that no byte is rejected so; the branch is kept (log 14). -/
  | unknownCommand
deriving DecidableEq, Repr

/-- R91: `low_nibble = cmd & 0x0F`. -/
def lowNibble (cmd : Byte) : Byte := cmd &&& 0x0F#8

/-- R91: `high_nibble = cmd & 0xF0`, kept in place. -/
def highNibble (cmd : Byte) : Byte := cmd &&& 0xF0#8

/-- R91: `low_crumb = cmd & 0b11`. -/
def lowCrumb (cmd : Byte) : Byte := cmd &&& 0b11#8

/-- R94: `cmd >> 2`, which is `cmd[7:2]`. -/
def lesserField (cmd : Byte) : BitVec 6 := cmd.extractLsb' 2 6

/-- R95: `cmd >> 4`, which is `cmd[7:4]`. -/
def nibbleField (cmd : Byte) : BitVec 4 := cmd.extractLsb' 4 4

/-- R98, R158: the extended sub-command, chosen by `high_nibble`; the other five values are the reserved bytes (R170). -/
def decodeExtended (cmd : Byte) : Except DecodeError Instr :=
  let high := highNibble cmd
  if high = 0x00#8 then .ok .xflip0
  else if high = 0x10#8 then .ok .xflip1
  else if high = 0x20#8 then .ok .xpal0
  else if high = 0x30#8 then .ok .xpal1
  else if high = 0x40#8 then .ok .sp1
  else if high = 0x50#8 then .ok .sp1n
  else if high = 0x60#8 then .ok .sp2
  else if high = 0x70#8 then .ok .sp2n
  else if high = 0x80#8 then .ok .xda8
  else if high = 0x90#8 then .ok .xda9
  else if high = 0xA0#8 then .ok .xdaa
  else if high = 0xB0#8 then .ok .rsvdBE
  else if high = 0xC0#8 then .ok .rsvdCE
  else if high = 0xD0#8 then .ok .rsvdDE
  else if high = 0xE0#8 then .ok .rsvdEE
  else if high = 0xF0#8 then .ok .rsvdFE
  else .error .unknownCommand

/-- R92: the fields in the spec's order, the first match selects the command. -/
def decode (cmd : Byte) : Except DecodeError Instr :=
  let low := lowNibble cmd
  if low = 0x0F#8 then .ok (.eor (nibbleField cmd))
  else if lowCrumb cmd = 0b00#8 then .ok (.ldraw (lesserField cmd))
  else if lowCrumb cmd = 0b01#8 then .ok (.lskip (lesserField cmd))
  else if low = 0x02#8 then .ok (.bdraw (nibbleField cmd))
  else if low = 0x03#8 then .ok (.bskip (nibbleField cmd))
  else if low = 0x06#8 then .ok (.player (nibbleField cmd))
  else if low = 0x07#8 then .ok (.fill (nibbleField cmd))
  else if low = 0x0A#8 then .ok (.pfill (nibbleField cmd))
  else if low = 0x0B#8 then .ok (.sfill (nibbleField cmd))
  else if low = 0x0E#8 then decodeExtended cmd
  else .error .unknownCommand

/-- A command byte made of `cmd[7:2]` and the crumb (R91, R94). -/
def crumbByte (field : BitVec 6) (crumb : BitVec 2) : Byte := field ++ crumb

/-- A command byte made of `cmd[7:4]` and the low nibble (R91, R95). -/
def nibbleByte (field low : BitVec 4) : Byte := field ++ low

/-- The command byte of a command (30_encoding.md R92, R98, R106; opcode_table.json's match and mask). -/
def encode : Instr → Byte
  | .ldraw count => crumbByte count 0b00#2
  | .lskip value => crumbByte value 0b01#2
  | .bdraw high => nibbleByte high 0x2#4
  | .bskip high => nibbleByte high 0x3#4
  | .player value => nibbleByte value 0x6#4
  | .fill value => nibbleByte value 0x7#4
  | .pfill value => nibbleByte value 0xA#4
  | .sfill value => nibbleByte value 0xB#4
  | .xflip0 => 0x0E#8
  | .xflip1 => 0x1E#8
  | .xpal0 => 0x2E#8
  | .xpal1 => 0x3E#8
  | .sp1 => 0x4E#8
  | .sp1n => 0x5E#8
  | .sp2 => 0x6E#8
  | .sp2n => 0x7E#8
  | .xda8 => 0x8E#8
  | .xda9 => 0x9E#8
  | .xdaa => 0xAE#8
  | .rsvdBE => 0xBE#8
  | .rsvdCE => 0xCE#8
  | .rsvdDE => 0xDE#8
  | .rsvdEE => 0xEE#8
  | .rsvdFE => 0xFE#8
  | .eor high => nibbleByte high 0xF#4

/-- A row of spec/opcode_table.json: the bits of `mask` have in the command byte the values of `fixed` (R106). -/
structure OpcodeRow where
  mnemonic : String
  fixed : Byte
  mask : Byte
deriving DecidableEq, Repr

/-- The row's pattern fits the byte. -/
def OpcodeRow.covers (row : OpcodeRow) (cmd : Byte) : Bool := cmd &&& row.mask == row.fixed

/-- The row of spec/opcode_table.json that a command stands for. -/
def opcodeRow : Instr → OpcodeRow
  | .ldraw _ => ⟨"LDRAW", 0x00#8, 0x03#8⟩
  | .lskip _ => ⟨"LSKIP", 0x01#8, 0x03#8⟩
  | .bdraw _ => ⟨"BDRAW", 0x02#8, 0x0F#8⟩
  | .bskip _ => ⟨"BSKIP", 0x03#8, 0x0F#8⟩
  | .player _ => ⟨"PLAYER", 0x06#8, 0x0F#8⟩
  | .fill _ => ⟨"FILL", 0x07#8, 0x0F#8⟩
  | .pfill _ => ⟨"PFILL", 0x0A#8, 0x0F#8⟩
  | .sfill _ => ⟨"SFILL", 0x0B#8, 0x0F#8⟩
  | .xflip0 => ⟨"XFLIP0", 0x0E#8, 0xFF#8⟩
  | .xflip1 => ⟨"XFLIP1", 0x1E#8, 0xFF#8⟩
  | .xpal0 => ⟨"XPAL0", 0x2E#8, 0xFF#8⟩
  | .xpal1 => ⟨"XPAL1", 0x3E#8, 0xFF#8⟩
  | .sp1 => ⟨"SP1", 0x4E#8, 0xFF#8⟩
  | .sp1n => ⟨"SP1N", 0x5E#8, 0xFF#8⟩
  | .sp2 => ⟨"SP2", 0x6E#8, 0xFF#8⟩
  | .sp2n => ⟨"SP2N", 0x7E#8, 0xFF#8⟩
  | .xda8 => ⟨"XDA8", 0x8E#8, 0xFF#8⟩
  | .xda9 => ⟨"XDA9", 0x9E#8, 0xFF#8⟩
  | .xdaa => ⟨"XDAA", 0xAE#8, 0xFF#8⟩
  | .rsvdBE => ⟨"RSVD_BE", 0xBE#8, 0xFF#8⟩
  | .rsvdCE => ⟨"RSVD_CE", 0xCE#8, 0xFF#8⟩
  | .rsvdDE => ⟨"RSVD_DE", 0xDE#8, 0xFF#8⟩
  | .rsvdEE => ⟨"RSVD_EE", 0xEE#8, 0xFF#8⟩
  | .rsvdFE => ⟨"RSVD_FE", 0xFE#8, 0xFF#8⟩
  | .eor _ => ⟨"EOR", 0x0F#8, 0x0F#8⟩

/-- R93, R106: the 25 rows of spec/opcode_table.json, in its order. -/
def opcodeTable : List OpcodeRow :=
  [ opcodeRow (.ldraw 0),
    opcodeRow (.lskip 0),
    opcodeRow (.bdraw 0),
    opcodeRow (.bskip 0),
    opcodeRow (.player 0),
    opcodeRow (.fill 0),
    opcodeRow (.pfill 0),
    opcodeRow (.sfill 0),
    opcodeRow .xflip0,
    opcodeRow .xflip1,
    opcodeRow .xpal0,
    opcodeRow .xpal1,
    opcodeRow .sp1,
    opcodeRow .sp1n,
    opcodeRow .sp2,
    opcodeRow .sp2n,
    opcodeRow .xda8,
    opcodeRow .xda9,
    opcodeRow .xdaa,
    opcodeRow .rsvdBE,
    opcodeRow .rsvdCE,
    opcodeRow .rsvdDE,
    opcodeRow .rsvdEE,
    opcodeRow .rsvdFE,
    opcodeRow (.eor 0) ]

/-- The `count` low bytes of `w`, the least significant first: how the table numbers an instruction's bits. -/
def bytesOfWord : Nat → Nat → List Byte
  | 0, _ => []
  | count + 1, w => BitVec.ofNat 8 w :: bytesOfWord count (w / 256)

/-- What the decoder reads from a table row's word of `nbits` bits (bit 0 the least significant bit of the first byte).
Only the first byte, the command byte, chooses the command; operand bytes are read while it runs. -/
def decodeTableWord (nbits w : Nat) : Option Instr :=
  match bytesOfWord (nbits / 8) w with
  | [] => none
  | cmd :: _ =>
    match decode cmd with
    | .ok i => some i
    | .error _ => none

end Sys2Proof
end

