-- ==== Sys2Proof/Machine/Fetch.lean ====
section
/-! DEFINITION. The start of a pass of the command loop (41_row_commands.md R145, R146): the count check, the read of
the command byte, its decoding; and the placing of a command where the next pass fetches it. -/

namespace Sys2Proof.Machine

/-- R145 step 1: the command byte at `CURSOR`. -/
def readCommand (s : State) : Except State Byte :=
  match memRead s.cursor 1 s with
  | .ok v => .ok (BitVec.ofNat 8 v)
  | .error s => .error s

/-- R145, R146, R239: the count check before the read, the read before the decoding. The decoder's rejection raises
UnknownCommand (R172, R232; log 14). -/
def fetch (s : State) : Except State Instr :=
  match checkCount s with
  | .error s => .error s
  | .ok s =>
    match readCommand s with
    | .error s => .error s
    | .ok cmd =>
      match decode cmd with
      | .ok i => .ok i
      | .error .unknownCommand => .error (raise .unknownCommand s.cursor s)

/-- The buffer with nothing but zeros in the `n` bytes from `a` on, and reaching at least that far. -/
def Memory.clear (a n : Nat) (m : Memory) : Memory :=
  { len := max m.len (a + n)
    cells := m.cells.filter fun c => decide (c.1 < a) || decide (a + n ≤ c.1) }

/-- The buffer with these bytes stored from `a` on. -/
def Memory.writeBytes (a : Nat) : List Byte → Memory → Memory
  | [], m => m
  | b :: rest, m => Memory.writeBytes (a + 1) rest (m.write a b)

/-- The command of a table row's word, followed by zero bytes up to the longest command, in the buffer at `CURSOR`. -/
def placeWord (nbits w : Nat) (s : State) : Memory :=
  Memory.writeBytes s.cursor (bytesOfWord (nbits / 8) w)
    (Memory.clear s.cursor (max Config.longestCommand (nbits / 8)) s.buf)

end Sys2Proof.Machine
end

