-- ==== Sys2Proof/Machine/Phases.lean ====
section
/-! DEFINITION. The steps of the frame operation but CMDS (42_frame_assembler.md R208 to R211, R213) and the two table
entry reads they make (40_table_lookups.md R121 to R123, R127). -/

namespace Sys2Proof.Machine

/-- A step's next state: its own, or that of the error entry. -/
def settled : Except State State → State
  | .ok s => s
  | .error s => s

/-- R208, the step CHECK. -/
def stepCheck (s : State) : State :=
  if badDimensions s.desc s.gridCap then raise .invalidDimensions 0 s
  else if s.desc.heightInt = 0 then { s with status := .done }
  else { s with idx := 0, phase := .bounds }

/-- R122, R123: a record with the sentinel in either field is fully transparent, any other is literal. -/
def classify (left right : BitVec 16) : RowBound :=
  if left = Config.sentinel ∨ right = Config.sentinel then { left := 0#16, right := 0#16, full := true }
  else { left := left, right := right, full := false }

/-- R121, R65: the bound of a record read as one 32-bit little-endian word. -/
def boundOfWord (w : Nat) : RowBound :=
  classify (BitVec.ofNat 16 w) (BitVec.ofNat 16 (w >>> 16))

/-- R121, R127, R69: the address of table entry `i`, computed without wrap. -/
def entryAddress (offset : BitVec 32) (i : Nat) : Nat := offset.toNat + Config.tableStride * i

/-- R121 `BoundEntry`, for the entry `IDX`. -/
def boundEntry (s : State) : Except State RowBound :=
  match memRead (entryAddress s.desc.boundsTableOffset s.idx) 4 s with
  | .ok w => .ok (boundOfWord w)
  | .error s => .error s

/-- R127 `CmdEntry`, for the entry `IDX`; the value is kept as read. -/
def cmdEntry (s : State) : Except State (BitVec 32) :=
  match memRead (entryAddress s.desc.cmdTableOffset s.idx) 4 s with
  | .ok w => .ok (BitVec.ofNat 32 w)
  | .error s => .error s

/-- R209, the step BOUNDS: one entry. -/
def stepBounds (s : State) : State :=
  match boundEntry s with
  | .ok b =>
    let s := writeBound s.idx b s
    if ((s.idx + 1 : Nat) : Int) = s.desc.heightInt then { s with idx := 0, phase := .cmdtab }
    else { s with idx := s.idx + 1 }
  | .error s => s

/-- R210, the step CMDTAB: one entry. -/
def stepCmdtab (s : State) : State :=
  match cmdEntry s with
  | .ok v =>
    let s := writeOffset s.idx v s
    if ((s.idx + 1 : Nat) : Int) = s.desc.heightInt then
      { s with idx := s.idx + 1, row := 0, phase := .rowStart }
    else { s with idx := s.idx + 1 }
  | .error s => s

/-- R141: a fully transparent row, no byte is read. -/
def transparentRow (start : Nat) (s : State) : State :=
  padFrom 0 s.desc.widthInt.toNat { s with expected := 0, emitted := 0, cursor := start }

/-- R144: row entry; `left + right > width` raises RowOverrun before a byte is read. -/
def rowEntry (bound : RowBound) (start : Nat) (s : State) : Except State State :=
  let s := { s with
    expected := s.desc.widthInt - bound.left.toNat - bound.right.toNat
    emitted := 0
    cursor := start }
  if s.expected < 0 then .error (raise .rowOverrun s.cursor s)
  else .ok (padFrom 0 bound.left.toNat s)

/-- R211, the step ROW_START. -/
def stepRowStart (s : State) : State :=
  let bound := s.boundAt s.row
  let start := (s.offsetAt s.row).toNat
  if bound.full then nextRow (transparentRow start s)
  else
    match rowEntry bound start s with
    | .ok s => { s with phase := .cmds }
    | .error s => s

/-- R213, R143, the step ROW_END: the right padding, from column `LEFT + EXPECTED` on (log 17). -/
def stepRowEnd (s : State) : State :=
  let bound := s.boundAt s.row
  nextRow (padFrom (bound.left.toNat + s.expected.toNat) bound.right.toNat s)

end Sys2Proof.Machine
end

