-- ==== Sys2Proof/Machine/Pass.lean ====
section
/-! DEFINITION. One step of the block (42_frame_assembler.md R207): by `PHASE` while RUNNING, none in IDLE, DONE and
ERROR. -/

namespace Sys2Proof.Machine

/-- R212, the step CMDS: one pass of the command loop. -/
def cmdsPass (s : State) : Host.Outcome State Fault Refusal :=
  match fetch s with
  | .ok i => exec i s
  | .error s => .next s

/-- R207 to R214 while RUNNING. In the other states the block takes no step and every register keeps its value (R236,
R249, R261): the next state is the same state (log 8). -/
def blockStep (s : State) : Host.Outcome State Fault Refusal :=
  match s.status with
  | .running =>
    match s.phase with
    | .check => .next (stepCheck s)
    | .bounds => .next (stepBounds s)
    | .cmdtab => .next (stepCmdtab s)
    | .rowStart => .next (stepRowStart s)
    | .cmds => cmdsPass s
    | .rowEnd => .next (stepRowEnd s)
  | .idle => .next s
  | .done => .next s
  | .error => .next s

end Sys2Proof.Machine
end

