-- ==== Sys2Proof/Machine/Step.lean ====
section
/-! DEFINITION. One step of host and block: the turn that the schedule names (log 6). -/

namespace Sys2Proof.Machine

/-- One turn: the next entry of the schedule, and the block's where none is left. -/
def step (s : State) : Host.Outcome State Fault Refusal :=
  match s.hostMoves with
  | [] => blockStep s
  | .blockTurn :: rest => blockStep { s with hostMoves := rest }
  | .act a :: rest => hostAct a { s with hostMoves := rest }

/-- `s` with a table row's word where the next step fetches its command: RUNNING, in the phase CMDS, the block's turn,
the word in the buffer at `CURSOR`, zero bytes after it; the counts are touched only where the count check would stop
the pass first (log 7). -/
def State.withFetchWord (s : State) (nbits w : Nat) : State :=
  { s with
    status := .running
    phase := .cmds
    hostMoves := []
    buf := placeWord nbits w s
    emitted := if (s.emitted : Int) ≤ s.expected then s.emitted else 0
    expected := if (s.emitted : Int) ≤ s.expected then s.expected else 0 }

end Sys2Proof.Machine
end

