-- ==== Sys2Proof/Machine/Assembler.lean ====
section
/-! DEFINITION. The assembler (30_encoding.md R109, R110): the bytes of a line, the reading back of a line from a stream
(R90, R100, R101), the pixels a line emits, and the pseudo-instructions' expansions. -/

namespace Sys2Proof

open Machine

/-- The command of a line's command byte (R109). -/
def AsmLine.command : AsmLine → Instr
  | .ldraw idxs => .ldraw (BitVec.ofNat 6 idxs.length)
  | .lskip n => .lskip (BitVec.ofNat 6 n)
  | .lskipX _ => .lskip 0#6
  | .bdraw idxs => .bdraw (BitVec.ofNat 4 (idxs.length >>> 8))
  | .bskip n => .bskip (BitVec.ofNat 4 (n >>> 8))
  | .player idxs => .player (BitVec.ofNat 4 idxs.length)
  | .playerX _ => .player 0#4
  | .fill n _ => .fill (BitVec.ofNat 4 n)
  | .fillX _ _ => .fill 0#4
  | .pfill n _ => .pfill (BitVec.ofNat 4 n)
  | .pfillX _ _ => .pfill 0#4
  | .sfill n => .sfill (BitVec.ofNat 4 n)
  | .sfillX _ => .sfill 0#4
  | .xflip0 => .xflip0
  | .xflip1 => .xflip1
  | .xpal0 => .xpal0
  | .xpal1 => .xpal1
  | .sp1 => .sp1
  | .sp1n _ => .sp1n
  | .sp2 => .sp2
  | .sp2n _ => .sp2n
  | .xda8 => .xda8
  | .xda9 => .xda9
  | .xdaa => .xdaa
  | .eor k => .eor (BitVec.ofNat 4 k)

/-- A count as one byte, `n & 0xFF`. -/
def countByte (n : Nat) : Byte := BitVec.ofNat 8 n

/-- The operand bytes of a line, the count byte first (R100, R109). -/
def AsmLine.operands : AsmLine → List Byte
  | .ldraw idxs => idxs
  | .lskip _ => []
  | .lskipX n => [countByte n]
  | .bdraw idxs => countByte idxs.length :: idxs
  | .bskip n => [countByte n]
  | .player idxs => idxs
  | .playerX idxs => countByte idxs.length :: idxs
  | .fill _ idx => [idx]
  | .fillX n idx => [countByte n, idx]
  | .pfill _ idx => [idx]
  | .pfillX n idx => [countByte n, idx]
  | .sfill _ => []
  | .sfillX n => [countByte n]
  | .xflip0 => []
  | .xflip1 => []
  | .xpal0 => []
  | .xpal1 => []
  | .sp1 => []
  | .sp1n n => [countByte n]
  | .sp2 => []
  | .sp2n n => [countByte n]
  | .xda8 => []
  | .xda9 => []
  | .xdaa => []
  | .eor _ => []

/-- R109: the bytes of a line. -/
def AsmLine.bytes (l : AsmLine) : List Byte := encode l.command :: l.operands

/-- The bytes of a stream of lines. -/
def assemble : List AsmLine → List Byte
  | [] => []
  | l :: rest => l.bytes ++ assemble rest

/-- The pixels a line emits, in order (R150 to R171). -/
def AsmLine.pixels : AsmLine → List Pixel
  | .ldraw idxs => idxs.map .palette
  | .lskip n => List.replicate n .transparent
  | .lskipX n => List.replicate n .transparent
  | .bdraw idxs => idxs.map .palette
  | .bskip n => List.replicate n .transparent
  | .player idxs => idxs.map .player
  | .playerX idxs => idxs.map .player
  | .fill n idx => List.replicate n (.palette idx)
  | .fillX n idx => List.replicate n (.palette idx)
  | .pfill n idx => List.replicate n (.player idx)
  | .pfillX n idx => List.replicate n (.player idx)
  | .sfill n => List.replicate n .shadow
  | .sfillX n => List.replicate n .shadow
  | .xflip0 => []
  | .xflip1 => []
  | .xpal0 => []
  | .xpal1 => []
  | .sp1 => [.special1]
  | .sp1n n => List.replicate n .special1
  | .sp2 => [.special2]
  | .sp2n n => List.replicate n .special2
  | .xda8 => []
  | .xda9 => []
  | .xdaa => []
  | .eor _ => []

/-- The first `n` bytes and the rest; nothing where the stream is shorter. -/
def splitBytes (n : Nat) (bs : List Byte) : Option (List Byte × List Byte) :=
  if n ≤ bs.length then some (bs.take n, bs.drop n) else none

/-- A line of `n` index bytes. -/
def lineOfRun (mk : List Byte → AsmLine) (n : Nat) (bs : List Byte) : Option (AsmLine × List Byte) :=
  (splitBytes n bs).map fun (idxs, rest) => (mk idxs, rest)

/-- A line read after its count byte. -/
def lineAfterCount (k : Byte → List Byte → Option (AsmLine × List Byte)) :
    List Byte → Option (AsmLine × List Byte)
  | [] => none
  | b :: rest => k b rest

/-- A line ended by one index byte. -/
def lineOfIndex (mk : Byte → AsmLine) : List Byte → Option (AsmLine × List Byte)
  | [] => none
  | idx :: rest => some (mk idx, rest)

/-- R100, R101: the line of a decoded command and the bytes after its command byte; none for a reserved byte (R103) and
where the operands do not fit. -/
def readOperands (i : Instr) (bs : List Byte) : Option (AsmLine × List Byte) :=
  match i with
  | .ldraw count => lineOfRun .ldraw count.toNat bs
  | .lskip value =>
    if value = 0#6 then lineAfterCount (fun b rest => some (.lskipX b.toNat, rest)) bs
    else some (.lskip value.toNat, bs)
  | .bdraw high => lineAfterCount (fun b rest => lineOfRun .bdraw (high ++ b : BitVec 12).toNat rest) bs
  | .bskip high => lineAfterCount (fun b rest => some (.bskip (high ++ b : BitVec 12).toNat, rest)) bs
  | .player value =>
    if value = 0#4 then lineAfterCount (fun b rest => lineOfRun .playerX b.toNat rest) bs
    else lineOfRun .player value.toNat bs
  | .fill value =>
    if value = 0#4 then lineAfterCount (fun b rest => lineOfIndex (.fillX b.toNat) rest) bs
    else lineOfIndex (.fill value.toNat) bs
  | .pfill value =>
    if value = 0#4 then lineAfterCount (fun b rest => lineOfIndex (.pfillX b.toNat) rest) bs
    else lineOfIndex (.pfill value.toNat) bs
  | .sfill value =>
    if value = 0#4 then lineAfterCount (fun b rest => some (.sfillX b.toNat, rest)) bs
    else some (.sfill value.toNat, bs)
  | .xflip0 => some (.xflip0, bs)
  | .xflip1 => some (.xflip1, bs)
  | .xpal0 => some (.xpal0, bs)
  | .xpal1 => some (.xpal1, bs)
  | .sp1 => some (.sp1, bs)
  | .sp1n => lineAfterCount (fun b rest => some (.sp1n b.toNat, rest)) bs
  | .sp2 => some (.sp2, bs)
  | .sp2n => lineAfterCount (fun b rest => some (.sp2n b.toNat, rest)) bs
  | .xda8 => some (.xda8, bs)
  | .xda9 => some (.xda9, bs)
  | .xdaa => some (.xdaa, bs)
  | .rsvdBE => none
  | .rsvdCE => none
  | .rsvdDE => none
  | .rsvdEE => none
  | .rsvdFE => none
  | .eor high => some (.eor high.toNat, bs)

/-- The first line of a stream, and the bytes after it. -/
def readLine : List Byte → Option (AsmLine × List Byte)
  | [] => none
  | cmd :: bs =>
    match decode cmd with
    | .ok i => readOperands i bs
    | .error _ => none

/-- R110: the lines a pseudo-instruction stands for. -/
def PseudoLine.expand : PseudoLine → List AsmLine
  | .skip n => if n = 0 then [] else if n ≤ 63 then [.lskip n] else if n ≤ 255 then [.lskipX n] else [.bskip n]
  | .draw idxs => if idxs.length ≤ 63 then [.ldraw idxs] else [.bdraw idxs]
  | .shadow n => if n ≤ 15 then [.sfill n] else [.sfillX n]
  | .fillp n idx => if n ≤ 15 then [.fill n idx] else [.fillX n idx]

/-- R110: the pixels a pseudo-instruction emits. -/
def PseudoLine.pixels : PseudoLine → List Pixel
  | .skip n => List.replicate n .transparent
  | .draw idxs => idxs.map .palette
  | .shadow n => List.replicate n .shadow
  | .fillp n idx => List.replicate n (.palette idx)

end Sys2Proof
end

