-- ==== Sys2Proof/Machine/Length.lean ====
section
/-! DEFINITION. The formats and lengths of commands (30_encoding.md R90, R101). -/

namespace Sys2Proof

/-- R90: the six formats. -/
inductive Format where
  /-- `cmd` -/
  | f0
  /-- `cmd idx*count` -/
  | f1
  /-- `cmd cnt` -/
  | f2
  /-- `cmd cnt idx*count` -/
  | f3
  /-- `cmd idx` -/
  | f4
  /-- `cmd cnt idx` -/
  | f5
deriving DecidableEq, Repr

/-- R90, R101: the format of a command; an in-command count of 0 chooses the PEC long form. -/
def commandFormat : Instr → Format
  | .ldraw count => if count = 0#6 then .f0 else .f1
  | .lskip value => if value = 0#6 then .f2 else .f0
  | .bdraw _ => .f3
  | .bskip _ => .f2
  | .player value => if value = 0#4 then .f3 else .f1
  | .fill value => if value = 0#4 then .f5 else .f4
  | .pfill value => if value = 0#4 then .f5 else .f4
  | .sfill value => if value = 0#4 then .f2 else .f0
  | .xflip0 => .f0
  | .xflip1 => .f0
  | .xpal0 => .f0
  | .xpal1 => .f0
  | .sp1 => .f0
  | .sp1n => .f2
  | .sp2 => .f0
  | .sp2n => .f2
  | .xda8 => .f0
  | .xda9 => .f0
  | .xdaa => .f0
  | .rsvdBE => .f0
  | .rsvdCE => .f0
  | .rsvdDE => .f0
  | .rsvdEE => .f0
  | .rsvdFE => .f0
  | .eor _ => .f0

/-- R101, the column "pixels emitted"; `byte1` is the byte after `cmd`. A reserved byte emits none. -/
def commandCount (i : Instr) (byte1 : Byte) : Nat :=
  match i with
  | .ldraw count => count.toNat
  | .lskip value => if value = 0#6 then byte1.toNat else value.toNat
  | .bdraw high => 256 * high.toNat + byte1.toNat
  | .bskip high => 256 * high.toNat + byte1.toNat
  | .player value => if value = 0#4 then byte1.toNat else value.toNat
  | .fill value => if value = 0#4 then byte1.toNat else value.toNat
  | .pfill value => if value = 0#4 then byte1.toNat else value.toNat
  | .sfill value => if value = 0#4 then byte1.toNat else value.toNat
  | .xflip0 => 0
  | .xflip1 => 0
  | .xpal0 => 0
  | .xpal1 => 0
  | .sp1 => 1
  | .sp1n => byte1.toNat
  | .sp2 => 1
  | .sp2n => byte1.toNat
  | .xda8 => 0
  | .xda9 => 0
  | .xdaa => 0
  | .rsvdBE => 0
  | .rsvdCE => 0
  | .rsvdDE => 0
  | .rsvdEE => 0
  | .rsvdFE => 0
  | .eor _ => 0

/-- R90, R101, the column "length in bytes". -/
def commandLength (i : Instr) (byte1 : Byte) : Nat :=
  match commandFormat i with
  | .f0 => 1
  | .f1 => 1 + commandCount i byte1
  | .f2 => 2
  | .f3 => 2 + commandCount i byte1
  | .f4 => 2
  | .f5 => 3

end Sys2Proof
end

