-- ==== Sys2Proof/Machine/FrameFunction.lean ====
section
/-! DEFINITION. The frame operation as a pure function of the buffer and the descriptor (42_frame_assembler.md R200), the
normative result of a START: the tables (40_table_lookups.md R120, R126), the row routine (41_row_commands.md R140 to
R148) and the order of errors (R201). It is written beside the step machine, over lists of pixels, and shares with it
the decoder, the classification of bounds and the little-endian read only. -/

namespace Sys2Proof.Machine

/-- An error of a row: its code and its offset (60_exceptions.md R231 to R234). -/
structure RowError where
  code : ErrCode
  offset : Nat
deriving DecidableEq, Repr

/-- An error of a frame, as it is recorded (R236). -/
structure FrameError where
  code : ErrCode
  stage : ErrStage
  row : Nat
  offset : Nat
deriving DecidableEq, Repr

/-- R200, R205: the Frame record. -/
structure Frame where
  bounds : List RowBound
  offsets : List (BitVec 32)
  rows : List (List (BitVec 16))
deriving DecidableEq, Repr

/-- R120, R126: `count` table entries from entry `i` on, each a 4-byte word read by `entry`; the first that does not fit
ends the lookup with TruncatedInput at its first byte (R124, R128). -/
def tableEntries {α : Type} (entry : Nat → α) (m : Memory) (offset : BitVec 32) (stage : ErrStage) :
    Nat → Nat → Except FrameError (List α)
  | _, 0 => .ok []
  | i, count + 1 =>
    if entryAddress offset i + 4 ≤ m.len then
      match tableEntries entry m offset stage (i + 1) count with
      | .ok rest => .ok (entry (m.littleEndian (entryAddress offset i) 4) :: rest)
      | .error e => .error e
    else .error ⟨.truncatedInput, stage, i, entryAddress offset i⟩

/-- The pixels of `n` index bytes from `a` on, and the address after them; or the first address outside the buffer. -/
def indexRun (m : Memory) (mk : Byte → Pixel) (a n : Nat) : Except RowError (List Pixel × Nat) :=
  if n = 0 ∨ a + n ≤ m.len then .ok ((m.bytesFrom a n).map mk, a + n)
  else .error ⟨.truncatedInput, max a m.len⟩

/-- The byte at `a`, and what follows from it. -/
def afterByte {α : Type} (m : Memory) (a : Nat) (k : Byte → Except RowError α) : Except RowError α :=
  if a < m.len then k (m.byte a) else .error ⟨.truncatedInput, a⟩

/-- A PEC count (R96) and what follows from it and from the address after it. -/
def afterPacked {α : Type} (m : Memory) (a value : Nat) (k : Nat → Nat → Except RowError α) :
    Except RowError α :=
  if value = 0 then afterByte m a fun b => k b.toNat (a + 1) else k value a

/-- `n` equal pixels, and the address after the command. -/
def samePixels (p : Pixel) (n a : Nat) : Except RowError (List Pixel × Nat) := .ok (List.replicate n p, a)

/-- R101, R150 to R171: the pixels of the command whose byte stands at `c`, and the address of the next command. An EOR
emits nothing and leaves the address (R148). -/
def commandPixels (m : Memory) (c : Nat) (i : Instr) : Except RowError (List Pixel × Nat) :=
  match i with
  | .ldraw count => indexRun m .palette (c + 1) count.toNat
  | .lskip value => afterPacked m (c + 1) value.toNat fun n a => samePixels .transparent n a
  | .bdraw high => afterByte m (c + 1) fun b => indexRun m .palette (c + 2) (256 * high.toNat + b.toNat)
  | .bskip high => afterByte m (c + 1) fun b => samePixels .transparent (256 * high.toNat + b.toNat) (c + 2)
  | .player value => afterPacked m (c + 1) value.toNat fun n a => indexRun m .player a n
  | .fill value =>
    afterPacked m (c + 1) value.toNat fun n a => afterByte m a fun b => samePixels (.palette b) n (a + 1)
  | .pfill value =>
    afterPacked m (c + 1) value.toNat fun n a => afterByte m a fun b => samePixels (.player b) n (a + 1)
  | .sfill value => afterPacked m (c + 1) value.toNat fun n a => samePixels .shadow n a
  | .xflip0 => .ok ([], c + 1)
  | .xflip1 => .ok ([], c + 1)
  | .xpal0 => .ok ([], c + 1)
  | .xpal1 => .ok ([], c + 1)
  | .sp1 => .ok ([.special1], c + 1)
  | .sp1n => afterByte m (c + 1) fun b => samePixels .special1 b.toNat (c + 2)
  | .sp2 => .ok ([.special2], c + 1)
  | .sp2n => afterByte m (c + 1) fun b => samePixels .special2 b.toNat (c + 2)
  | .xda8 => .ok ([], c + 1)
  | .xda9 => .ok ([], c + 1)
  | .xdaa => .ok ([], c + 1)
  | .rsvdBE => .error ⟨.unknownExtendedCommand, c⟩
  | .rsvdCE => .error ⟨.unknownExtendedCommand, c⟩
  | .rsvdDE => .error ⟨.unknownExtendedCommand, c⟩
  | .rsvdEE => .error ⟨.unknownExtendedCommand, c⟩
  | .rsvdFE => .error ⟨.unknownExtendedCommand, c⟩
  | .eor _ => .ok ([], c)

/-- R145 to R148: the command loop from `c` on, `done` the pixels emitted so far; the row's command pixels and the
address of its EOR. `passes` bounds the number of passes; R149's bound always suffices (log 18). -/
def rowLoop (m : Memory) (expected : Int) : Nat → Nat → List Pixel → Except RowError (List Pixel × Nat)
  | 0, c, _ => .error ⟨.truncatedInput, c⟩
  | passes + 1, c, done =>
    if expected < (done.length : Int) then .error ⟨.rowOverrun, c⟩
    else
      afterByte m c fun cmd =>
        match decode cmd with
        | .error .unknownCommand => .error ⟨.unknownCommand, c⟩
        | .ok (.eor _) =>
          if (done.length : Int) = expected then .ok (done, c) else .error ⟨.rowOverrun, c⟩
        | .ok i =>
          match commandPixels m c i with
          | .ok (ps, next) => rowLoop m expected passes next (done ++ ps)
          | .error e => .error e

/-- R140, R141, R144, R173: `DecodeRow`, the `width` pixels of a row and its final read position. -/
def decodeRow (m : Memory) (start : Nat) (width : Int) (bound : RowBound) :
    Except RowError (List Pixel × Nat) :=
  if bound.full then .ok (List.replicate width.toNat .transparent, start)
  else
    let expected := width - bound.left.toNat - bound.right.toNat
    if expected < 0 then .error ⟨.rowOverrun, start⟩
    else
      match rowLoop m expected (m.len - start + 1) start [] with
      | .ok (ps, final) =>
        .ok (List.replicate bound.left.toNat .transparent ++ ps ++
          List.replicate bound.right.toNat .transparent, final)
      | .error e => .error e

/-- R200, R201, R204: the rows from row `r` on, in order; the first error is tagged with its row. -/
def decodeRows (m : Memory) (width : Int) :
    Nat → List (RowBound × BitVec 32) → Except FrameError (List (List (BitVec 16)))
  | _, [] => .ok []
  | r, (bound, offset) :: rest =>
    match decodeRow m offset.toNat width bound with
    | .error e => .error ⟨e.code, .row, r, e.offset⟩
    | .ok (ps, _) =>
      match decodeRows m width (r + 1) rest with
      | .error e => .error e
      | .ok rows => .ok (ps.map Pixel.word :: rows)

/-- R200: `DecodeFrame(BUF, DESC)`. -/
def decodeFrame (m : Memory) (d : Descriptor) (cap : Option Nat) : Except FrameError Frame :=
  if badDimensions d cap then .error ⟨.invalidDimensions, .check, 0, 0⟩
  else
    match tableEntries boundOfWord m d.boundsTableOffset .bounds 0 d.heightInt.toNat with
    | .error e => .error e
    | .ok bounds =>
      match tableEntries (BitVec.ofNat 32) m d.cmdTableOffset .cmdtab 0 d.heightInt.toNat with
      | .error e => .error e
      | .ok offsets =>
        match decodeRows m d.widthInt 0 (bounds.zip offsets) with
        | .error e => .error e
        | .ok rows => .ok ⟨bounds, offsets, rows⟩

/-- R149: the most steps an operation takes, `1 + 2 * HEIGHT + HEIGHT * (BUF_LEN + 3)`. -/
def stepBound (m : Memory) (d : Descriptor) : Nat :=
  1 + 2 * d.heightInt.toNat + d.heightInt.toNat * (m.len + 3)

end Sys2Proof.Machine
end

