-- ==== Sys2Proof/Safety.lean ====
section
/-! DEFINITION. The terms the claims use: what an error entry leaves, what a command may change, the invariants of the
block, and what it means that a state holds a frame's result. -/

namespace Sys2Proof.Machine

/-! ### Turns -/

/-- The next turn is the block's: no turn is scheduled, or the block's is (log 6). -/
def State.BlockTurn (s : State) : Prop := s.hostMoves = [] ∨ ∃ rest, s.hostMoves = .blockTurn :: rest

/-! ### Frames -/

/-- What no command changes: the descriptors, `EXPECTED`, `IDX`, `ROW`, the buffer, the capacity, the schedule. -/
def State.KeepsOperation (s t : State) : Prop :=
  t.pending = s.pending ∧ t.desc = s.desc ∧ t.expected = s.expected ∧ t.idx = s.idx ∧ t.row = s.row ∧
    t.buf = s.buf ∧ t.gridCap = s.gridCap ∧ t.hostMoves = s.hostMoves

/-- `STATUS` and the error registers are unchanged. -/
def State.KeepsStatus (s t : State) : Prop :=
  t.status = s.status ∧ t.errCode = s.errCode ∧ t.errStage = s.errStage ∧ t.errRow = s.errRow ∧
    t.errOffset = s.errOffset ∧ t.errFrame = s.errFrame

/-- The error registers are unchanged. -/
def State.KeepsErrors (s t : State) : Prop :=
  t.errCode = s.errCode ∧ t.errStage = s.errStage ∧ t.errRow = s.errRow ∧ t.errOffset = s.errOffset ∧
    t.errFrame = s.errFrame

/-- What the block never writes: the descriptors, the buffer, the capacity; and the schedule. -/
def State.KeepsInputs (s t : State) : Prop :=
  t.pending = s.pending ∧ t.desc = s.desc ∧ t.buf = s.buf ∧ t.gridCap = s.gridCap ∧ t.hostMoves = s.hostMoves

/-- The two table stores are unchanged. -/
def State.KeepsTables (s t : State) : Prop :=
  t.boundsOut = s.boundsOut ∧ t.cmdoffOut = s.cmdoffOut ∧ t.draws = s.draws

/-- R142: the grid is unchanged but in the columns of row `ROW` that the pixels numbered `s.emitted` to
`t.emitted - 1` belong to, those short of `EXPECTED`. -/
def State.KeepsGridOutsideRun (s t : State) : Prop :=
  ∀ r c,
    ¬ (r = s.row ∧ (s.boundAt s.row).left.toNat + s.emitted ≤ c ∧
        c < (s.boundAt s.row).left.toNat + t.emitted ∧
        ((c - (s.boundAt s.row).left.toNat : Nat) : Int) < s.expected) →
      t.pixel? r c = s.pixel? r c

/-- R236, R237: `t` has just entered error `e` at offset `a` from a step in the state `s`'s phase: the error registers
are written and every store element is unspecified. -/
def State.EnteredError (s t : State) (e : ErrCode) (a : Nat) : Prop :=
  t.status = .error ∧ t.errCode = e ∧ t.errStage = s.phase.stage ∧ t.errRow = BitVec.ofNat 32 s.errorRow ∧
    t.errOffset = a ∧ t.errFrame = s.desc.frameIndex ∧
    t.boundsOut = [] ∧ t.cmdoffOut = [] ∧ t.grid = [] ∧ t.draws = s.draws + 1

/-- The commands of the stream proper: neither EOR nor a reserved byte. -/
def plainCommand : Instr → Bool
  | .eor _ => false
  | i => i.wellFormed

/-! ### What a command's operands make of a state -/

/-- `s` after `n` pixels whose indices stand from `first` on in the buffer, the cursor after them. -/
def State.afterIndices (s : State) (mk : Byte → Pixel) (first n : Nat) : State :=
  moveCursor (first + n) (emitAll ((s.buf.bytesFrom first n).map mk) s)

/-- `s` after `n` equal pixels, the cursor at `next`. -/
def State.afterSame (s : State) (p : Pixel) (n next : Nat) : State :=
  moveCursor next (emitAll (List.replicate n p) s)

/-- R231: `s` after TruncatedInput at the operand byte `a`. -/
def State.missingByte (s : State) (a : Nat) : State := raise .truncatedInput a (moveCursor a s)

/-- R150, R231: `s` after TruncatedInput in a run of indices from `first` on: the pixels of the indices inside the
buffer have been emitted, and the first address outside it is recorded. -/
def State.cutShort (s : State) (mk : Byte → Pixel) (first : Nat) : State :=
  raise .truncatedInput (max first s.buf.len)
    (moveCursor (max first s.buf.len)
      (emitAll ((s.buf.bytesFrom first (s.buf.len - first)).map mk) s))

/-! ### Invariants -/

/-- Buffer and stores are in canonical form: equal contents are equal data. -/
def State.Canonical (s : State) : Prop :=
  s.buf.wf ∧ Cells.Rising s.boundsOut ∧ Cells.Rising s.cmdoffOut ∧ Cells.Rising s.grid ∧
    ∀ x ∈ s.grid, Cells.Rising x.2 ∧ x.2 ≠ []

/-- R46: `FULL == 1` implies `LEFT == 0` and `RIGHT == 0`. -/
def State.BoundsNormal (s : State) : Prop :=
  ∀ x ∈ s.boundsOut, x.2.full = true → x.2.left = 0#16 ∧ x.2.right = 0#16

/-- R49: the six kinds that the block's rules emit. -/
def Pixel.isEmitted : Pixel → Bool
  | .palette _ => true
  | .shadow => true
  | .transparent => true
  | .player _ => true
  | .special1 => true
  | .special2 => true
  | .shadowV4 => false
  | .playerV4 _ => false

/-- R49, R50: every written word of the grid is the word of a pixel that the block's rules emit. -/
def State.HoldsSixKinds (s : State) : Prop :=
  ∀ r c w, s.pixel? r c = some w → ∃ p : Pixel, p.isEmitted = true ∧ p.word = w

/-- R35, R36, R38, R39: the ranges of the counters. -/
def State.CountersInRange (s : State) : Prop :=
  s.emitted ≤ 2 ^ 31 - 1 + 4095 ∧ -131070 ≤ s.expected ∧ s.expected ≤ 2 ^ 31 - 1 ∧
    s.idx ≤ s.desc.heightInt.toNat ∧ s.row ≤ s.desc.heightInt.toNat

/-- Exactly the first `nb` bounds and the first `nc` offsets are written. -/
def State.TablesTo (s : State) (nb nc : Nat) : Prop :=
  (∀ r, (Cells.get s.boundsOut r).isSome ↔ r < nb) ∧ ∀ r, (Cells.get s.cmdoffOut r).isSome ↔ r < nc

/-- Exactly the rows below `row` and the first `col` columns of `row` are written. -/
def State.GridTo (s : State) (row col : Nat) : Prop :=
  ∀ r c, (s.pixel? r c).isSome ↔ (r < row ∧ c < s.desc.widthInt.toNat) ∨ (r = row ∧ c < col)

/-- R208: the dimension check has passed for a frame with rows. -/
def State.DimensionsChecked (s : State) : Prop :=
  badDimensions s.desc s.gridCap = false ∧ 0 < s.desc.heightInt

/-- R144: the current row is being interpreted. -/
def State.RowOpen (s : State) : Prop :=
  (s.boundAt s.row).full = false ∧
    s.expected = s.desc.widthInt - (s.boundAt s.row).left.toNat - (s.boundAt s.row).right.toNat ∧
    0 ≤ s.expected ∧ (s.emitted : Int) ≤ s.expected + 4095

/-- How far a running operation has come, by its phase (R208 to R214). -/
def State.Progress (s : State) : Prop :=
  match s.phase with
  | .check => s.idx = 0 ∧ s.row = 0 ∧ s.TablesTo 0 0 ∧ s.GridTo 0 0
  | .bounds =>
    s.DimensionsChecked ∧ s.row = 0 ∧ s.idx < s.desc.heightInt.toNat ∧ s.TablesTo s.idx 0 ∧ s.GridTo 0 0
  | .cmdtab =>
    s.DimensionsChecked ∧ s.row = 0 ∧ s.idx < s.desc.heightInt.toNat ∧
      s.TablesTo s.desc.heightInt.toNat s.idx ∧ s.GridTo 0 0
  | .rowStart =>
    s.DimensionsChecked ∧ s.row < s.desc.heightInt.toNat ∧
      s.TablesTo s.desc.heightInt.toNat s.desc.heightInt.toNat ∧ s.GridTo s.row 0
  | .cmds =>
    s.DimensionsChecked ∧ s.row < s.desc.heightInt.toNat ∧
      s.TablesTo s.desc.heightInt.toNat s.desc.heightInt.toNat ∧ s.RowOpen ∧
      s.GridTo s.row ((s.boundAt s.row).left.toNat + min s.emitted s.expected.toNat)
  | .rowEnd =>
    s.DimensionsChecked ∧ s.row < s.desc.heightInt.toNat ∧
      s.TablesTo s.desc.heightInt.toNat s.desc.heightInt.toNat ∧ s.RowOpen ∧ (s.emitted : Int) = s.expected ∧
      s.GridTo s.row ((s.boundAt s.row).left.toNat + s.emitted)

/-- The operation's invariant: its progress while RUNNING; at DONE the whole frame and nothing else (R205, R206); no
written store element in IDLE and ERROR. -/
def State.OperationInv (s : State) : Prop :=
  match s.status with
  | .running => s.Progress
  | .done =>
    0 ≤ s.desc.widthInt ∧ 0 ≤ s.desc.heightInt ∧
      s.TablesTo s.desc.heightInt.toNat s.desc.heightInt.toNat ∧ s.GridTo s.desc.heightInt.toNat 0
  | .idle => s.TablesTo 0 0 ∧ s.GridTo 0 0
  | .error => s.TablesTo 0 0 ∧ s.GridTo 0 0

/-- The invariant of the block. -/
def State.Inv (s : State) : Prop :=
  s.Canonical ∧ s.BoundsNormal ∧ s.CountersInRange ∧ s.OperationInv

/-! ### Results of a frame -/

/-- R205, R215: the stores hold the fields of the frame, for a `height` by `width` grid. -/
def State.HoldsFrame (s : State) (f : Frame) (height width : Nat) : Prop :=
  f.bounds.length = height ∧ f.offsets.length = height ∧ f.rows.length = height ∧
    (∀ r b, f.bounds[r]? = some b → s.boundAt r = b) ∧
    (∀ r v, f.offsets[r]? = some v → s.offsetAt r = v) ∧
    ∀ r row, f.rows[r]? = some row → row.length = width ∧ ∀ c w, row[c]? = some w → s.pixelAt r c = w

/-- R215: the error registers hold the frame's first error. -/
def State.HoldsError (s : State) (e : FrameError) : Prop :=
  s.errCode = e.code ∧ s.errStage = e.stage ∧ s.errRow.toNat = e.row ∧ s.errOffset = e.offset ∧
    s.errFrame = s.desc.frameIndex

/-- The bytes stand in the buffer from address `a` on, all inside it. -/
def Memory.HoldsAt (m : Memory) (a : Nat) (bytes : List Byte) : Prop :=
  a + bytes.length ≤ m.len ∧ ∀ k b, bytes[k]? = some b → m.byte (a + k) = b

/-- The state with the descriptor fields that no rule reads (R216) taken from `d`. -/
def State.withUnreadFields (s : State) (d : Descriptor) : State :=
  { s with
    desc :=
      { s.desc with
        paletteOffset := d.paletteOffset
        properties := d.properties
        anchorX := d.anchorX
        anchorY := d.anchorY
        frameKind := d.frameKind
        version := d.version } }

/-- An outcome with its next state changed. -/
def mapNext (f : State → State) : Host.Outcome State Fault Refusal → Host.Outcome State Fault Refusal
  | .next s => .next (f s)
  | .fault r => .fault r
  | .refused r => .refused r

end Sys2Proof.Machine
end

