-- ==== Sys2Proof/Certificates/Slice0/Obligations.lean ====
section
/-! DEFINITION. The statements for the provers. Each docstring names the rule or the section of spec/ it formalises. -/

open Sys2Proof Sys2Proof.Machine

/-- For every command, the decoder reads from the byte the encoder writes exactly that command, with every field at every value. (30_encoding.md section 1, 30_encoding.md section 5) -/
def Obligations.DecodeOfEncodeIsIdentity : Prop :=
  ∀ i : Instr, decode (encode i) = .ok i

/-- Every byte decodes to a command whose byte it is, so UnknownCommand is never raised; the low nibbles of the crumbs 0b10 and 0b11 are the eight the rule lists; and the 256 bytes divide as the rule counts them: 64 LDRAW, 64 LSKIP, 16 each of BDRAW, BSKIP, PLAYER, FILL, PFILL, SFILL and EOR, 16 extended. (R93) -/
def Obligations.EveryByteIsACommand : Prop :=
  let count : String → Nat := fun name =>
    ((List.range 256).filter fun n =>
      decide ((decodeTableWord 8 n).map (fun i => (opcodeRow i).mnemonic) = some name)).length
  (∀ cmd : Byte, ∃ i, decode cmd = .ok i ∧ encode i = cmd) ∧
    (∀ cmd : Byte, lowCrumb cmd = 0b10#8 ↔ lowNibble cmd ∈ [0x2#8, 0x6#8, 0xA#8, 0xE#8]) ∧
    (∀ cmd : Byte, lowCrumb cmd = 0b11#8 ↔ lowNibble cmd ∈ [0x3#8, 0x7#8, 0xB#8, 0xF#8]) ∧
    count "LDRAW" = 64 ∧ count "LSKIP" = 64 ∧ count "BDRAW" = 16 ∧ count "BSKIP" = 16 ∧
    count "PLAYER" = 16 ∧ count "FILL" = 16 ∧ count "PFILL" = 16 ∧ count "SFILL" = 16 ∧ count "EOR" = 16 ∧
    ((List.range 256).filter fun n => decide (lowNibble (BitVec.ofNat 8 n) = 0xE#8)).length = 16

/-- The sixteen bytes of the spec's decode vectors decode to the commands and in-command counts listed there. (95_test_vectors.md section 3, 30_encoding.md section 5) -/
def Obligations.BytesOfTheSpecDecodeAsTheSpecSays : Prop :=
  decode 0x00#8 = .ok (.ldraw 0#6) ∧ decode 0x01#8 = .ok (.lskip 0#6) ∧ decode 0x02#8 = .ok (.bdraw 0#4) ∧
    decode 0x0F#8 = .ok (.eor 0#4) ∧ decode 0x1F#8 = .ok (.eor 1#4) ∧ decode 0x25#8 = .ok (.lskip 9#6) ∧
    decode 0x3C#8 = .ok (.ldraw 15#6) ∧ decode 0x46#8 = .ok (.player 4#4) ∧ decode 0x5E#8 = .ok .sp1n ∧
    decode 0x7A#8 = .ok (.pfill 7#4) ∧ decode 0x9B#8 = .ok (.sfill 9#4) ∧ decode 0xAE#8 = .ok .xdaa ∧
    decode 0xBE#8 = .ok .rsvdBE ∧ decode 0xC3#8 = .ok (.bskip 12#4) ∧ decode 0xE7#8 = .ok (.fill 14#4) ∧
    decode 0xFF#8 = .ok (.eor 15#4)

/-- For every well-formed assembler line, with every operand at every value its constraint admits, and whatever bytes follow, reading a line from its bytes gives that line and leaves exactly the bytes that follow. (30_encoding.md section 1, 30_encoding.md section 3, 30_encoding.md section 7) -/
def Obligations.ReadLineOfAssembledLine : Prop :=
  ∀ (l : AsmLine) (rest : List Byte), l.wellFormed = true → readLine (l.bytes ++ rest) = some (l, rest)

/-- Whenever a line can be read from a stream, the line meets its constraint and its bytes, followed by the bytes left over, are the stream: no bit of a stream is dropped. (30_encoding.md section 3, 30_encoding.md section 7) -/
def Obligations.AssembledLineOfReadLine : Prop :=
  ∀ (bs rest : List Byte) (l : AsmLine), readLine bs = some (l, rest) →
    l.wellFormed = true ∧ bs = l.bytes ++ rest

/-- In the ranges the spec gives, every line of a pseudo-instruction's expansion is well-formed and the expansion emits the pseudo-instruction's pixels. (30_encoding.md section 7) -/
def Obligations.PseudoInstructionsExpandToTheirPixels : Prop :=
  ∀ p : PseudoLine, p.wellFormed = true →
    (∀ l ∈ p.expand, l.wellFormed = true) ∧ p.expand.flatMap AsmLine.pixels = p.pixels

/-- Outside RUNNING, the host's binding of a list of bytes gives a next state whose buffer has that length, holds byte k at address k, and is in canonical form; nothing else changes but the schedule. That BUF is a field of the state is the model's choice (log 4). (70_reset_and_hazards.md section 2, 20_memory.md section 1) -/
def Obligations.BoundBufferHoldsItsBytes : Prop :=
  ∀ (s : State) (bytes : List Byte) (rest : List HostMove),
    s.hostMoves = .act (.bindBuffer bytes) :: rest → s.status ≠ .running →
      ∃ m : Memory, step s = .next { s with buf := m, hostMoves := rest } ∧ m.wf ∧ m.len = bytes.length ∧
        ∀ k b, bytes[k]? = some b → m.byte k = b

/-- The 32-bit word read at an address, the low half and the high half of it are the little-endian values of their four, two and two bytes. (R65) -/
def Obligations.TableReadsAreLittleEndian : Prop :=
  ∀ (m : Memory) (a : Nat),
    (BitVec.ofNat 16 (m.littleEndian a 4)).toNat = (m.byte a).toNat + 256 * (m.byte (a + 1)).toNat ∧
      (BitVec.ofNat 16 (m.littleEndian a 4 >>> 16)).toNat =
        (m.byte (a + 2)).toNat + 256 * (m.byte (a + 3)).toNat ∧
      (BitVec.ofNat 32 (m.littleEndian a 4)).toNat =
        (m.byte a).toNat + 256 * (m.byte (a + 1)).toNat + 65536 * (m.byte (a + 2)).toNat +
          16777216 * (m.byte (a + 3)).toNat

/-- The command byte is 4 times the count. For every count: where the count is 0 or all index bytes lie in the buffer, LDRAW answers the state after that many Palette pixels of those bytes, the cursor past them; where they do not, it answers the state after the pixels inside the buffer and TruncatedInput at the first address outside. (R150) -/
def Obligations.LdrawDrawsItsIndices : Prop :=
  ∀ (count : BitVec 6) (s : State),
    (encode (.ldraw count)).toNat = 4 * count.toNat ∧
    (count.toNat = 0 ∨ s.cursor + 1 + count.toNat ≤ s.buf.len →
      exec (.ldraw count) s = .next (s.afterIndices .palette (s.cursor + 1) count.toNat)) ∧
    (count.toNat ≠ 0 → s.buf.len < s.cursor + 1 + count.toNat →
      exec (.ldraw count) s = .next (s.cutShort .palette (s.cursor + 1)))

/-- The command byte is 4 times the in-command value plus 1. Short form: that value of Transparent pixels, one byte consumed. Long form: as many as the next byte says, two bytes consumed; TruncatedInput at that byte where it lies outside the buffer. (R151) -/
def Obligations.LskipEmitsTransparent : Prop :=
  ∀ (value : BitVec 6) (s : State),
    (encode (.lskip value)).toNat = 4 * value.toNat + 1 ∧
    (value ≠ 0#6 →
      exec (.lskip value) s = .next (s.afterSame .transparent value.toNat (s.cursor + 1))) ∧
    (value = 0#6 → s.cursor + 1 < s.buf.len →
      exec (.lskip value) s =
        .next (s.afterSame .transparent (s.buf.byte (s.cursor + 1)).toNat (s.cursor + 2))) ∧
    (value = 0#6 → s.buf.len ≤ s.cursor + 1 →
      exec (.lskip value) s = .next (s.missingByte (s.cursor + 1)))

/-- The command byte is the high nibble with 0x2. With its count byte in the buffer, BDRAW's count is the high nibble times 256 plus that byte, also where that byte is 0; it emits that many Palette pixels of the index bytes, or is cut short at the buffer's end; a count byte outside the buffer is TruncatedInput there. (R152) -/
def Obligations.BdrawDrawsItsIndices : Prop :=
  ∀ (high : BitVec 4) (s : State),
    let n := 256 * high.toNat + (s.buf.byte (s.cursor + 1)).toNat
    (encode (.bdraw high)).toNat = 16 * high.toNat + 2 ∧
    (s.cursor + 1 < s.buf.len → n = 0 ∨ s.cursor + 2 + n ≤ s.buf.len →
      exec (.bdraw high) s = .next (s.afterIndices .palette (s.cursor + 2) n)) ∧
    (s.cursor + 1 < s.buf.len → n ≠ 0 → s.buf.len < s.cursor + 2 + n →
      exec (.bdraw high) s = .next (s.cutShort .palette (s.cursor + 2))) ∧
    (s.buf.len ≤ s.cursor + 1 → exec (.bdraw high) s = .next (s.missingByte (s.cursor + 1)))

/-- The command byte is the high nibble with 0x3. With its count byte in the buffer, BSKIP emits the high nibble times 256 plus that byte of Transparent pixels and consumes exactly 2 bytes; a count byte outside the buffer is TruncatedInput there. (R153) -/
def Obligations.BskipEmitsTransparent : Prop :=
  ∀ (high : BitVec 4) (s : State),
    (encode (.bskip high)).toNat = 16 * high.toNat + 3 ∧
    (s.cursor + 1 < s.buf.len →
      exec (.bskip high) s =
        .next (s.afterSame .transparent (256 * high.toNat + (s.buf.byte (s.cursor + 1)).toNat) (s.cursor + 2))) ∧
    (s.buf.len ≤ s.cursor + 1 → exec (.bskip high) s = .next (s.missingByte (s.cursor + 1)))

/-- The command byte is the in-command value with 0x6. Short and long form: the count, then that many Player pixels whose index is the raw byte; a run that leaves the buffer is cut short there; a long-form count byte outside the buffer is TruncatedInput there. (R154) -/
def Obligations.PlayerDrawsItsIndices : Prop :=
  ∀ (value : BitVec 4) (s : State),
    let n := (s.buf.byte (s.cursor + 1)).toNat
    (encode (.player value)).toNat = 16 * value.toNat + 6 ∧
    (value ≠ 0#4 → s.cursor + 1 + value.toNat ≤ s.buf.len →
      exec (.player value) s = .next (s.afterIndices .player (s.cursor + 1) value.toNat)) ∧
    (value ≠ 0#4 → s.buf.len < s.cursor + 1 + value.toNat →
      exec (.player value) s = .next (s.cutShort .player (s.cursor + 1))) ∧
    (value = 0#4 → s.cursor + 1 < s.buf.len → n = 0 ∨ s.cursor + 2 + n ≤ s.buf.len →
      exec (.player value) s = .next (s.afterIndices .player (s.cursor + 2) n)) ∧
    (value = 0#4 → s.cursor + 1 < s.buf.len → n ≠ 0 → s.buf.len < s.cursor + 2 + n →
      exec (.player value) s = .next (s.cutShort .player (s.cursor + 2))) ∧
    (value = 0#4 → s.buf.len ≤ s.cursor + 1 →
      exec (.player value) s = .next (s.missingByte (s.cursor + 1)))

/-- The command bytes are the in-command value with 0x7 and 0xA. Short and long form of both: one index byte, always read, after the count byte where there is one, then the count of Palette (FILL) or Player (PFILL) pixels of it; TruncatedInput at the first of these bytes outside the buffer, with no pixel emitted. (R155, R156) -/
def Obligations.FillsRepeatTheirSharedIndex : Prop :=
  ∀ (value : BitVec 4) (s : State),
    let fills : (Byte → Pixel) → Instr → Prop := fun mk i =>
      (value ≠ 0#4 → s.cursor + 1 < s.buf.len →
        exec i s =
          .next (s.afterSame (mk (s.buf.byte (s.cursor + 1))) value.toNat (s.cursor + 2))) ∧
      (value ≠ 0#4 → s.buf.len ≤ s.cursor + 1 → exec i s = .next (s.missingByte (s.cursor + 1))) ∧
      (value = 0#4 → s.cursor + 2 < s.buf.len →
        exec i s =
          .next (s.afterSame (mk (s.buf.byte (s.cursor + 2))) (s.buf.byte (s.cursor + 1)).toNat (s.cursor + 3))) ∧
      (value = 0#4 → s.cursor + 1 < s.buf.len → s.buf.len ≤ s.cursor + 2 →
        exec i s = .next (s.missingByte (s.cursor + 2))) ∧
      (value = 0#4 → s.buf.len ≤ s.cursor + 1 → exec i s = .next (s.missingByte (s.cursor + 1)))
    (encode (.fill value)).toNat = 16 * value.toNat + 7 ∧ (encode (.pfill value)).toNat = 16 * value.toNat + 10 ∧
      fills .palette (.fill value) ∧ fills .player (.pfill value)

/-- The command byte is the in-command value with 0xB. Short form: that value of Shadow pixels, one byte consumed. Long form: as many as the next byte says, two bytes consumed; TruncatedInput at that byte where it lies outside the buffer. (R157) -/
def Obligations.SfillEmitsShadow : Prop :=
  ∀ (value : BitVec 4) (s : State),
    (encode (.sfill value)).toNat = 16 * value.toNat + 11 ∧
    (value ≠ 0#4 →
      exec (.sfill value) s = .next (s.afterSame .shadow value.toNat (s.cursor + 1))) ∧
    (value = 0#4 → s.cursor + 1 < s.buf.len →
      exec (.sfill value) s =
        .next (s.afterSame .shadow (s.buf.byte (s.cursor + 1)).toNat (s.cursor + 2))) ∧
    (value = 0#4 → s.buf.len ≤ s.cursor + 1 →
      exec (.sfill value) s = .next (s.missingByte (s.cursor + 1)))

/-- XFLIP0, XFLIP1, XPAL0, XPAL1, XDA8, XDA9 and XDAA, the bytes 0x0E, 0x1E, 0x2E, 0x3E, 0x8E, 0x9E and 0xAE, answer, in every state, that state with the cursor one further. (R159, R160, R161, R162, R167, R168, R169) -/
def Obligations.RecognisedExtendedBytesOnlyAdvance : Prop :=
  ∀ s : State,
    ∀ x ∈ [(0x0E#8, Instr.xflip0), (0x1E#8, .xflip1), (0x2E#8, .xpal0), (0x3E#8, .xpal1), (0x8E#8, .xda8),
        (0x9E#8, .xda9), (0xAE#8, .xdaa)],
      encode x.2 = x.1 ∧ exec x.2 s = .next { s with cursor := s.cursor + 1 }

/-- SP1, the byte 0x4E, answers the state after one Special1 pixel, SP2, the byte 0x6E, after one Special2 pixel, the cursor one further. (R163, R165) -/
def Obligations.SpecialCommandsEmitOnePixel : Prop :=
  ∀ s : State,
    encode .sp1 = 0x4E#8 ∧ encode .sp2 = 0x6E#8 ∧ exec .sp1 s = .next (s.afterSame .special1 1 (s.cursor + 1)) ∧
      exec .sp2 s = .next (s.afterSame .special2 1 (s.cursor + 1))

/-- The bytes are 0x5E and 0x7E. With the count byte in the buffer, 0 included and no PEC, SP1N emits that many Special1 pixels and SP2N that many Special2 pixels, two bytes consumed; TruncatedInput at that byte where it lies outside the buffer. (R164, R166) -/
def Obligations.SpecialRunsEmitTheirCount : Prop :=
  ∀ s : State,
    let n := (s.buf.byte (s.cursor + 1)).toNat
    encode .sp1n = 0x5E#8 ∧ encode .sp2n = 0x7E#8 ∧
    (s.cursor + 1 < s.buf.len →
      exec .sp1n s = .next (s.afterSame .special1 n (s.cursor + 2)) ∧
        exec .sp2n s = .next (s.afterSame .special2 n (s.cursor + 2))) ∧
    (s.buf.len ≤ s.cursor + 1 →
      exec .sp1n s = .next (s.missingByte (s.cursor + 1)) ∧
        exec .sp2n s = .next (s.missingByte (s.cursor + 1)))

/-- RSVD_BE, RSVD_CE, RSVD_DE, RSVD_EE and RSVD_FE, the bytes 0xBE to 0xFE, answer, in every state, the state of the error entry UnknownExtendedCommand at CURSOR, the cursor not moved and no operand read. (R170) -/
def Obligations.ReservedBytesRaiseUnknownExtendedCommand : Prop :=
  ∀ s : State,
    ∀ x ∈ [(0xBE#8, Instr.rsvdBE), (0xCE#8, .rsvdCE), (0xDE#8, .rsvdDE), (0xEE#8, .rsvdEE), (0xFE#8, .rsvdFE)],
      encode x.2 = x.1 ∧ exec x.2 s = .next (raise .unknownExtendedCommand s.cursor s) ∧
      (raise .unknownExtendedCommand s.cursor s).cursor = s.cursor

/-- The command byte is the high nibble with 0xF. For every high nibble: with EMITTED equal to EXPECTED the row's commands are over, PHASE is ROW_END and nothing else changes, the cursor on the EOR byte; with any other count RowOverrun is entered at CURSOR. (R147, R171) -/
def Obligations.EorEndsAnExactRowAndRejectsAnyOther : Prop :=
  ∀ (high : BitVec 4) (s : State),
    (encode (.eor high)).toNat = 16 * high.toNat + 15 ∧
    ((s.emitted : Int) = s.expected → exec (.eor high) s = .next { s with phase := .rowEnd }) ∧
    ((s.emitted : Int) ≠ s.expected → exec (.eor high) s = .next (raise .rowOverrun s.cursor s))

/-- Emitting a list of pixels adds its length to EMITTED; the k-th pixel's word stands in GRID[ROW][LEFT + EMITTED + k] where EMITTED + k is below EXPECTED; every other grid element and every other field is as before. (41_row_commands.md section 1, 10_state.md section 6) -/
def Obligations.EmittedPixelsLandInTheRow : Prop :=
  ∀ (ps : List Pixel) (s : State),
    let t := emitAll ps s
    let left := (s.boundAt s.row).left.toNat
    t.emitted = s.emitted + ps.length ∧ t.cursor = s.cursor ∧ t.phase = s.phase ∧ s.KeepsOperation t ∧
      s.KeepsStatus t ∧ s.KeepsTables t ∧
      (∀ k p, ps[k]? = some p → ((s.emitted + k : Nat) : Int) < s.expected →
        t.pixel? s.row (left + s.emitted + k) = some p.word) ∧
      s.KeepsGridOutsideRun t

/-- After padding n columns of row ROW from column c on, those columns hold the word 0x0200, every other grid element is as before, and every field but the grid is as before. (41_row_commands.md section 1, 10_state.md section 6) -/
def Obligations.PaddingWritesTransparentColumns : Prop :=
  ∀ (c n : Nat) (s : State),
    (∀ r k, (padFrom c n s).pixel? r k =
      if r = s.row ∧ c ≤ k ∧ k < c + n then some 0x0200#16 else s.pixel? r k) ∧
    padFrom c n s = { s with grid := (padFrom c n s).grid }

/-- For each of the 25 commands, from a RUNNING state: the descriptors, EXPECTED, IDX, ROW, the buffer, the capacity and the schedule are unchanged and the cursor does not move back. Either STATUS and the error registers, the two table stores and every grid element outside the run of row ROW from LEFT + EMITTED on are unchanged too, and PHASE but for an EOR; or the error registers are those of an error entry at the new state's cursor, PHASE unchanged. (41_row_commands.md section 1, 41_row_commands.md section 2, 41_row_commands.md section 3, 60_exceptions.md section 2, 20_memory.md section 1) -/
def Obligations.CommandsKeepTheirFrame : Prop :=
  ∀ (i : Instr) (s t : State), s.status = .running → exec i s = .next t →
    s.KeepsOperation t ∧ s.cursor ≤ t.cursor ∧ s.emitted ≤ t.emitted ∧
      ((s.KeepsStatus t ∧ s.KeepsTables t ∧ s.KeepsGridOutsideRun t ∧
          ((∀ high, i ≠ .eor high) → t.phase = s.phase)) ∨
        (∃ e, s.EnteredError t e t.cursor ∧ t.phase = s.phase))

/-- From a RUNNING state, a command other than EOR whose next state is still RUNNING has moved the cursor by the table's length and raised EMITTED by the table's pixel count; an EOR has moved neither; no command's count exceeds 4095 and no length is 0. (R101) -/
def Obligations.CommandsConsumeTheirLength : Prop :=
  (∀ (i : Instr) (s t : State), s.status = .running → exec i s = .next t → t.status = .running →
    let byte1 := s.buf.byte (s.cursor + 1)
    ((∀ high, i ≠ .eor high) → t.cursor = s.cursor + commandLength i byte1) ∧
      ((∃ high, i = .eor high) → t.cursor = s.cursor) ∧
      t.emitted = s.emitted + commandCount i byte1) ∧
    ∀ (i : Instr) (byte1 : Byte), commandCount i byte1 ≤ 4095 ∧ 1 ≤ commandLength i byte1

/-- For every command other than EOR and every state: where the pure function gives pixels and the next address, the command answers the state after emitting those pixels with the cursor there; where it gives an error, the command answers the entry of that error at that offset, after some pixels, the cursor at the offset. (41_row_commands.md section 2, 41_row_commands.md section 3, 30_encoding.md section 3) -/
def Obligations.CommandsFollowTheirPixelFunction : Prop :=
  ∀ (i : Instr) (s : State), (∀ high, i ≠ .eor high) →
    match commandPixels s.buf s.cursor i with
    | .ok (ps, next) => exec i s = .next (moveCursor next (emitAll ps s))
    | .error e => ∃ ps, exec i s = .next (raise e.code e.offset (moveCursor e.offset (emitAll ps s)))

/-- In a command pass that the count check lets through, with the bytes of a well-formed line other than an EOR in the buffer at the cursor, the next step emits exactly the line's pixels and moves the cursor past the line's bytes. (30_encoding.md section 7, 41_row_commands.md section 2, 41_row_commands.md section 3) -/
def Obligations.AssembledLineRunsAsWritten : Prop :=
  ∀ (l : AsmLine) (s : State), l.wellFormed = true → (∀ k, l ≠ .eor k) →
    s.status = .running → s.phase = .cmds → s.hostMoves = [] → (s.emitted : Int) ≤ s.expected →
    s.buf.HoldsAt s.cursor l.bytes →
      step s = .next (moveCursor (s.cursor + l.bytes.length) (emitAll l.pixels s))

/-- While RUNNING in the phase CMDS, on the block's turn, with the count check passed and the cursor inside the buffer, the step is exec of the command that the byte at the cursor decodes to; a scheduled turn of the block is first taken off the schedule. (42_frame_assembler.md section 2, 41_row_commands.md section 1) -/
def Obligations.StepRunsTheDecodedCommand : Prop :=
  ∀ (s : State) (i : Instr), s.status = .running → s.phase = .cmds → (s.emitted : Int) ≤ s.expected →
    s.cursor < s.buf.len → decode (s.buf.byte s.cursor) = .ok i →
      (s.hostMoves = [] → step s = exec i s) ∧
      ∀ rest, s.hostMoves = .blockTurn :: rest → step s = exec i { s with hostMoves := rest }

/-- Count check before the read of the byte, the read before the exact count of an EOR, then the reserved bytes, then the operand reads: a pass that has overrun raises RowOverrun at CURSOR even where the cursor is outside the buffer; else a cursor outside the buffer raises TruncatedInput there; else an EOR with a wrong count raises RowOverrun; else a reserved byte raises UnknownExtendedCommand; and any other error of a command is TruncatedInput at an operand address past the command byte, the first outside the buffer, with every byte before it inside. (R239) -/
def Obligations.ErrorsOfAPassComeInOrder : Prop :=
  ∀ s : State, s.status = .running → s.phase = .cmds → s.hostMoves = [] →
    (s.expected < (s.emitted : Int) → step s = .next (raise .rowOverrun s.cursor s)) ∧
    ((s.emitted : Int) ≤ s.expected → s.buf.len ≤ s.cursor →
      step s = .next (raise .truncatedInput s.cursor s)) ∧
    ((s.emitted : Int) ≤ s.expected → s.cursor < s.buf.len →
      ∀ i, decode (s.buf.byte s.cursor) = .ok i →
        ((∃ high, i = .eor high) → (s.emitted : Int) ≠ s.expected →
          step s = .next (raise .rowOverrun s.cursor s)) ∧
        (i.wellFormed = false → step s = .next (raise .unknownExtendedCommand s.cursor s)) ∧
        (plainCommand i = true → ∀ t, step s = .next t → t.status = .error →
          t.errCode = .truncatedInput ∧ s.cursor < t.errOffset ∧
            t.errOffset = max (s.cursor + 1) s.buf.len))

/-- With the raw 32 bits of WIDTH and HEIGHT read as two's complement (from 2^31 on the raw value less 2^32; the spec marks this reading as general knowledge, log 16): a negative width or height, or a product above the capacity, enters InvalidDimensions with stage CHECK, row 0 and offset 0; else a height of 0 completes the frame; else IDX is 0 and PHASE is BOUNDS. (42_frame_assembler.md section 2, 10_state.md section 2) -/
def Obligations.CheckStepTestsTheDimensions : Prop :=
  ∀ s : State, s.status = .running → s.phase = .check → s.hostMoves = [] →
    let signed : BitVec 32 → Int := fun raw =>
      if raw.toNat < 2147483648 then (raw.toNat : Int) else (raw.toNat : Int) - 4294967296
    let w := signed s.desc.width
    let h := signed s.desc.height
    let bad : Prop := w < 0 ∨ h < 0 ∨ ∃ cap : Nat, s.gridCap = some cap ∧ (cap : Int) < w * h
    s.desc.widthInt = w ∧ s.desc.heightInt = h ∧
    (bad → step s = .next (raise .invalidDimensions 0 s) ∧
      (raise .invalidDimensions 0 s).errStage = .check ∧ (raise .invalidDimensions 0 s).errRow = 0#32) ∧
    (¬ bad → h = 0 → step s = .next { s with status := .done }) ∧
    (¬ bad → h ≠ 0 → step s = .next { s with idx := 0, phase := .bounds })

/-- With 0x8000 in either raw field the entry is LEFT 0, RIGHT 0, FULL 1 whatever the other field holds; with it in neither, the entry holds both fields unchanged and FULL 0. (R122, R123) -/
def Obligations.ClassifyTellsSentinelFromLiteral : Prop :=
  ∀ left right : BitVec 16,
    (left = 0x8000#16 ∨ right = 0x8000#16 → classify left right = ⟨0#16, 0#16, true⟩) ∧
    (left ≠ 0x8000#16 → right ≠ 0x8000#16 → classify left right = ⟨left, right, false⟩)

/-- With the 4 bytes at the table offset plus 4 * IDX in the buffer, BOUNDS_OUT[IDX] becomes their classified record and IDX advances, back to 0 with PHASE CMDTAB after the last entry; else TruncatedInput is entered at that address with stage BOUNDS and row IDX. (R121, R209) -/
def Obligations.BoundsStepReadsOneEntry : Prop :=
  ∀ s : State, s.status = .running → s.phase = .bounds → s.hostMoves = [] →
    let a := s.desc.boundsTableOffset.toNat + 4 * s.idx
    let w := s.buf.littleEndian a 4
    let s' := writeBound s.idx (classify (BitVec.ofNat 16 w) (BitVec.ofNat 16 (w >>> 16))) s
    (a + 4 ≤ s.buf.len → ((s.idx + 1 : Nat) : Int) = s.desc.heightInt →
      step s = .next { s' with idx := 0, phase := .cmdtab }) ∧
    (a + 4 ≤ s.buf.len → ((s.idx + 1 : Nat) : Int) ≠ s.desc.heightInt →
      step s = .next { s' with idx := s.idx + 1 }) ∧
    (s.buf.len < a + 4 → step s = .next (raise .truncatedInput a s) ∧
      (raise .truncatedInput a s).errStage = .bounds ∧
      (raise .truncatedInput a s).errRow = BitVec.ofNat 32 s.idx)

/-- With the 4 bytes at the table offset plus 4 * IDX in the buffer, CMDOFF_OUT[IDX] becomes their little-endian value as read and IDX advances, with ROW 0 and PHASE ROW_START after the last entry; else TruncatedInput is entered at that address with stage CMDTAB and row IDX. (R127, R210) -/
def Obligations.CmdtabStepReadsOneEntry : Prop :=
  ∀ s : State, s.status = .running → s.phase = .cmdtab → s.hostMoves = [] →
    let a := s.desc.cmdTableOffset.toNat + 4 * s.idx
    let s' := writeOffset s.idx (BitVec.ofNat 32 (s.buf.littleEndian a 4)) s
    (a + 4 ≤ s.buf.len → ((s.idx + 1 : Nat) : Int) = s.desc.heightInt →
      step s = .next { s' with idx := s.idx + 1, row := 0, phase := .rowStart }) ∧
    (a + 4 ≤ s.buf.len → ((s.idx + 1 : Nat) : Int) ≠ s.desc.heightInt →
      step s = .next { s' with idx := s.idx + 1 }) ∧
    (s.buf.len < a + 4 → step s = .next (raise .truncatedInput a s) ∧
      (raise .truncatedInput a s).errStage = .cmdtab ∧
      (raise .truncatedInput a s).errRow = BitVec.ofNat 32 s.idx)

/-- From the start of the phase BOUNDS of a frame with rows, on the block's own turns, HEIGHT steps lead to the phase CMDTAB with BOUNDS_OUT equal to the table the pure lookup gives, one entry per row; or, where the lookup fails, to ERROR with exactly its error. (40_table_lookups.md section 1) -/
def Obligations.BoundsPhaseIsTheWholeTableLookup : Prop :=
  ∀ s : State, s.status = .running → s.phase = .bounds → s.hostMoves = [] → s.idx = 0 → 0 < s.desc.heightInt →
    ∃ t, Host.Core.run Sys2Proof.core s.desc.heightInt.toNat s = .next t ∧
      match tableEntries boundOfWord s.buf s.desc.boundsTableOffset .bounds 0 s.desc.heightInt.toNat with
      | .ok bs =>
        t.status = .running ∧ t.phase = .cmdtab ∧ t.idx = 0 ∧ bs.length = s.desc.heightInt.toNat ∧
          ∀ r b, bs[r]? = some b → t.boundAt r = b
      | .error e => t.status = .error ∧ t.HoldsError e

/-- From the start of the phase CMDTAB of a frame with rows, on the block's own turns, HEIGHT steps lead to the phase ROW_START at row 0 with CMDOFF_OUT equal to the table the pure lookup gives, one entry per row; or, where the lookup fails, to ERROR with exactly its error. (40_table_lookups.md section 2) -/
def Obligations.CmdtabPhaseIsTheWholeTableLookup : Prop :=
  ∀ s : State, s.status = .running → s.phase = .cmdtab → s.hostMoves = [] → s.idx = 0 → 0 < s.desc.heightInt →
    ∃ t, Host.Core.run Sys2Proof.core s.desc.heightInt.toNat s = .next t ∧
      match tableEntries (BitVec.ofNat 32) s.buf s.desc.cmdTableOffset .cmdtab 0 s.desc.heightInt.toNat with
      | .ok vs =>
        t.status = .running ∧ t.phase = .rowStart ∧ t.row = 0 ∧ vs.length = s.desc.heightInt.toNat ∧
          ∀ r v, vs[r]? = some v → t.offsetAt r = v
      | .error e => t.status = .error ∧ t.HoldsError e

/-- At ROW_START with FULL 1, whatever the row's offset and however short the buffer: EXPECTED and EMITTED are 0, CURSOR is the row's offset, the row's WIDTH columns hold Transparent, every other grid element is as before, and the next row or DONE follows; no error is entered. (R141) -/
def Obligations.TransparentRowReadsNoByte : Prop :=
  ∀ s : State, s.status = .running → s.phase = .rowStart → s.hostMoves = [] →
    (s.boundAt s.row).full = true →
    ∃ t, step s = .next t ∧ t.expected = 0 ∧ t.emitted = 0 ∧ t.cursor = (s.offsetAt s.row).toNat ∧
      (∀ r c, t.pixel? r c =
        if r = s.row ∧ c < s.desc.widthInt.toNat then some Pixel.transparent.word else s.pixel? r c) ∧
      t.row = s.row + 1 ∧ t.idx = s.idx ∧ s.KeepsErrors t ∧ s.KeepsTables t ∧ s.KeepsInputs t ∧
      (((s.row + 1 : Nat) : Int) = s.desc.heightInt → t.status = .done ∧ t.phase = s.phase) ∧
      (((s.row + 1 : Nat) : Int) ≠ s.desc.heightInt → t.status = .running ∧ t.phase = .rowStart)

/-- At ROW_START with FULL 0: EXPECTED is WIDTH - LEFT - RIGHT over the integers, EMITTED is 0, CURSOR is the row's offset. Where EXPECTED is negative, RowOverrun is entered at that offset with those registers; else the first LEFT columns hold Transparent, every other grid element is as before and PHASE is CMDS. (R144) -/
def Obligations.RowEntrySetsTheRowUp : Prop :=
  ∀ s : State, s.status = .running → s.phase = .rowStart → s.hostMoves = [] →
    (s.boundAt s.row).full = false →
    let left := (s.boundAt s.row).left.toNat
    let expected := s.desc.widthInt - left - (s.boundAt s.row).right.toNat
    let start := (s.offsetAt s.row).toNat
    ∃ t, step s = .next t ∧ t.expected = expected ∧ t.emitted = 0 ∧ t.cursor = start ∧ t.row = s.row ∧
      t.idx = s.idx ∧ s.KeepsInputs t ∧
      (expected < 0 → s.EnteredError t .rowOverrun start ∧ t.phase = .rowStart) ∧
      (0 ≤ expected → s.KeepsStatus t ∧ s.KeepsTables t ∧ t.phase = .cmds ∧
        ∀ r c, t.pixel? r c =
          if r = s.row ∧ c < left then some Pixel.transparent.word else s.pixel? r c)

/-- With EXPECTED not negative, the RIGHT columns from LEFT + EXPECTED on hold Transparent, every other grid element is as before, ROW advances, and STATUS is DONE after the last row, PHASE ROW_START else; CURSOR, EMITTED, EXPECTED and IDX keep their values. (R213) -/
def Obligations.RowEndPadsTheRightAndGoesOn : Prop :=
  ∀ s : State, s.status = .running → s.phase = .rowEnd → s.hostMoves = [] → 0 ≤ s.expected →
    let first := (s.boundAt s.row).left.toNat + s.expected.toNat
    ∃ t, step s = .next t ∧
      (∀ r c, t.pixel? r c =
        if r = s.row ∧ first ≤ c ∧ c < first + (s.boundAt s.row).right.toNat then
          some Pixel.transparent.word
        else s.pixel? r c) ∧
      t.row = s.row + 1 ∧ t.cursor = s.cursor ∧ t.emitted = s.emitted ∧ t.expected = s.expected ∧
      t.idx = s.idx ∧ s.KeepsErrors t ∧ s.KeepsTables t ∧ s.KeepsInputs t ∧
      (((s.row + 1 : Nat) : Int) = s.desc.heightInt → t.status = .done ∧ t.phase = s.phase) ∧
      (((s.row + 1 : Nat) : Int) ≠ s.desc.heightInt → t.status = .running ∧ t.phase = .rowStart)

/-- The ROW_START step gives the same state whatever EMITTED, EXPECTED and CURSOR held before it. (42_frame_assembler.md section 1) -/
def Obligations.RowStartForgetsTheRowBefore : Prop :=
  ∀ (s : State) (emitted : Nat) (expected : Int) (cursor : Nat),
    stepRowStart { s with emitted := emitted, expected := expected, cursor := cursor } = stepRowStart s

/-- For every error, offset and state: the code, the phase group, the row index of that phase group, the offset and the frame index are recorded and STATUS is ERROR; CURSOR, EMITTED, EXPECTED, IDX, ROW, PHASE, the descriptors and the buffer keep their values; and every element of the three stores reads as a free value of a new draw, which is the model's form of 'unspecified' (log 2). (60_exceptions.md section 2) -/
def Obligations.ErrorEntryRecordsTheError : Prop :=
  ∀ (e : ErrCode) (a : Nat) (s : State),
    let t := raise e a s
    s.EnteredError t e a ∧
      (s.phase = .check → t.errStage = .check ∧ t.errRow = 0#32) ∧
      (s.phase = .bounds → t.errStage = .bounds ∧ t.errRow = BitVec.ofNat 32 s.idx) ∧
      (s.phase = .cmdtab → t.errStage = .cmdtab ∧ t.errRow = BitVec.ofNat 32 s.idx) ∧
      (s.phase = .rowStart ∨ s.phase = .cmds → t.errStage = .row ∧ t.errRow = BitVec.ofNat 32 s.row) ∧
      t.cursor = s.cursor ∧ t.emitted = s.emitted ∧ t.phase = s.phase ∧ s.KeepsOperation t ∧
      (∀ r, t.boundAt r =
        ⟨Config.freeLeft (.contents t.draws) r, Config.freeRight (.contents t.draws) r,
          Config.freeFull (.contents t.draws) r⟩) ∧
      (∀ r, t.offsetAt r = Config.freeOffset (.contents t.draws) r) ∧
      ∀ r c, t.pixelAt r c = Config.freePixelWord (.contents t.draws) r c

/-- On the block's turn in IDLE, DONE or ERROR, its own or a scheduled one, every register, store and buffer byte keeps its value, and a scheduled turn is taken off the schedule. That such a turn is a next state equal to the state is the model's choice (log 8), and so is the schedule (log 6). (60_exceptions.md section 4, 42_frame_assembler.md section 2, 70_reset_and_hazards.md section 1) -/
def Obligations.StoppedBlockKeepsItsState : Prop :=
  ∀ s : State, s.status ≠ .running → s.BlockTurn → step s = .next { s with hostMoves := s.hostMoves.tail }

/-- From ERROR, any step that is not the host's START or reset leaves STATUS at ERROR and every error register as it was; START and reset leave ERROR and clear them. (R240) -/
def Obligations.ErrorPersistsUntilStartOrReset : Prop :=
  ∀ s t : State, s.status = .error → step s = .next t →
    ((∀ rest, s.hostMoves ≠ .act .start :: rest ∧ s.hostMoves ≠ .act .reset :: rest) → s.KeepsStatus t) ∧
    (∀ rest, s.hostMoves = .act .start :: rest ∨ s.hostMoves = .act .reset :: rest →
      t.status ≠ .error ∧ t.errCode = .noError ∧ t.errStage = .check ∧ t.errRow = 0#32 ∧ t.errOffset = 0 ∧
        t.errFrame = 0#32)

/-- The reset state, and the state after the host's reset in any state and phase, has STATUS IDLE, the error registers 0, CURSOR, EMITTED, EXPECTED, IDX and ROW 0 and PHASE CHECK; a reset leaves the buffer and the capacity as they are and records no error. The values of the descriptor after reset are the model's choice (log 1) and not stated. (10_state.md section 8, 70_reset_and_hazards.md section 1) -/
def Obligations.ResetGivesTheSpecifiedValues : Prop :=
  let atReset : State → Prop := fun s =>
    s.status = .idle ∧ s.errCode = .noError ∧ s.errStage = .check ∧ s.errRow = 0#32 ∧ s.errOffset = 0 ∧
      s.errFrame = 0#32 ∧ s.cursor = 0 ∧ s.emitted = 0 ∧ s.expected = 0 ∧ s.idx = 0 ∧ s.row = 0 ∧
      s.phase = .check
  atReset State.reset ∧
    ∀ (s : State) (rest : List HostMove), s.hostMoves = .act .reset :: rest →
      ∃ t, step s = .next t ∧ atReset t ∧ t.buf = s.buf ∧ t.gridCap = s.gridCap ∧ t.hostMoves = rest

/-- In IDLE, DONE and ERROR a START copies the pending descriptor to DESC, clears the error and interpreter registers, sets PHASE to CHECK and STATUS to RUNNING, and leaves the pending copy, the buffer and the capacity as they are; in RUNNING it changes nothing but the schedule. (R263) -/
def Obligations.StartLatchesTheDescriptor : Prop :=
  ∀ (s : State) (rest : List HostMove), s.hostMoves = .act .start :: rest →
    (s.status = .running → step s = .next { s with hostMoves := rest }) ∧
    (s.status ≠ .running → ∃ t, step s = .next t ∧ t.desc = s.pending ∧ t.pending = s.pending ∧
      t.errCode = .noError ∧ t.errStage = .check ∧ t.errRow = 0#32 ∧ t.errOffset = 0 ∧ t.errFrame = 0#32 ∧
      t.cursor = 0 ∧ t.emitted = 0 ∧ t.expected = 0 ∧ t.idx = 0 ∧ t.row = 0 ∧ t.phase = .check ∧
      t.status = .running ∧ t.buf = s.buf ∧ t.gridCap = s.gridCap ∧ t.hostMoves = rest)

/-- Whatever the block or the host does, a step that is neither an accepted START nor a reset leaves DESC as it was; in particular a write of the pending copy does, in every STATUS, and a START in RUNNING does. (10_state.md section 2, 70_reset_and_hazards.md section 2) -/
def Obligations.DescChangesOnlyByStartOrReset : Prop :=
  ∀ s t : State, step s = .next t →
    (∀ rest, s.hostMoves = .act .start :: rest → s.status = .running) →
    (∀ rest, s.hostMoves ≠ .act .reset :: rest) →
      t.desc = s.desc

/-- The host's binding of bytes that differ from the bound buffer while STATUS is RUNNING is refused as bufferChangedWhileRunning, and a step that is refused is such a binding and is refused for that reason. That the binding of a buffer equal to the bound one goes on, with nothing but the schedule changed, is the model's choice (log 10). (70_reset_and_hazards.md section 2, 93_implementation_defined.md section 3) -/
def Obligations.BufferChangeWhileRunningIsRefused : Prop :=
  (∀ (s : State) (bytes : List Byte) (rest : List HostMove), s.hostMoves = .act (.bindBuffer bytes) :: rest →
    s.status = .running →
      (Memory.ofBytes bytes ≠ s.buf → step s = .refused .bufferChangedWhileRunning) ∧
      (Memory.ofBytes bytes = s.buf → step s = .next { s with hostMoves := rest })) ∧
  ∀ (s : State) (why : Refusal), step s = .refused why →
    why = .bufferChangedWhileRunning ∧
      ∃ bytes rest, s.hostMoves = .act (.bindBuffer bytes) :: rest ∧ s.status = .running ∧
        Memory.ofBytes bytes ≠ s.buf

/-- While RUNNING, in any phase, the block's turn, its own or a scheduled one, gives a next state, never a fault or a refusal. It does so in IDLE, DONE and ERROR too, where the block takes no step: that its turn there is a next state is the model's choice (log 8). (70_reset_and_hazards.md section 3) -/
def Obligations.TheBlockAlwaysHasANextStep : Prop :=
  ∀ s : State, s.BlockTurn → ∃ t, step s = .next t

/-- On the block's turn, its own or a scheduled one, in every status and phase, every byte of the buffer and its length, the pending copy, DESC and the capacity are as before. (20_memory.md section 1) -/
def Obligations.TheBlockNeverWritesTheBuffer : Prop :=
  ∀ s t : State, s.BlockTurn → step s = .next t →
    t.buf = s.buf ∧ t.pending = s.pending ∧ t.desc = s.desc ∧ t.gridCap = s.gridCap

/-- At DONE the host's reads give the stores' elements; in every other status they give free values that depend on nothing but the number of the read and the index. STATUS reads as 0 in IDLE, 1 in RUNNING, 2 in DONE, 3 in ERROR; ERR_CODE as 0 for none to 5 in the order of the taxonomy; ERR_STAGE as 0 to 3 for CHECK, BOUNDS, CMDTAB, ROW; ERR_ROW, ERR_OFFSET and ERR_FRAME as they are held. The free values are the model's form of 'unspecified' (log 3). (20_memory.md section 5, 70_reset_and_hazards.md section 2, 10_state.md section 4, 60_exceptions.md section 1) -/
def Obligations.StoresAreDefinedForTheHostAtDoneOnly : Prop :=
  ∀ (nth : Nat) (s : State) (r c : Nat),
    (s.status = .done → hostReadBound nth s r = s.boundAt r ∧ hostReadOffset nth s r = s.offsetAt r ∧
      hostReadPixel nth s r c = s.pixelAt r c) ∧
    (s.status ≠ .done →
      hostReadBound nth s r =
          ⟨Config.freeLeft (.hostRead nth) r, Config.freeRight (.hostRead nth) r,
            Config.freeFull (.hostRead nth) r⟩ ∧
        hostReadOffset nth s r = Config.freeOffset (.hostRead nth) r ∧
        hostReadPixel nth s r c = Config.freePixelWord (.hostRead nth) r c) ∧
    ((s.status = .idle → hostReadStatus s = 0#2) ∧ (s.status = .running → hostReadStatus s = 1#2) ∧
      (s.status = .done → hostReadStatus s = 2#2) ∧ (s.status = .error → hostReadStatus s = 3#2)) ∧
    ((s.errCode = .noError → hostReadErrCode s = 0#3) ∧ (s.errCode = .truncatedInput → hostReadErrCode s = 1#3) ∧
      (s.errCode = .unknownCommand → hostReadErrCode s = 2#3) ∧
      (s.errCode = .unknownExtendedCommand → hostReadErrCode s = 3#3) ∧
      (s.errCode = .rowOverrun → hostReadErrCode s = 4#3) ∧
      (s.errCode = .invalidDimensions → hostReadErrCode s = 5#3)) ∧
    ((s.errStage = .check → hostReadErrStage s = 0#2) ∧ (s.errStage = .bounds → hostReadErrStage s = 1#2) ∧
      (s.errStage = .cmdtab → hostReadErrStage s = 2#2) ∧ (s.errStage = .row → hostReadErrStage s = 3#2)) ∧
    hostReadErrRow s = s.errRow ∧ hostReadErrOffset s = s.errOffset ∧ hostReadErrFrame s = s.errFrame

/-- The reset state is in canonical form, its counters are in range and no store element is written. That the stores hold nothing at reset is the model's form of 'unspecified' (log 2). (10_state.md section 8, 70_reset_and_hazards.md section 1) -/
def Obligations.ResetMeetsTheInvariant : Prop :=
  State.reset.Inv

/-- From every state that meets the invariant, a next state meets it: buffer and stores in canonical form; FULL 1 only with LEFT and RIGHT 0; EMITTED, EXPECTED, IDX and ROW in their ranges; while RUNNING exactly the table entries and grid columns written that the phase says, EXPECTED the row's WIDTH - LEFT - RIGHT; at DONE exactly the whole frame; nothing written in IDLE and ERROR. That the stores hold nothing after START, reset and error is the model's form of 'unspecified' (log 2). (10_state.md section 3, 10_state.md section 5, 42_frame_assembler.md section 2, 41_row_commands.md section 4) -/
def Obligations.StepKeepsTheInvariant : Prop :=
  ∀ s t : State, s.Inv → step s = .next t → t.Inv

/-- From every state whose buffer and stores are in canonical form, reachable or not, a next state's are too: addresses and indices strictly rising, no zero byte listed, none outside BUF. The form is the model's own: that BUF is a list of its nonzero bytes (log 4) and each store a list of its written elements (log 2). (20_memory.md section 1, 10_state.md section 5) -/
def Obligations.StepKeepsTheCanonicalForm : Prop :=
  ∀ s t : State, s.Canonical → step s = .next t → t.Canonical

/-- From a RUNNING state that meets the invariant, a turn of the block, its own or a scheduled one, that does not end in ERROR leaves every written grid element with its word; and at DONE exactly the elements of the HEIGHT by WIDTH grid are written. (42_frame_assembler.md section 1, 41_row_commands.md section 4) -/
def Obligations.PixelsAreWrittenOnce : Prop :=
  (∀ s t : State, s.Inv → s.status = .running → s.BlockTurn → step s = .next t → t.status ≠ .error →
    ∀ r c w, s.pixel? r c = some w → t.pixel? r c = some w) ∧
  ∀ s t : State, s.Inv → s.status = .running → s.BlockTurn → step s = .next t → t.status = .done →
    ∀ r c, (t.pixel? r c).isSome ↔ r < t.desc.heightInt.toNat ∧ c < t.desc.widthInt.toNat

/-- For every buffer, pending descriptor and capacity: START outside RUNNING and then 1 + 2 * HEIGHT + HEIGHT * (BUF_LEN + 3) turns of the block lead to DONE with the three stores equal to the frame that the pure frame function gives, or, where it fails, to ERROR with exactly its first error's code, stage, row, offset and frame. (R215) -/
def Obligations.StepMachineConformsToTheFrameFunction : Prop :=
  ∀ s : State, s.status ≠ .running → s.hostMoves = [] →
    ∃ t, Host.Core.run Sys2Proof.core (stepBound s.buf s.pending) (hostStart s) = .next t ∧
      t.desc = s.pending ∧
      match decodeFrame s.buf s.pending s.gridCap with
      | .ok f =>
        t.status = .done ∧ t.HoldsFrame f s.pending.heightInt.toNat s.pending.widthInt.toNat
      | .error e => t.status = .error ∧ t.HoldsError e

/-- For a row that is not fully transparent, lines that are well-formed and no EOR, an EOR after them, all their bytes in the buffer from the row's offset on, and exactly width - left - right pixels among them: the row decodes without error to left Transparent pixels, the lines' pixels in order and right Transparent pixels, and its final read position is the EOR byte. (70_reset_and_hazards.md section 3, 41_row_commands.md section 1, 41_row_commands.md section 4) -/
def Obligations.AssembledRowDecodesToItsPixels : Prop :=
  ∀ (m : Memory) (start : Nat) (width : Int) (bound : RowBound) (lines : List AsmLine) (k : Nat),
    bound.full = false → (∀ l ∈ lines, l.wellFormed = true ∧ ∀ j, l ≠ .eor j) → k ≤ 15 →
    m.HoldsAt start (assemble (lines ++ [.eor k])) →
    ((lines.flatMap AsmLine.pixels).length : Int) = width - bound.left.toNat - bound.right.toNat →
      decodeRow m start width bound =
        .ok (List.replicate bound.left.toNat .transparent ++ lines.flatMap AsmLine.pixels ++
          List.replicate bound.right.toNat .transparent, start + (assemble lines).length)

/-- Whenever a row of a width that is not negative decodes, it has exactly width pixels; a fully transparent row is Transparent throughout; any other begins with LEFT and ends with RIGHT Transparent pixels, and LEFT + RIGHT does not exceed the width. (41_row_commands.md section 4) -/
def Obligations.DecodedRowHasWidthPixels : Prop :=
  ∀ (m : Memory) (start : Nat) (width : Int) (bound : RowBound) (ps : List Pixel) (final : Nat),
    0 ≤ width → decodeRow m start width bound = .ok (ps, final) →
      (ps.length : Int) = width ∧
      (bound.full = true → ps = List.replicate width.toNat .transparent) ∧
      (bound.full = false →
        ∃ cs, ps = List.replicate bound.left.toNat .transparent ++ cs ++
            List.replicate bound.right.toNat .transparent ∧
          (bound.left.toNat : Int) + cs.length + bound.right.toNat = width)

/-- Changing those fields of DESC in any way changes nothing else of what the block does on its turn, its own or a scheduled one: the step of the changed state is the changed step of the state, in every status and phase. (R216) -/
def Obligations.UnreadFieldsNeverMatter : Prop :=
  ∀ (s : State) (d : Descriptor), s.BlockTurn →
    step (s.withUnreadFields d) = mapNext (fun t => t.withUnreadFields d) (step s)

/-- The host's write of a descriptor makes it the pending copy and changes nothing else but the schedule; outside RUNNING a START right after it makes it DESC; any other host action changes nothing but the schedule. That the write changes the pending copy also while RUNNING is the model's deduction (log 9), that any other action has no effect outside RUNNING is the model's choice (log 20), the schedule is the model's choice (log 6). (10_state.md section 2, 10_state.md section 8, 70_reset_and_hazards.md section 2) -/
def Obligations.HostWritesThePendingCopyAndNothingElse : Prop :=
  (∀ (s : State) (d : Descriptor) (rest : List HostMove), s.hostMoves = .act (.writePending d) :: rest →
    step s = .next { s with pending := d, hostMoves := rest }) ∧
  (∀ (s : State) (d : Descriptor) (rest : List HostMove), s.status ≠ .running →
    s.hostMoves = .act (.writePending d) :: .act .start :: rest →
      ∃ t, Host.Core.run Sys2Proof.core 2 s = .next t ∧ t.desc = d ∧ t.pending = d ∧ t.status = .running ∧
        t.hostMoves = rest) ∧
  ∀ (s : State) (rest : List HostMove), s.hostMoves = .act .other :: rest →
    step s = .next { s with hostMoves := rest }

/-- Where the schedule gives the block the next turn, the step is the step that the same state takes with an empty schedule, with the rest of the schedule left to take: the block never reads the schedule. What is stated of the block's turn with an empty schedule so holds of a scheduled one. The schedule is the model's choice (log 6). (42_frame_assembler.md section 2, 70_reset_and_hazards.md section 3) -/
def Obligations.ScheduledTurnIsTheBlocksTurn : Prop :=
  ∀ (s : State) (rest : List HostMove), s.hostMoves = .blockTurn :: rest →
    step s = mapNext (fun t => { t with hostMoves := rest }) (step { s with hostMoves := [] })

/-- For every index: Palette is the word with kind code 0x00 and the index, Shadow is 0x0100, Transparent 0x0200, Player has kind code 0x03 and the index, Special1 is 0x0400, Special2 0x0500, ShadowV4 0x0600, PlayerV4 has kind code 0x07 and the index; and for every pixel, word[15:8] is its kind code, word[7:0] its index, and the pixel is the one the word stands for. (10_state.md section 6) -/
def Obligations.PixelWordsHoldKindAndIndex : Prop :=
  (∀ idx : Byte,
    (Pixel.palette idx).word.toNat = idx.toNat ∧ Pixel.shadow.word = 0x0100#16 ∧
      Pixel.transparent.word = 0x0200#16 ∧ (Pixel.player idx).word.toNat = 0x0300 + idx.toNat ∧
      Pixel.special1.word = 0x0400#16 ∧ Pixel.special2.word = 0x0500#16 ∧ Pixel.shadowV4.word = 0x0600#16 ∧
      (Pixel.playerV4 idx).word.toNat = 0x0700 + idx.toNat) ∧
    ∀ p : Pixel, p.word.extractLsb' 8 8 = p.kind ∧ p.word.extractLsb' 0 8 = p.index ∧ p.kind.toNat ≤ 7 ∧
      Pixel.ofWord p.word = some p

/-- From every state, reachable or not, in whose grid each written word is the word of a pixel of one of those six kinds, the index of Shadow, Transparent, Special1 and Special2 being 0, a next state of block or host is such a state again; the reset state is one. (10_state.md section 6, 41_row_commands.md section 2, 41_row_commands.md section 3) -/
def Obligations.OnlyTheSixKindsAreWritten : Prop :=
  (∀ s t : State, s.HoldsSixKinds → step s = .next t → t.HoldsSixKinds) ∧ State.reset.HoldsSixKinds
end

