-- ==== Sys2Proof/Laws/Cells.lean ====
section
/-! SUPPORT. The laws of sparse arrays: read after write, and the canonical order kept by every operation. -/

namespace Sys2Proof.Machine

variable {α : Type}

@[simp] theorem Cells.get_nil (a : Nat) : Cells.get ([] : List (Nat × α)) a = none := rfl

theorem Cells.get_put (l : List (Nat × α)) (a b : Nat) (v : α) :
    Cells.get (Cells.put a v l) b = if b = a then some v else Cells.get l b := by
  induction l with
  | nil => simp [Cells.put, Cells.get]
  | cons x rest ih =>
    obtain ⟨k, w⟩ := x
    simp only [Cells.put]
    split
    · simp [Cells.get]
    · split
      · subst_vars
        simp only [Cells.get]
        split <;> rfl
      · simp only [Cells.get, ih]
        by_cases hb : b = k
        · subst hb
          have : b ≠ a := by omega
          simp [this]
        · simp [hb]

@[simp] theorem Cells.get_put_same (l : List (Nat × α)) (a : Nat) (v : α) :
    Cells.get (Cells.put a v l) a = some v := by simp [Cells.get_put]

theorem Cells.get_put_ne {l : List (Nat × α)} {a b : Nat} {v : α} (h : b ≠ a) :
    Cells.get (Cells.put a v l) b = Cells.get l b := by simp [Cells.get_put, h]

theorem Cells.mem_put {l : List (Nat × α)} {a : Nat} {v : α} {x : Nat × α}
    (h : x ∈ Cells.put a v l) : x = (a, v) ∨ x ∈ l := by
  induction l with
  | nil => simpa [Cells.put] using h
  | cons y rest ih =>
    obtain ⟨k, w⟩ := y
    simp only [Cells.put] at h
    split at h
    · simpa using h
    · split at h
      · simp only [List.mem_cons] at h ⊢
        tauto
      · simp only [List.mem_cons] at h ⊢
        rcases h with h | h
        · exact .inr (.inl h)
        · rcases ih h with h | h <;> tauto

theorem Cells.mem_erase {l : List (Nat × α)} {a : Nat} {x : Nat × α}
    (h : x ∈ Cells.erase a l) : x ∈ l := by
  induction l with
  | nil => simp [Cells.erase] at h
  | cons y rest ih =>
    obtain ⟨k, w⟩ := y
    simp only [Cells.erase] at h
    split at h
    · simp [h]
    · simp only [List.mem_cons] at h ⊢
      tauto

theorem Cells.rising_put {l : List (Nat × α)} (a : Nat) (v : α) (h : Cells.Rising l) :
    Cells.Rising (Cells.put a v l) := by
  induction l with
  | nil => simp [Cells.put]
  | cons y rest ih =>
    obtain ⟨k, w⟩ := y
    have hrest := List.pairwise_cons.mp h
    simp only [Cells.put]
    split
    · rename_i hak
      refine List.pairwise_cons.mpr ⟨fun x hx => ?_, h⟩
      rcases List.mem_cons.mp hx with rfl | hx
      · exact hak
      · exact lt_trans hak (hrest.1 x hx)
    · split
      · subst_vars
        exact List.pairwise_cons.mpr ⟨hrest.1, hrest.2⟩
      · refine List.pairwise_cons.mpr ⟨fun x hx => ?_, ih hrest.2⟩
        rcases Cells.mem_put hx with rfl | hx
        · show k < a
          omega
        · exact hrest.1 x hx

theorem Cells.rising_erase {l : List (Nat × α)} (a : Nat) (h : Cells.Rising l) :
    Cells.Rising (Cells.erase a l) := by
  induction l with
  | nil => simp [Cells.erase]
  | cons y rest ih =>
    obtain ⟨k, w⟩ := y
    have hrest := List.pairwise_cons.mp h
    simp only [Cells.erase]
    split
    · exact hrest.2
    · exact List.pairwise_cons.mpr ⟨fun x hx => hrest.1 x (Cells.mem_erase hx), ih hrest.2⟩

/-- In a rising list nothing is listed at or below an index that lies below all of it. -/
theorem Cells.get_eq_none_of_lt {l : List (Nat × α)} {a : Nat} (h : ∀ x ∈ l, a < x.1) :
    Cells.get l a = none := by
  induction l with
  | nil => rfl
  | cons y rest ih =>
    obtain ⟨k, w⟩ := y
    have hk : a < k := h (k, w) (by simp)
    simp only [Cells.get, if_neg (Nat.ne_of_lt hk)]
    exact ih fun x hx => h x (by simp [hx])

theorem Cells.get_erase {l : List (Nat × α)} (a b : Nat) (h : Cells.Rising l) :
    Cells.get (Cells.erase a l) b = if b = a then none else Cells.get l b := by
  induction l with
  | nil => simp [Cells.erase]
  | cons y rest ih =>
    obtain ⟨k, w⟩ := y
    have hrest := List.pairwise_cons.mp h
    simp only [Cells.erase]
    split
    · subst_vars
      simp only [Cells.get]
      split
      · subst_vars
        exact Cells.get_eq_none_of_lt hrest.1
      · rfl
    · simp only [Cells.get, ih hrest.2]
      by_cases hb : b = k
      · subst hb
        have : b ≠ a := by omega
        simp [this]
      · simp [hb]

theorem Cells.get_of_mem {l : List (Nat × α)} (h : Cells.Rising l) {x : Nat × α} (hx : x ∈ l) :
    Cells.get l x.1 = some x.2 := by
  induction l with
  | nil => simp at hx
  | cons y rest ih =>
    obtain ⟨k, w⟩ := y
    have hrest := List.pairwise_cons.mp h
    rcases List.mem_cons.mp hx with rfl | hx'
    · simp [Cells.get]
    · have : k < x.1 := hrest.1 x hx'
      simp only [Cells.get, if_neg (Nat.ne_of_gt this)]
      exact ih hrest.2 hx'

theorem Cells.mem_of_get {l : List (Nat × α)} {a : Nat} {v : α} (h : Cells.get l a = some v) :
    (a, v) ∈ l := by
  induction l with
  | nil => simp at h
  | cons y rest ih =>
    obtain ⟨k, w⟩ := y
    simp only [Cells.get] at h
    split at h
    · cases h
      subst_vars
      simp
    · exact List.mem_cons_of_mem _ (ih h)

/-- Two rising lists that list the same values are the same list. -/
theorem Cells.ext {l m : List (Nat × α)} (hl : Cells.Rising l) (hm : Cells.Rising m)
    (h : ∀ a, Cells.get l a = Cells.get m a) : l = m := by
  induction l generalizing m with
  | nil =>
    cases m with
    | nil => rfl
    | cons y rest => have := h y.1; simp [Cells.get] at this
  | cons x l ih =>
    cases m with
    | nil => have := h x.1; simp [Cells.get] at this
    | cons y m =>
      obtain ⟨k, v⟩ := x
      obtain ⟨j, w⟩ := y
      have hl' := List.pairwise_cons.mp hl
      have hm' := List.pairwise_cons.mp hm
      have hkj : k = j := by
        by_contra hne
        rcases Nat.lt_or_gt_of_ne hne with hlt | hlt
        · have hk := h k
          simp only [Cells.get, if_neg (Nat.ne_of_lt hlt), if_true] at hk
          rw [Cells.get_eq_none_of_lt fun x hx => lt_trans hlt (hm'.1 x hx)] at hk
          cases hk
        · have hj := h j
          simp only [Cells.get, if_neg (Nat.ne_of_lt hlt), if_true] at hj
          rw [Cells.get_eq_none_of_lt fun x hx => lt_trans hlt (hl'.1 x hx)] at hj
          cases hj
      subst hkj
      have hvw : v = w := by have := h k; simpa [Cells.get] using this
      subst hvw
      congr 1
      refine ih hl'.2 hm'.2 fun a => ?_
      by_cases ha : a = k
      · subst ha
        rw [Cells.get_eq_none_of_lt hl'.1, Cells.get_eq_none_of_lt hm'.1]
      · have := h a
        simpa [Cells.get, ha] using this

end Sys2Proof.Machine
end

