-- ==== Sys2Proof/Laws/Memory.lean ====
section
/-! SUPPORT. The laws of the buffer: read after write, the canonical form kept by every operation, and the bytes a host
binds. -/

namespace Sys2Proof.Machine

@[simp] theorem Memory.write_len (a : Nat) (v : Byte) (m : Memory) : (m.write a v).len = m.len := by
  unfold Memory.write; split <;> rfl

theorem Memory.wf_write {m : Memory} (a : Nat) (v : Byte) (h : m.wf) : (m.write a v).wf := by
  unfold Memory.write
  split
  · rename_i ha
    by_cases hv : v = 0#8
    · simp only [hv, if_true]
      exact ⟨Cells.rising_erase a h.1, fun c hc => h.2 c (Cells.mem_erase hc)⟩
    · simp only [hv, if_false]
      refine ⟨Cells.rising_put a v h.1, fun c hc => ?_⟩
      rcases Cells.mem_put hc with rfl | hc
      · exact ⟨hv, ha⟩
      · exact h.2 c hc
  · exact h

/-- Read after write, at the written address and at every other. -/
theorem Memory.byte_write {m : Memory} (a b : Nat) (v : Byte) (h : m.wf) :
    (m.write a v).byte b = if b = a ∧ a < m.len then v else m.byte b := by
  unfold Memory.write Memory.byte
  by_cases ha : a < m.len
  · by_cases hv : v = 0#8
    · simp only [ha, if_true, hv, Cells.get_erase _ _ h.1, and_true]
      split <;> rfl
    · simp only [ha, if_true, hv, if_false, Cells.get_put, and_true]
      split <;> rfl
  · simp [ha]

theorem Memory.cellsFrom_bounds (a : Nat) (bytes : List Byte) :
    ∀ c ∈ Memory.cellsFrom a bytes, c.2 ≠ 0#8 ∧ a ≤ c.1 ∧ c.1 < a + bytes.length := by
  induction bytes generalizing a with
  | nil => simp [Memory.cellsFrom]
  | cons b rest ih =>
    intro c hc
    simp only [Memory.cellsFrom] at hc
    split at hc
    · have := ih (a + 1) c hc
      simp only [List.length_cons]
      exact ⟨this.1, by omega, by omega⟩
    · rcases List.mem_cons.mp hc with rfl | hc
      · refine ⟨by assumption, le_refl _, ?_⟩
        simp only [List.length_cons]
        omega
      · have := ih (a + 1) c hc
        simp only [List.length_cons]
        exact ⟨this.1, by omega, by omega⟩

theorem Memory.cellsFrom_rising (a : Nat) (bytes : List Byte) :
    Cells.Rising (Memory.cellsFrom a bytes) := by
  induction bytes generalizing a with
  | nil => simp [Memory.cellsFrom]
  | cons b rest ih =>
    simp only [Memory.cellsFrom]
    split
    · exact ih (a + 1)
    · refine List.pairwise_cons.mpr ⟨fun x hx => ?_, ih (a + 1)⟩
      have := Memory.cellsFrom_bounds (a + 1) rest x hx
      show a < x.1
      omega

theorem Memory.wf_ofBytes (bytes : List Byte) : (Memory.ofBytes bytes).wf :=
  ⟨Memory.cellsFrom_rising 0 bytes, fun c hc => by
    have := Memory.cellsFrom_bounds 0 bytes c hc
    exact ⟨this.1, by simpa [Memory.ofBytes] using this.2.2⟩⟩

theorem Memory.get_cellsFrom (a b : Nat) (bytes : List Byte) :
    (Cells.get (Memory.cellsFrom a bytes) b).getD 0#8 =
      if a ≤ b then bytes.getD (b - a) 0#8 else 0#8 := by
  induction bytes generalizing a with
  | nil => simp [Memory.cellsFrom]
  | cons x rest ih =>
    by_cases hab : b = a
    · subst hab
      by_cases hx : x = 0#8
      · simp [Memory.cellsFrom, hx, ih]
      · simp [Memory.cellsFrom, hx, Cells.get]
    · have key : (Cells.get (Memory.cellsFrom a (x :: rest)) b).getD 0#8 =
          (Cells.get (Memory.cellsFrom (a + 1) rest) b).getD 0#8 := by
        simp only [Memory.cellsFrom]
        split
        · rfl
        · simp [Cells.get, hab]
      rw [key, ih]
      by_cases hlt : a < b
      · obtain ⟨k, rfl⟩ : ∃ k, b = a + 1 + k := ⟨b - a - 1, by omega⟩
        have h1 : a + 1 + k - (a + 1) = k := by omega
        have h2 : a + 1 + k - a = k + 1 := by omega
        have h3 : a + 1 ≤ a + 1 + k := by omega
        have h4 : a ≤ a + 1 + k := by omega
        simp only [h1, h2, h3, h4, if_true, List.getD_cons_succ]
      · have h1 : ¬ a + 1 ≤ b := by omega
        have h2 : ¬ a ≤ b := by omega
        simp [h1, h2]

/-- The buffer of a list of bytes holds those bytes. -/
theorem Memory.byte_ofBytes (bytes : List Byte) (a : Nat) :
    (Memory.ofBytes bytes).byte a = bytes.getD a 0#8 := by
  have h := Memory.get_cellsFrom 0 a bytes
  simp only [Nat.zero_le, if_true, Nat.sub_zero] at h
  exact h

@[simp] theorem Memory.ofBytes_len (bytes : List Byte) : (Memory.ofBytes bytes).len = bytes.length := rfl

theorem Memory.wf_clear {m : Memory} (a n : Nat) (h : m.wf) : (m.clear a n).wf :=
  ⟨h.1.filter _, fun c hc => by
    have := h.2 c (List.mem_of_mem_filter hc)
    exact ⟨this.1, lt_of_lt_of_le this.2 (le_max_left _ _)⟩⟩

theorem Memory.wf_writeBytes {m : Memory} (a : Nat) (bytes : List Byte) (h : m.wf) :
    (m.writeBytes a bytes).wf := by
  induction bytes generalizing a m with
  | nil => exact h
  | cons b rest ih => exact ih (a + 1) (Memory.wf_write a b h)

@[simp] theorem Memory.bytesFrom_length (m : Memory) (a n : Nat) : (m.bytesFrom a n).length = n := by
  induction n generalizing a with
  | zero => rfl
  | succ n ih => simp [Memory.bytesFrom, ih]

theorem Memory.littleEndian_one (m : Memory) (a : Nat) : m.littleEndian a 1 = (m.byte a).toNat := by
  simp [Memory.littleEndian]

/-- R65: a record read as one word is its two little-endian fields. -/
theorem Memory.littleEndian_four (m : Memory) (a : Nat) :
    m.littleEndian a 4 =
      (m.byte a).toNat + 256 * (m.byte (a + 1)).toNat + 65536 * (m.byte (a + 2)).toNat +
        16777216 * (m.byte (a + 3)).toNat := by
  have h2 : a + 1 + 1 = a + 2 := rfl
  have h3 : a + 2 + 1 = a + 3 := rfl
  simp only [Memory.littleEndian, h2, h3]
  omega

theorem Memory.littleEndian_lt (m : Memory) (a n : Nat) : m.littleEndian a n < 256 ^ n := by
  induction n generalizing a with
  | zero => simp [Memory.littleEndian]
  | succ n ih =>
    have h1 := ih (a + 1)
    have h2 := (m.byte a).isLt
    simp only [Memory.littleEndian, Nat.pow_succ]
    omega

end Sys2Proof.Machine
end

