-- ==== Sys2Proof/Laws/State.lean ====
section
/-! SUPPORT. What each update of the state leaves in each field: true by unfolding the record, and tagged for simp, so
that no later proof unfolds an update. -/

namespace Sys2Proof.Machine

@[simp] theorem writeBound_pending (r : Nat) (b : RowBound) (s : State) : (writeBound r b s).pending = s.pending := rfl
@[simp] theorem writeBound_desc (r : Nat) (b : RowBound) (s : State) : (writeBound r b s).desc = s.desc := rfl
@[simp] theorem writeBound_cursor (r : Nat) (b : RowBound) (s : State) : (writeBound r b s).cursor = s.cursor := rfl
@[simp] theorem writeBound_emitted (r : Nat) (b : RowBound) (s : State) : (writeBound r b s).emitted = s.emitted := rfl
@[simp] theorem writeBound_expected (r : Nat) (b : RowBound) (s : State) : (writeBound r b s).expected = s.expected := rfl
@[simp] theorem writeBound_phase (r : Nat) (b : RowBound) (s : State) : (writeBound r b s).phase = s.phase := rfl
@[simp] theorem writeBound_idx (r : Nat) (b : RowBound) (s : State) : (writeBound r b s).idx = s.idx := rfl
@[simp] theorem writeBound_row (r : Nat) (b : RowBound) (s : State) : (writeBound r b s).row = s.row := rfl
@[simp] theorem writeBound_status (r : Nat) (b : RowBound) (s : State) : (writeBound r b s).status = s.status := rfl
@[simp] theorem writeBound_errCode (r : Nat) (b : RowBound) (s : State) : (writeBound r b s).errCode = s.errCode := rfl
@[simp] theorem writeBound_errStage (r : Nat) (b : RowBound) (s : State) : (writeBound r b s).errStage = s.errStage := rfl
@[simp] theorem writeBound_errRow (r : Nat) (b : RowBound) (s : State) : (writeBound r b s).errRow = s.errRow := rfl
@[simp] theorem writeBound_errOffset (r : Nat) (b : RowBound) (s : State) : (writeBound r b s).errOffset = s.errOffset := rfl
@[simp] theorem writeBound_errFrame (r : Nat) (b : RowBound) (s : State) : (writeBound r b s).errFrame = s.errFrame := rfl
@[simp] theorem writeBound_boundsOut (r : Nat) (b : RowBound) (s : State) : (writeBound r b s).boundsOut = Cells.put r b s.boundsOut := rfl
@[simp] theorem writeBound_cmdoffOut (r : Nat) (b : RowBound) (s : State) : (writeBound r b s).cmdoffOut = s.cmdoffOut := rfl
@[simp] theorem writeBound_grid (r : Nat) (b : RowBound) (s : State) : (writeBound r b s).grid = s.grid := rfl
@[simp] theorem writeBound_buf (r : Nat) (b : RowBound) (s : State) : (writeBound r b s).buf = s.buf := rfl
@[simp] theorem writeBound_gridCap (r : Nat) (b : RowBound) (s : State) : (writeBound r b s).gridCap = s.gridCap := rfl
@[simp] theorem writeBound_draws (r : Nat) (b : RowBound) (s : State) : (writeBound r b s).draws = s.draws := rfl
@[simp] theorem writeBound_hostMoves (r : Nat) (b : RowBound) (s : State) : (writeBound r b s).hostMoves = s.hostMoves := rfl

@[simp] theorem writeOffset_pending (r : Nat) (v : BitVec 32) (s : State) : (writeOffset r v s).pending = s.pending := rfl
@[simp] theorem writeOffset_desc (r : Nat) (v : BitVec 32) (s : State) : (writeOffset r v s).desc = s.desc := rfl
@[simp] theorem writeOffset_cursor (r : Nat) (v : BitVec 32) (s : State) : (writeOffset r v s).cursor = s.cursor := rfl
@[simp] theorem writeOffset_emitted (r : Nat) (v : BitVec 32) (s : State) : (writeOffset r v s).emitted = s.emitted := rfl
@[simp] theorem writeOffset_expected (r : Nat) (v : BitVec 32) (s : State) : (writeOffset r v s).expected = s.expected := rfl
@[simp] theorem writeOffset_phase (r : Nat) (v : BitVec 32) (s : State) : (writeOffset r v s).phase = s.phase := rfl
@[simp] theorem writeOffset_idx (r : Nat) (v : BitVec 32) (s : State) : (writeOffset r v s).idx = s.idx := rfl
@[simp] theorem writeOffset_row (r : Nat) (v : BitVec 32) (s : State) : (writeOffset r v s).row = s.row := rfl
@[simp] theorem writeOffset_status (r : Nat) (v : BitVec 32) (s : State) : (writeOffset r v s).status = s.status := rfl
@[simp] theorem writeOffset_errCode (r : Nat) (v : BitVec 32) (s : State) : (writeOffset r v s).errCode = s.errCode := rfl
@[simp] theorem writeOffset_errStage (r : Nat) (v : BitVec 32) (s : State) : (writeOffset r v s).errStage = s.errStage := rfl
@[simp] theorem writeOffset_errRow (r : Nat) (v : BitVec 32) (s : State) : (writeOffset r v s).errRow = s.errRow := rfl
@[simp] theorem writeOffset_errOffset (r : Nat) (v : BitVec 32) (s : State) : (writeOffset r v s).errOffset = s.errOffset := rfl
@[simp] theorem writeOffset_errFrame (r : Nat) (v : BitVec 32) (s : State) : (writeOffset r v s).errFrame = s.errFrame := rfl
@[simp] theorem writeOffset_boundsOut (r : Nat) (v : BitVec 32) (s : State) : (writeOffset r v s).boundsOut = s.boundsOut := rfl
@[simp] theorem writeOffset_cmdoffOut (r : Nat) (v : BitVec 32) (s : State) : (writeOffset r v s).cmdoffOut = Cells.put r v s.cmdoffOut := rfl
@[simp] theorem writeOffset_grid (r : Nat) (v : BitVec 32) (s : State) : (writeOffset r v s).grid = s.grid := rfl
@[simp] theorem writeOffset_buf (r : Nat) (v : BitVec 32) (s : State) : (writeOffset r v s).buf = s.buf := rfl
@[simp] theorem writeOffset_gridCap (r : Nat) (v : BitVec 32) (s : State) : (writeOffset r v s).gridCap = s.gridCap := rfl
@[simp] theorem writeOffset_draws (r : Nat) (v : BitVec 32) (s : State) : (writeOffset r v s).draws = s.draws := rfl
@[simp] theorem writeOffset_hostMoves (r : Nat) (v : BitVec 32) (s : State) : (writeOffset r v s).hostMoves = s.hostMoves := rfl

@[simp] theorem writePixel_pending (r c : Nat) (p : Pixel) (s : State) : (writePixel r c p s).pending = s.pending := rfl
@[simp] theorem writePixel_desc (r c : Nat) (p : Pixel) (s : State) : (writePixel r c p s).desc = s.desc := rfl
@[simp] theorem writePixel_cursor (r c : Nat) (p : Pixel) (s : State) : (writePixel r c p s).cursor = s.cursor := rfl
@[simp] theorem writePixel_emitted (r c : Nat) (p : Pixel) (s : State) : (writePixel r c p s).emitted = s.emitted := rfl
@[simp] theorem writePixel_expected (r c : Nat) (p : Pixel) (s : State) : (writePixel r c p s).expected = s.expected := rfl
@[simp] theorem writePixel_phase (r c : Nat) (p : Pixel) (s : State) : (writePixel r c p s).phase = s.phase := rfl
@[simp] theorem writePixel_idx (r c : Nat) (p : Pixel) (s : State) : (writePixel r c p s).idx = s.idx := rfl
@[simp] theorem writePixel_row (r c : Nat) (p : Pixel) (s : State) : (writePixel r c p s).row = s.row := rfl
@[simp] theorem writePixel_status (r c : Nat) (p : Pixel) (s : State) : (writePixel r c p s).status = s.status := rfl
@[simp] theorem writePixel_errCode (r c : Nat) (p : Pixel) (s : State) : (writePixel r c p s).errCode = s.errCode := rfl
@[simp] theorem writePixel_errStage (r c : Nat) (p : Pixel) (s : State) : (writePixel r c p s).errStage = s.errStage := rfl
@[simp] theorem writePixel_errRow (r c : Nat) (p : Pixel) (s : State) : (writePixel r c p s).errRow = s.errRow := rfl
@[simp] theorem writePixel_errOffset (r c : Nat) (p : Pixel) (s : State) : (writePixel r c p s).errOffset = s.errOffset := rfl
@[simp] theorem writePixel_errFrame (r c : Nat) (p : Pixel) (s : State) : (writePixel r c p s).errFrame = s.errFrame := rfl
@[simp] theorem writePixel_boundsOut (r c : Nat) (p : Pixel) (s : State) : (writePixel r c p s).boundsOut = s.boundsOut := rfl
@[simp] theorem writePixel_cmdoffOut (r c : Nat) (p : Pixel) (s : State) : (writePixel r c p s).cmdoffOut = s.cmdoffOut := rfl
@[simp] theorem writePixel_grid (r c : Nat) (p : Pixel) (s : State) : (writePixel r c p s).grid = gridPut r c p.word s.grid := rfl
@[simp] theorem writePixel_buf (r c : Nat) (p : Pixel) (s : State) : (writePixel r c p s).buf = s.buf := rfl
@[simp] theorem writePixel_gridCap (r c : Nat) (p : Pixel) (s : State) : (writePixel r c p s).gridCap = s.gridCap := rfl
@[simp] theorem writePixel_draws (r c : Nat) (p : Pixel) (s : State) : (writePixel r c p s).draws = s.draws := rfl
@[simp] theorem writePixel_hostMoves (r c : Nat) (p : Pixel) (s : State) : (writePixel r c p s).hostMoves = s.hostMoves := rfl

@[simp] theorem dropStores_pending (s : State) : (dropStores s).pending = s.pending := rfl
@[simp] theorem dropStores_desc (s : State) : (dropStores s).desc = s.desc := rfl
@[simp] theorem dropStores_cursor (s : State) : (dropStores s).cursor = s.cursor := rfl
@[simp] theorem dropStores_emitted (s : State) : (dropStores s).emitted = s.emitted := rfl
@[simp] theorem dropStores_expected (s : State) : (dropStores s).expected = s.expected := rfl
@[simp] theorem dropStores_phase (s : State) : (dropStores s).phase = s.phase := rfl
@[simp] theorem dropStores_idx (s : State) : (dropStores s).idx = s.idx := rfl
@[simp] theorem dropStores_row (s : State) : (dropStores s).row = s.row := rfl
@[simp] theorem dropStores_status (s : State) : (dropStores s).status = s.status := rfl
@[simp] theorem dropStores_errCode (s : State) : (dropStores s).errCode = s.errCode := rfl
@[simp] theorem dropStores_errStage (s : State) : (dropStores s).errStage = s.errStage := rfl
@[simp] theorem dropStores_errRow (s : State) : (dropStores s).errRow = s.errRow := rfl
@[simp] theorem dropStores_errOffset (s : State) : (dropStores s).errOffset = s.errOffset := rfl
@[simp] theorem dropStores_errFrame (s : State) : (dropStores s).errFrame = s.errFrame := rfl
@[simp] theorem dropStores_boundsOut (s : State) : (dropStores s).boundsOut = [] := rfl
@[simp] theorem dropStores_cmdoffOut (s : State) : (dropStores s).cmdoffOut = [] := rfl
@[simp] theorem dropStores_grid (s : State) : (dropStores s).grid = [] := rfl
@[simp] theorem dropStores_buf (s : State) : (dropStores s).buf = s.buf := rfl
@[simp] theorem dropStores_gridCap (s : State) : (dropStores s).gridCap = s.gridCap := rfl
@[simp] theorem dropStores_draws (s : State) : (dropStores s).draws = s.draws + 1 := rfl
@[simp] theorem dropStores_hostMoves (s : State) : (dropStores s).hostMoves = s.hostMoves := rfl

@[simp] theorem emit_pending (p : Pixel) (s : State) : (emit p s).pending = s.pending := rfl
@[simp] theorem emit_desc (p : Pixel) (s : State) : (emit p s).desc = s.desc := rfl
@[simp] theorem emit_cursor (p : Pixel) (s : State) : (emit p s).cursor = s.cursor := rfl
@[simp] theorem emit_emitted (p : Pixel) (s : State) : (emit p s).emitted = s.emitted + 1 := rfl
@[simp] theorem emit_expected (p : Pixel) (s : State) : (emit p s).expected = s.expected := rfl
@[simp] theorem emit_phase (p : Pixel) (s : State) : (emit p s).phase = s.phase := rfl
@[simp] theorem emit_idx (p : Pixel) (s : State) : (emit p s).idx = s.idx := rfl
@[simp] theorem emit_row (p : Pixel) (s : State) : (emit p s).row = s.row := rfl
@[simp] theorem emit_status (p : Pixel) (s : State) : (emit p s).status = s.status := rfl
@[simp] theorem emit_errCode (p : Pixel) (s : State) : (emit p s).errCode = s.errCode := rfl
@[simp] theorem emit_errStage (p : Pixel) (s : State) : (emit p s).errStage = s.errStage := rfl
@[simp] theorem emit_errRow (p : Pixel) (s : State) : (emit p s).errRow = s.errRow := rfl
@[simp] theorem emit_errOffset (p : Pixel) (s : State) : (emit p s).errOffset = s.errOffset := rfl
@[simp] theorem emit_errFrame (p : Pixel) (s : State) : (emit p s).errFrame = s.errFrame := rfl
@[simp] theorem emit_boundsOut (p : Pixel) (s : State) : (emit p s).boundsOut = s.boundsOut := rfl
@[simp] theorem emit_cmdoffOut (p : Pixel) (s : State) : (emit p s).cmdoffOut = s.cmdoffOut := rfl
@[simp] theorem emit_buf (p : Pixel) (s : State) : (emit p s).buf = s.buf := rfl
@[simp] theorem emit_gridCap (p : Pixel) (s : State) : (emit p s).gridCap = s.gridCap := rfl
@[simp] theorem emit_draws (p : Pixel) (s : State) : (emit p s).draws = s.draws := rfl
@[simp] theorem emit_hostMoves (p : Pixel) (s : State) : (emit p s).hostMoves = s.hostMoves := rfl

@[simp] theorem raise_pending (e : ErrCode) (a : Nat) (s : State) : (raise e a s).pending = s.pending := rfl
@[simp] theorem raise_desc (e : ErrCode) (a : Nat) (s : State) : (raise e a s).desc = s.desc := rfl
@[simp] theorem raise_cursor (e : ErrCode) (a : Nat) (s : State) : (raise e a s).cursor = s.cursor := rfl
@[simp] theorem raise_emitted (e : ErrCode) (a : Nat) (s : State) : (raise e a s).emitted = s.emitted := rfl
@[simp] theorem raise_expected (e : ErrCode) (a : Nat) (s : State) : (raise e a s).expected = s.expected := rfl
@[simp] theorem raise_phase (e : ErrCode) (a : Nat) (s : State) : (raise e a s).phase = s.phase := rfl
@[simp] theorem raise_idx (e : ErrCode) (a : Nat) (s : State) : (raise e a s).idx = s.idx := rfl
@[simp] theorem raise_row (e : ErrCode) (a : Nat) (s : State) : (raise e a s).row = s.row := rfl
@[simp] theorem raise_status (e : ErrCode) (a : Nat) (s : State) : (raise e a s).status = .error := rfl
@[simp] theorem raise_errCode (e : ErrCode) (a : Nat) (s : State) : (raise e a s).errCode = e := rfl
@[simp] theorem raise_errStage (e : ErrCode) (a : Nat) (s : State) : (raise e a s).errStage = s.phase.stage := rfl
@[simp] theorem raise_errRow (e : ErrCode) (a : Nat) (s : State) : (raise e a s).errRow = BitVec.ofNat 32 s.errorRow := rfl
@[simp] theorem raise_errOffset (e : ErrCode) (a : Nat) (s : State) : (raise e a s).errOffset = a := rfl
@[simp] theorem raise_errFrame (e : ErrCode) (a : Nat) (s : State) : (raise e a s).errFrame = s.desc.frameIndex := rfl
@[simp] theorem raise_boundsOut (e : ErrCode) (a : Nat) (s : State) : (raise e a s).boundsOut = [] := rfl
@[simp] theorem raise_cmdoffOut (e : ErrCode) (a : Nat) (s : State) : (raise e a s).cmdoffOut = [] := rfl
@[simp] theorem raise_grid (e : ErrCode) (a : Nat) (s : State) : (raise e a s).grid = [] := rfl
@[simp] theorem raise_buf (e : ErrCode) (a : Nat) (s : State) : (raise e a s).buf = s.buf := rfl
@[simp] theorem raise_gridCap (e : ErrCode) (a : Nat) (s : State) : (raise e a s).gridCap = s.gridCap := rfl
@[simp] theorem raise_draws (e : ErrCode) (a : Nat) (s : State) : (raise e a s).draws = s.draws + 1 := rfl
@[simp] theorem raise_hostMoves (e : ErrCode) (a : Nat) (s : State) : (raise e a s).hostMoves = s.hostMoves := rfl

@[simp] theorem acceptStart_pending (s : State) : (acceptStart s).pending = s.pending := rfl
@[simp] theorem acceptStart_desc (s : State) : (acceptStart s).desc = s.pending := rfl
@[simp] theorem acceptStart_cursor (s : State) : (acceptStart s).cursor = 0 := rfl
@[simp] theorem acceptStart_emitted (s : State) : (acceptStart s).emitted = 0 := rfl
@[simp] theorem acceptStart_expected (s : State) : (acceptStart s).expected = 0 := rfl
@[simp] theorem acceptStart_phase (s : State) : (acceptStart s).phase = .check := rfl
@[simp] theorem acceptStart_idx (s : State) : (acceptStart s).idx = 0 := rfl
@[simp] theorem acceptStart_row (s : State) : (acceptStart s).row = 0 := rfl
@[simp] theorem acceptStart_status (s : State) : (acceptStart s).status = .running := rfl
@[simp] theorem acceptStart_errCode (s : State) : (acceptStart s).errCode = .noError := rfl
@[simp] theorem acceptStart_errStage (s : State) : (acceptStart s).errStage = .check := rfl
@[simp] theorem acceptStart_errRow (s : State) : (acceptStart s).errRow = 0#32 := rfl
@[simp] theorem acceptStart_errOffset (s : State) : (acceptStart s).errOffset = 0 := rfl
@[simp] theorem acceptStart_errFrame (s : State) : (acceptStart s).errFrame = 0#32 := rfl
@[simp] theorem acceptStart_boundsOut (s : State) : (acceptStart s).boundsOut = [] := rfl
@[simp] theorem acceptStart_cmdoffOut (s : State) : (acceptStart s).cmdoffOut = [] := rfl
@[simp] theorem acceptStart_grid (s : State) : (acceptStart s).grid = [] := rfl
@[simp] theorem acceptStart_buf (s : State) : (acceptStart s).buf = s.buf := rfl
@[simp] theorem acceptStart_gridCap (s : State) : (acceptStart s).gridCap = s.gridCap := rfl
@[simp] theorem acceptStart_draws (s : State) : (acceptStart s).draws = s.draws + 1 := rfl
@[simp] theorem acceptStart_hostMoves (s : State) : (acceptStart s).hostMoves = s.hostMoves := rfl

@[simp] theorem moveCursor_pending (c : Nat) (s : State) : (moveCursor c s).pending = s.pending := rfl
@[simp] theorem moveCursor_desc (c : Nat) (s : State) : (moveCursor c s).desc = s.desc := rfl
@[simp] theorem moveCursor_cursor (c : Nat) (s : State) : (moveCursor c s).cursor = c := rfl
@[simp] theorem moveCursor_emitted (c : Nat) (s : State) : (moveCursor c s).emitted = s.emitted := rfl
@[simp] theorem moveCursor_expected (c : Nat) (s : State) : (moveCursor c s).expected = s.expected := rfl
@[simp] theorem moveCursor_phase (c : Nat) (s : State) : (moveCursor c s).phase = s.phase := rfl
@[simp] theorem moveCursor_idx (c : Nat) (s : State) : (moveCursor c s).idx = s.idx := rfl
@[simp] theorem moveCursor_row (c : Nat) (s : State) : (moveCursor c s).row = s.row := rfl
@[simp] theorem moveCursor_status (c : Nat) (s : State) : (moveCursor c s).status = s.status := rfl
@[simp] theorem moveCursor_errCode (c : Nat) (s : State) : (moveCursor c s).errCode = s.errCode := rfl
@[simp] theorem moveCursor_errStage (c : Nat) (s : State) : (moveCursor c s).errStage = s.errStage := rfl
@[simp] theorem moveCursor_errRow (c : Nat) (s : State) : (moveCursor c s).errRow = s.errRow := rfl
@[simp] theorem moveCursor_errOffset (c : Nat) (s : State) : (moveCursor c s).errOffset = s.errOffset := rfl
@[simp] theorem moveCursor_errFrame (c : Nat) (s : State) : (moveCursor c s).errFrame = s.errFrame := rfl
@[simp] theorem moveCursor_boundsOut (c : Nat) (s : State) : (moveCursor c s).boundsOut = s.boundsOut := rfl
@[simp] theorem moveCursor_cmdoffOut (c : Nat) (s : State) : (moveCursor c s).cmdoffOut = s.cmdoffOut := rfl
@[simp] theorem moveCursor_grid (c : Nat) (s : State) : (moveCursor c s).grid = s.grid := rfl
@[simp] theorem moveCursor_buf (c : Nat) (s : State) : (moveCursor c s).buf = s.buf := rfl
@[simp] theorem moveCursor_gridCap (c : Nat) (s : State) : (moveCursor c s).gridCap = s.gridCap := rfl
@[simp] theorem moveCursor_draws (c : Nat) (s : State) : (moveCursor c s).draws = s.draws := rfl
@[simp] theorem moveCursor_hostMoves (c : Nat) (s : State) : (moveCursor c s).hostMoves = s.hostMoves := rfl

@[simp] theorem advance_pending (s : State) : (advance s).pending = s.pending := rfl
@[simp] theorem advance_desc (s : State) : (advance s).desc = s.desc := rfl
@[simp] theorem advance_cursor (s : State) : (advance s).cursor = s.cursor + 1 := rfl
@[simp] theorem advance_emitted (s : State) : (advance s).emitted = s.emitted := rfl
@[simp] theorem advance_expected (s : State) : (advance s).expected = s.expected := rfl
@[simp] theorem advance_phase (s : State) : (advance s).phase = s.phase := rfl
@[simp] theorem advance_idx (s : State) : (advance s).idx = s.idx := rfl
@[simp] theorem advance_row (s : State) : (advance s).row = s.row := rfl
@[simp] theorem advance_status (s : State) : (advance s).status = s.status := rfl
@[simp] theorem advance_errCode (s : State) : (advance s).errCode = s.errCode := rfl
@[simp] theorem advance_errStage (s : State) : (advance s).errStage = s.errStage := rfl
@[simp] theorem advance_errRow (s : State) : (advance s).errRow = s.errRow := rfl
@[simp] theorem advance_errOffset (s : State) : (advance s).errOffset = s.errOffset := rfl
@[simp] theorem advance_errFrame (s : State) : (advance s).errFrame = s.errFrame := rfl
@[simp] theorem advance_boundsOut (s : State) : (advance s).boundsOut = s.boundsOut := rfl
@[simp] theorem advance_cmdoffOut (s : State) : (advance s).cmdoffOut = s.cmdoffOut := rfl
@[simp] theorem advance_grid (s : State) : (advance s).grid = s.grid := rfl
@[simp] theorem advance_buf (s : State) : (advance s).buf = s.buf := rfl
@[simp] theorem advance_gridCap (s : State) : (advance s).gridCap = s.gridCap := rfl
@[simp] theorem advance_draws (s : State) : (advance s).draws = s.draws := rfl
@[simp] theorem advance_hostMoves (s : State) : (advance s).hostMoves = s.hostMoves := rfl

theorem emit_grid (p : Pixel) (s : State) :
    (emit p s).grid =
      if (s.emitted : Int) < s.expected then
        gridPut s.row ((s.boundAt s.row).left.toNat + s.emitted) p.word s.grid
      else s.grid := rfl

@[simp] theorem emitAll_pending (ps : List Pixel) (s : State) : (emitAll ps s).pending = s.pending := by
  induction ps generalizing s with
  | nil => rfl
  | cons p ps ih => simp [emitAll, ih]
@[simp] theorem emitAll_desc (ps : List Pixel) (s : State) : (emitAll ps s).desc = s.desc := by
  induction ps generalizing s with
  | nil => rfl
  | cons p ps ih => simp [emitAll, ih]
@[simp] theorem emitAll_cursor (ps : List Pixel) (s : State) : (emitAll ps s).cursor = s.cursor := by
  induction ps generalizing s with
  | nil => rfl
  | cons p ps ih => simp [emitAll, ih]
@[simp] theorem emitAll_expected (ps : List Pixel) (s : State) : (emitAll ps s).expected = s.expected := by
  induction ps generalizing s with
  | nil => rfl
  | cons p ps ih => simp [emitAll, ih]
@[simp] theorem emitAll_phase (ps : List Pixel) (s : State) : (emitAll ps s).phase = s.phase := by
  induction ps generalizing s with
  | nil => rfl
  | cons p ps ih => simp [emitAll, ih]
@[simp] theorem emitAll_idx (ps : List Pixel) (s : State) : (emitAll ps s).idx = s.idx := by
  induction ps generalizing s with
  | nil => rfl
  | cons p ps ih => simp [emitAll, ih]
@[simp] theorem emitAll_row (ps : List Pixel) (s : State) : (emitAll ps s).row = s.row := by
  induction ps generalizing s with
  | nil => rfl
  | cons p ps ih => simp [emitAll, ih]
@[simp] theorem emitAll_status (ps : List Pixel) (s : State) : (emitAll ps s).status = s.status := by
  induction ps generalizing s with
  | nil => rfl
  | cons p ps ih => simp [emitAll, ih]
@[simp] theorem emitAll_errCode (ps : List Pixel) (s : State) : (emitAll ps s).errCode = s.errCode := by
  induction ps generalizing s with
  | nil => rfl
  | cons p ps ih => simp [emitAll, ih]
@[simp] theorem emitAll_errStage (ps : List Pixel) (s : State) : (emitAll ps s).errStage = s.errStage := by
  induction ps generalizing s with
  | nil => rfl
  | cons p ps ih => simp [emitAll, ih]
@[simp] theorem emitAll_errRow (ps : List Pixel) (s : State) : (emitAll ps s).errRow = s.errRow := by
  induction ps generalizing s with
  | nil => rfl
  | cons p ps ih => simp [emitAll, ih]
@[simp] theorem emitAll_errOffset (ps : List Pixel) (s : State) : (emitAll ps s).errOffset = s.errOffset := by
  induction ps generalizing s with
  | nil => rfl
  | cons p ps ih => simp [emitAll, ih]
@[simp] theorem emitAll_errFrame (ps : List Pixel) (s : State) : (emitAll ps s).errFrame = s.errFrame := by
  induction ps generalizing s with
  | nil => rfl
  | cons p ps ih => simp [emitAll, ih]
@[simp] theorem emitAll_boundsOut (ps : List Pixel) (s : State) : (emitAll ps s).boundsOut = s.boundsOut := by
  induction ps generalizing s with
  | nil => rfl
  | cons p ps ih => simp [emitAll, ih]
@[simp] theorem emitAll_cmdoffOut (ps : List Pixel) (s : State) : (emitAll ps s).cmdoffOut = s.cmdoffOut := by
  induction ps generalizing s with
  | nil => rfl
  | cons p ps ih => simp [emitAll, ih]
@[simp] theorem emitAll_buf (ps : List Pixel) (s : State) : (emitAll ps s).buf = s.buf := by
  induction ps generalizing s with
  | nil => rfl
  | cons p ps ih => simp [emitAll, ih]
@[simp] theorem emitAll_gridCap (ps : List Pixel) (s : State) : (emitAll ps s).gridCap = s.gridCap := by
  induction ps generalizing s with
  | nil => rfl
  | cons p ps ih => simp [emitAll, ih]
@[simp] theorem emitAll_draws (ps : List Pixel) (s : State) : (emitAll ps s).draws = s.draws := by
  induction ps generalizing s with
  | nil => rfl
  | cons p ps ih => simp [emitAll, ih]
@[simp] theorem emitAll_hostMoves (ps : List Pixel) (s : State) : (emitAll ps s).hostMoves = s.hostMoves := by
  induction ps generalizing s with
  | nil => rfl
  | cons p ps ih => simp [emitAll, ih]

@[simp] theorem emitMany_pending (n : Nat) (p : Pixel) (s : State) : (emitMany n p s).pending = s.pending := by
  induction n generalizing s with
  | zero => rfl
  | succ n ih => simp [emitMany, ih]
@[simp] theorem emitMany_desc (n : Nat) (p : Pixel) (s : State) : (emitMany n p s).desc = s.desc := by
  induction n generalizing s with
  | zero => rfl
  | succ n ih => simp [emitMany, ih]
@[simp] theorem emitMany_cursor (n : Nat) (p : Pixel) (s : State) : (emitMany n p s).cursor = s.cursor := by
  induction n generalizing s with
  | zero => rfl
  | succ n ih => simp [emitMany, ih]
@[simp] theorem emitMany_expected (n : Nat) (p : Pixel) (s : State) : (emitMany n p s).expected = s.expected := by
  induction n generalizing s with
  | zero => rfl
  | succ n ih => simp [emitMany, ih]
@[simp] theorem emitMany_phase (n : Nat) (p : Pixel) (s : State) : (emitMany n p s).phase = s.phase := by
  induction n generalizing s with
  | zero => rfl
  | succ n ih => simp [emitMany, ih]
@[simp] theorem emitMany_idx (n : Nat) (p : Pixel) (s : State) : (emitMany n p s).idx = s.idx := by
  induction n generalizing s with
  | zero => rfl
  | succ n ih => simp [emitMany, ih]
@[simp] theorem emitMany_row (n : Nat) (p : Pixel) (s : State) : (emitMany n p s).row = s.row := by
  induction n generalizing s with
  | zero => rfl
  | succ n ih => simp [emitMany, ih]
@[simp] theorem emitMany_status (n : Nat) (p : Pixel) (s : State) : (emitMany n p s).status = s.status := by
  induction n generalizing s with
  | zero => rfl
  | succ n ih => simp [emitMany, ih]
@[simp] theorem emitMany_errCode (n : Nat) (p : Pixel) (s : State) : (emitMany n p s).errCode = s.errCode := by
  induction n generalizing s with
  | zero => rfl
  | succ n ih => simp [emitMany, ih]
@[simp] theorem emitMany_errStage (n : Nat) (p : Pixel) (s : State) : (emitMany n p s).errStage = s.errStage := by
  induction n generalizing s with
  | zero => rfl
  | succ n ih => simp [emitMany, ih]
@[simp] theorem emitMany_errRow (n : Nat) (p : Pixel) (s : State) : (emitMany n p s).errRow = s.errRow := by
  induction n generalizing s with
  | zero => rfl
  | succ n ih => simp [emitMany, ih]
@[simp] theorem emitMany_errOffset (n : Nat) (p : Pixel) (s : State) : (emitMany n p s).errOffset = s.errOffset := by
  induction n generalizing s with
  | zero => rfl
  | succ n ih => simp [emitMany, ih]
@[simp] theorem emitMany_errFrame (n : Nat) (p : Pixel) (s : State) : (emitMany n p s).errFrame = s.errFrame := by
  induction n generalizing s with
  | zero => rfl
  | succ n ih => simp [emitMany, ih]
@[simp] theorem emitMany_boundsOut (n : Nat) (p : Pixel) (s : State) : (emitMany n p s).boundsOut = s.boundsOut := by
  induction n generalizing s with
  | zero => rfl
  | succ n ih => simp [emitMany, ih]
@[simp] theorem emitMany_cmdoffOut (n : Nat) (p : Pixel) (s : State) : (emitMany n p s).cmdoffOut = s.cmdoffOut := by
  induction n generalizing s with
  | zero => rfl
  | succ n ih => simp [emitMany, ih]
@[simp] theorem emitMany_buf (n : Nat) (p : Pixel) (s : State) : (emitMany n p s).buf = s.buf := by
  induction n generalizing s with
  | zero => rfl
  | succ n ih => simp [emitMany, ih]
@[simp] theorem emitMany_gridCap (n : Nat) (p : Pixel) (s : State) : (emitMany n p s).gridCap = s.gridCap := by
  induction n generalizing s with
  | zero => rfl
  | succ n ih => simp [emitMany, ih]
@[simp] theorem emitMany_draws (n : Nat) (p : Pixel) (s : State) : (emitMany n p s).draws = s.draws := by
  induction n generalizing s with
  | zero => rfl
  | succ n ih => simp [emitMany, ih]
@[simp] theorem emitMany_hostMoves (n : Nat) (p : Pixel) (s : State) : (emitMany n p s).hostMoves = s.hostMoves := by
  induction n generalizing s with
  | zero => rfl
  | succ n ih => simp [emitMany, ih]

@[simp] theorem padFrom_pending (c n : Nat) (s : State) : (padFrom c n s).pending = s.pending := by
  induction n generalizing c s with
  | zero => rfl
  | succ n ih => simp [padFrom, ih]
@[simp] theorem padFrom_desc (c n : Nat) (s : State) : (padFrom c n s).desc = s.desc := by
  induction n generalizing c s with
  | zero => rfl
  | succ n ih => simp [padFrom, ih]
@[simp] theorem padFrom_cursor (c n : Nat) (s : State) : (padFrom c n s).cursor = s.cursor := by
  induction n generalizing c s with
  | zero => rfl
  | succ n ih => simp [padFrom, ih]
@[simp] theorem padFrom_emitted (c n : Nat) (s : State) : (padFrom c n s).emitted = s.emitted := by
  induction n generalizing c s with
  | zero => rfl
  | succ n ih => simp [padFrom, ih]
@[simp] theorem padFrom_expected (c n : Nat) (s : State) : (padFrom c n s).expected = s.expected := by
  induction n generalizing c s with
  | zero => rfl
  | succ n ih => simp [padFrom, ih]
@[simp] theorem padFrom_phase (c n : Nat) (s : State) : (padFrom c n s).phase = s.phase := by
  induction n generalizing c s with
  | zero => rfl
  | succ n ih => simp [padFrom, ih]
@[simp] theorem padFrom_idx (c n : Nat) (s : State) : (padFrom c n s).idx = s.idx := by
  induction n generalizing c s with
  | zero => rfl
  | succ n ih => simp [padFrom, ih]
@[simp] theorem padFrom_row (c n : Nat) (s : State) : (padFrom c n s).row = s.row := by
  induction n generalizing c s with
  | zero => rfl
  | succ n ih => simp [padFrom, ih]
@[simp] theorem padFrom_status (c n : Nat) (s : State) : (padFrom c n s).status = s.status := by
  induction n generalizing c s with
  | zero => rfl
  | succ n ih => simp [padFrom, ih]
@[simp] theorem padFrom_errCode (c n : Nat) (s : State) : (padFrom c n s).errCode = s.errCode := by
  induction n generalizing c s with
  | zero => rfl
  | succ n ih => simp [padFrom, ih]
@[simp] theorem padFrom_errStage (c n : Nat) (s : State) : (padFrom c n s).errStage = s.errStage := by
  induction n generalizing c s with
  | zero => rfl
  | succ n ih => simp [padFrom, ih]
@[simp] theorem padFrom_errRow (c n : Nat) (s : State) : (padFrom c n s).errRow = s.errRow := by
  induction n generalizing c s with
  | zero => rfl
  | succ n ih => simp [padFrom, ih]
@[simp] theorem padFrom_errOffset (c n : Nat) (s : State) : (padFrom c n s).errOffset = s.errOffset := by
  induction n generalizing c s with
  | zero => rfl
  | succ n ih => simp [padFrom, ih]
@[simp] theorem padFrom_errFrame (c n : Nat) (s : State) : (padFrom c n s).errFrame = s.errFrame := by
  induction n generalizing c s with
  | zero => rfl
  | succ n ih => simp [padFrom, ih]
@[simp] theorem padFrom_boundsOut (c n : Nat) (s : State) : (padFrom c n s).boundsOut = s.boundsOut := by
  induction n generalizing c s with
  | zero => rfl
  | succ n ih => simp [padFrom, ih]
@[simp] theorem padFrom_cmdoffOut (c n : Nat) (s : State) : (padFrom c n s).cmdoffOut = s.cmdoffOut := by
  induction n generalizing c s with
  | zero => rfl
  | succ n ih => simp [padFrom, ih]
@[simp] theorem padFrom_buf (c n : Nat) (s : State) : (padFrom c n s).buf = s.buf := by
  induction n generalizing c s with
  | zero => rfl
  | succ n ih => simp [padFrom, ih]
@[simp] theorem padFrom_gridCap (c n : Nat) (s : State) : (padFrom c n s).gridCap = s.gridCap := by
  induction n generalizing c s with
  | zero => rfl
  | succ n ih => simp [padFrom, ih]
@[simp] theorem padFrom_draws (c n : Nat) (s : State) : (padFrom c n s).draws = s.draws := by
  induction n generalizing c s with
  | zero => rfl
  | succ n ih => simp [padFrom, ih]
@[simp] theorem padFrom_hostMoves (c n : Nat) (s : State) : (padFrom c n s).hostMoves = s.hostMoves := by
  induction n generalizing c s with
  | zero => rfl
  | succ n ih => simp [padFrom, ih]

@[simp] theorem emitAll_emitted (ps : List Pixel) (s : State) :
    (emitAll ps s).emitted = s.emitted + ps.length := by
  induction ps generalizing s with
  | nil => rfl
  | cons p ps ih => simp [emitAll, ih]; omega

@[simp] theorem emitMany_emitted (n : Nat) (p : Pixel) (s : State) :
    (emitMany n p s).emitted = s.emitted + n := by
  induction n generalizing s with
  | zero => rfl
  | succ n ih => simp [emitMany, ih]; omega

@[simp] theorem nextRow_pending (s : State) : (nextRow s).pending = s.pending := by
  unfold nextRow; split <;> rfl
@[simp] theorem nextRow_desc (s : State) : (nextRow s).desc = s.desc := by
  unfold nextRow; split <;> rfl
@[simp] theorem nextRow_cursor (s : State) : (nextRow s).cursor = s.cursor := by
  unfold nextRow; split <;> rfl
@[simp] theorem nextRow_emitted (s : State) : (nextRow s).emitted = s.emitted := by
  unfold nextRow; split <;> rfl
@[simp] theorem nextRow_expected (s : State) : (nextRow s).expected = s.expected := by
  unfold nextRow; split <;> rfl
@[simp] theorem nextRow_idx (s : State) : (nextRow s).idx = s.idx := by
  unfold nextRow; split <;> rfl
@[simp] theorem nextRow_errCode (s : State) : (nextRow s).errCode = s.errCode := by
  unfold nextRow; split <;> rfl
@[simp] theorem nextRow_errStage (s : State) : (nextRow s).errStage = s.errStage := by
  unfold nextRow; split <;> rfl
@[simp] theorem nextRow_errRow (s : State) : (nextRow s).errRow = s.errRow := by
  unfold nextRow; split <;> rfl
@[simp] theorem nextRow_errOffset (s : State) : (nextRow s).errOffset = s.errOffset := by
  unfold nextRow; split <;> rfl
@[simp] theorem nextRow_errFrame (s : State) : (nextRow s).errFrame = s.errFrame := by
  unfold nextRow; split <;> rfl
@[simp] theorem nextRow_boundsOut (s : State) : (nextRow s).boundsOut = s.boundsOut := by
  unfold nextRow; split <;> rfl
@[simp] theorem nextRow_cmdoffOut (s : State) : (nextRow s).cmdoffOut = s.cmdoffOut := by
  unfold nextRow; split <;> rfl
@[simp] theorem nextRow_grid (s : State) : (nextRow s).grid = s.grid := by
  unfold nextRow; split <;> rfl
@[simp] theorem nextRow_buf (s : State) : (nextRow s).buf = s.buf := by
  unfold nextRow; split <;> rfl
@[simp] theorem nextRow_gridCap (s : State) : (nextRow s).gridCap = s.gridCap := by
  unfold nextRow; split <;> rfl
@[simp] theorem nextRow_draws (s : State) : (nextRow s).draws = s.draws := by
  unfold nextRow; split <;> rfl
@[simp] theorem nextRow_hostMoves (s : State) : (nextRow s).hostMoves = s.hostMoves := by
  unfold nextRow; split <;> rfl
@[simp] theorem nextRow_row (s : State) : (nextRow s).row = s.row + 1 := by
  unfold nextRow; split <;> rfl

@[simp] theorem moveCursor_moveCursor (c d : Nat) (s : State) :
    moveCursor c (moveCursor d s) = moveCursor c s := rfl

@[simp] theorem advance_eq (s : State) : advance s = moveCursor (s.cursor + 1) s := rfl

@[simp] theorem moveCursor_boundAt (c : Nat) (s : State) (r : Nat) : (moveCursor c s).boundAt r = s.boundAt r := rfl

@[simp] theorem moveCursor_pixel? (c : Nat) (s : State) (r k : Nat) :
    (moveCursor c s).pixel? r k = s.pixel? r k := rfl

/-- The stores' reads depend on the lists and the draw number only. -/
theorem boundAt_congr {s t : State} (h : t.boundsOut = s.boundsOut) (hd : t.draws = s.draws) (r : Nat) :
    t.boundAt r = s.boundAt r := by simp [State.boundAt, h, hd]

theorem offsetAt_congr {s t : State} (h : t.cmdoffOut = s.cmdoffOut) (hd : t.draws = s.draws) (r : Nat) :
    t.offsetAt r = s.offsetAt r := by simp [State.offsetAt, h, hd]

@[simp] theorem emit_boundAt (p : Pixel) (s : State) (r : Nat) : (emit p s).boundAt r = s.boundAt r := rfl

@[simp] theorem emitAll_boundAt (ps : List Pixel) (s : State) (r : Nat) :
    (emitAll ps s).boundAt r = s.boundAt r := boundAt_congr (by simp) (by simp) r

@[simp] theorem padFrom_boundAt (c n : Nat) (s : State) (r : Nat) :
    (padFrom c n s).boundAt r = s.boundAt r := boundAt_congr (by simp) (by simp) r

end Sys2Proof.Machine
end

