-- ==== Sys2Proof/Laws/Ops.lean ====
section
/-! SUPPORT. For each shared operation, one lemma that says once everything it can do. -/

namespace Sys2Proof.Machine

/-! ### Reads -/

theorem memRead_ok {a n : Nat} {s : State} (h : a + n ≤ s.buf.len) :
    memRead a n s = .ok (s.buf.littleEndian a n) := by simp [memRead, h]

theorem memRead_error {a n : Nat} {s : State} (h : s.buf.len < a + n) :
    memRead a n s = .error (raise .truncatedInput a s) := by
  simp [memRead, Nat.not_le.mpr h]

theorem nextByte_ok {s : State} (h : s.cursor + 1 < s.buf.len) :
    nextByte s = .ok (s.buf.byte (s.cursor + 1), (moveCursor (s.cursor + 1) s)) := by
  have h' : s.cursor + 1 + 1 ≤ s.buf.len := h
  simp [nextByte, memRead, h', Memory.littleEndian_one]

theorem nextByte_error {s : State} (h : s.buf.len ≤ s.cursor + 1) :
    nextByte s =
      .error (raise .truncatedInput (s.cursor + 1) (moveCursor (s.cursor + 1) s)) := by
  have h' : ¬ s.cursor + 1 + 1 ≤ s.buf.len := by omega
  simp [nextByte, memRead, h']

/-! ### The grid -/

theorem pixel?_gridPut (s : State) (r c : Nat) (w : BitVec 16) (r' c' : Nat) :
    ({ s with grid := gridPut r c w s.grid } : State).pixel? r' c' =
      if r' = r ∧ c' = c then some w else s.pixel? r' c' := by
  unfold State.pixel? gridPut
  simp only [Cells.get_put]
  by_cases hr : r' = r
  · subst hr
    simp only [if_true, Option.bind_some, Cells.get_put, true_and]
    split
    · rfl
    · cases Cells.get s.grid r' <;> simp
  · simp [hr]

theorem writePixel_pixel? (r c : Nat) (p : Pixel) (s : State) (r' c' : Nat) :
    (writePixel r c p s).pixel? r' c' = if r' = r ∧ c' = c then some p.word else s.pixel? r' c' :=
  pixel?_gridPut s r c p.word r' c'

theorem pixel?_congr {s t : State} (h : t.grid = s.grid) (r c : Nat) : t.pixel? r c = s.pixel? r c := by
  simp [State.pixel?, h]

/-- R142: what one emitted pixel writes. -/
theorem emit_pixel? (p : Pixel) (s : State) (r c : Nat) :
    (emit p s).pixel? r c =
      if (s.emitted : Int) < s.expected ∧ r = s.row ∧ c = (s.boundAt s.row).left.toNat + s.emitted then
        some p.word
      else s.pixel? r c := by
  by_cases h : (s.emitted : Int) < s.expected
  · have : (emit p s).grid =
        ({ s with grid := gridPut s.row ((s.boundAt s.row).left.toNat + s.emitted) p.word s.grid } :
          State).grid := by simp [emit_grid, h]
    rw [pixel?_congr this, pixel?_gridPut]
    simp [h]
  · have : (emit p s).grid = s.grid := by simp [emit_grid, h]
    rw [pixel?_congr this]
    simp [h]

/-- R142: what a run of emitted pixels writes: the `k`-th into column `LEFT + EMITTED + k`, while that is short of
`EXPECTED`. -/
theorem emitAll_pixel? (ps : List Pixel) (s : State) (r c : Nat) :
    (emitAll ps s).pixel? r c =
      if r = s.row ∧ (s.boundAt s.row).left.toNat + s.emitted ≤ c ∧
          ((c - (s.boundAt s.row).left.toNat : Nat) : Int) < s.expected then
        (ps[c - (s.boundAt s.row).left.toNat - s.emitted]?.map Pixel.word).or (s.pixel? r c)
      else s.pixel? r c := by
  induction ps generalizing s with
  | nil => simp [emitAll]
  | cons p ps ih =>
    simp only [emitAll, ih, emit_row, emit_boundAt, emit_expected, emit_emitted, emit_pixel?]
    generalize hb : (s.boundAt s.row).left.toNat = b
    by_cases hr : r = s.row
    · by_cases hc : b + s.emitted ≤ c
      · obtain ⟨k, rfl⟩ : ∃ k, c = b + s.emitted + k := ⟨c - b - s.emitted, by omega⟩
        have e1 : b + s.emitted + k - b = s.emitted + k := by omega
        have e2 : s.emitted + k - s.emitted = k := by omega
        rw [e1, e2]
        cases k with
        | zero =>
          by_cases hx : (s.emitted : Int) < s.expected <;> simp [hr, hx]
        | succ k =>
          have e3 : s.emitted + (k + 1) - (s.emitted + 1) = k := by omega
          have e4 : b + (s.emitted + 1) ≤ b + s.emitted + (k + 1) := by omega
          rw [e3]
          simp [hr, e4]
      · have h1 : ¬ b + (s.emitted + 1) ≤ c := by omega
        have h2 : ¬ c = b + s.emitted := by omega
        simp [hc, h1, h2]
    · simp [hr]

/-- R143: what padding writes: Transparent words in its columns, nothing else. -/
theorem padFrom_pixel? (c n : Nat) (s : State) (r k : Nat) :
    (padFrom c n s).pixel? r k =
      if r = s.row ∧ c ≤ k ∧ k < c + n then some Pixel.transparent.word else s.pixel? r k := by
  induction n generalizing c s with
  | zero =>
    have : ¬ (c ≤ k ∧ k < c) := by omega
    simp [padFrom, this]
  | succ n ih =>
    simp only [padFrom, ih, writePixel_row, writePixel_pixel?]
    by_cases hr : r = s.row
    · by_cases h1 : k = c
      · have : ¬ c + 1 ≤ c := by omega
        simp [hr, h1]
      · by_cases h2 : c + 1 ≤ k ∧ k < c + 1 + n
        · have : c ≤ k ∧ k < c + (n + 1) := by omega
          simp [hr, h2, this]
        · have : ¬ (c ≤ k ∧ k < c + (n + 1)) := by omega
          simp only [hr, h1, h2, this, and_false, if_false]
    · simp [hr]

/-! ### Emitting: changes of form -/

theorem emitMany_eq_emitAll (n : Nat) (p : Pixel) (s : State) :
    emitMany n p s = emitAll (List.replicate n p) s := by
  induction n generalizing s with
  | zero => rfl
  | succ n ih => simp [emitMany, List.replicate_succ, emitAll, ih]

theorem emitAll_append (ps qs : List Pixel) (s : State) :
    emitAll (ps ++ qs) s = emitAll qs (emitAll ps s) := by
  induction ps generalizing s with
  | nil => rfl
  | cons p ps ih => exact ih _

@[simp] theorem emitAll_nil (s : State) : emitAll [] s = s := rfl

/-- Emitting does not look at the cursor. -/
theorem emitAll_cursor_comm (ps : List Pixel) (s : State) (c : Nat) :
    emitAll ps (moveCursor c s) = moveCursor c (emitAll ps s) := by
  induction ps generalizing s with
  | nil => rfl
  | cons p ps ih => exact ih (emit p s)

/-! ### The operand forms -/

/-- PEC, short form (R96). -/
theorem packedCount_short {value : Nat} {s : State} (h : value ≠ 0) :
    packedCount value s = .ok (value, s) := by simp [packedCount, h]

/-- PEC, long form (R96). -/
theorem packedCount_long {s : State} (h : s.cursor + 1 < s.buf.len) :
    packedCount 0 s =
      .ok ((s.buf.byte (s.cursor + 1)).toNat, (moveCursor (s.cursor + 1) s)) := by
  simp [packedCount, nextByte_ok h]

theorem packedCount_truncated {s : State} (h : s.buf.len ≤ s.cursor + 1) :
    packedCount 0 s =
      .error (raise .truncatedInput (s.cursor + 1) (moveCursor (s.cursor + 1) s)) := by
  simp [packedCount, nextByte_error h]

/-- R97: the 12-bit count as a sum. -/
theorem bigCount_toNat (high : BitVec 4) (b : Byte) :
    (high ++ b : BitVec 12).toNat = 256 * high.toNat + b.toNat := by
  rw [BitVec.toNat_append, Nat.shiftLeft_eq_mul_pow]
  have := Nat.two_pow_add_eq_or_of_lt (i := 8) b.isLt high.toNat
  rw [Nat.mul_comm high.toNat, ← this]

theorem bigCount_ok {high : BitVec 4} {s : State} (h : s.cursor + 1 < s.buf.len) :
    bigCount high s =
      .ok (256 * high.toNat + (s.buf.byte (s.cursor + 1)).toNat, (moveCursor (s.cursor + 1) s)) := by
  simp only [bigCount, nextByte_ok h, bigCount_toNat]

theorem bigCount_truncated {high : BitVec 4} {s : State} (h : s.buf.len ≤ s.cursor + 1) :
    bigCount high s =
      .error (raise .truncatedInput (s.cursor + 1) (moveCursor (s.cursor + 1) s)) := by
  simp [bigCount, nextByte_error h]

theorem extendedCount_ok {s : State} (h : s.cursor + 1 < s.buf.len) :
    extendedCount s =
      .ok ((s.buf.byte (s.cursor + 1)).toNat, (moveCursor (s.cursor + 1) s)) := by
  simp [extendedCount, nextByte_ok h]

theorem extendedCount_truncated {s : State} (h : s.buf.len ≤ s.cursor + 1) :
    extendedCount s =
      .error (raise .truncatedInput (s.cursor + 1) (moveCursor (s.cursor + 1) s)) := by
  simp [extendedCount, nextByte_error h]

/-- A run of index bytes that all lie in the buffer. -/
theorem drawRun_ok {mk : Byte → Pixel} {n : Nat} {s : State} (h : n = 0 ∨ s.cursor + n < s.buf.len) :
    drawRun mk n s =
      .ok (moveCursor (s.cursor + n) (emitAll ((s.buf.bytesFrom (s.cursor + 1) n).map mk) s)) := by
  induction n generalizing s with
  | zero => rfl
  | succ n ih =>
    have h1 : s.cursor + 1 < s.buf.len := by omega
    simp only [drawRun, nextByte_ok h1]
    rw [ih (by simp only [emit_cursor, emit_buf, moveCursor_cursor, moveCursor_buf]; omega)]
    simp only [emit_cursor, emit_buf, moveCursor_cursor, moveCursor_buf, Memory.bytesFrom, List.map_cons, emitAll]
    have hc : emit (mk (s.buf.byte (s.cursor + 1))) (moveCursor (s.cursor + 1) s) =
        moveCursor (s.cursor + 1) (emit (mk (s.buf.byte (s.cursor + 1))) s) := rfl
    rw [hc, emitAll_cursor_comm, moveCursor_moveCursor]
    have e1 : s.cursor + 1 + n = s.cursor + (n + 1) := by omega
    rw [e1]

/-- A run of index bytes that leaves the buffer: the pixels before the first missing byte are emitted, and that byte's
address is recorded. -/
theorem drawRun_truncated {mk : Byte → Pixel} {n : Nat} {s : State} (h0 : n ≠ 0)
    (h : s.buf.len ≤ s.cursor + n) :
    drawRun mk n s =
      .error (raise .truncatedInput (max (s.cursor + 1) s.buf.len)
        (moveCursor (max (s.cursor + 1) s.buf.len)
          (emitAll ((s.buf.bytesFrom (s.cursor + 1) (s.buf.len - (s.cursor + 1))).map mk) s))) := by
  induction n generalizing s with
  | zero => contradiction
  | succ n ih =>
    by_cases h1 : s.cursor + 1 < s.buf.len
    · simp only [drawRun, nextByte_ok h1]
      rw [ih (by omega) (by simp only [emit_cursor, emit_buf, moveCursor_cursor, moveCursor_buf]; omega)]
      have e1 : max (s.cursor + 1 + 1) s.buf.len = s.buf.len := by omega
      have e2 : max (s.cursor + 1) s.buf.len = s.buf.len := by omega
      have e3 : s.buf.len - (s.cursor + 1) = (s.buf.len - (s.cursor + 1 + 1)) + 1 := by omega
      simp only [emit_cursor, emit_buf, moveCursor_cursor, moveCursor_buf, e1, e2, e3, Memory.bytesFrom,
        List.map_cons, emitAll]
      have hc : emit (mk (s.buf.byte (s.cursor + 1))) (moveCursor (s.cursor + 1) s) =
          moveCursor (s.cursor + 1) (emit (mk (s.buf.byte (s.cursor + 1))) s) := rfl
      rw [hc, emitAll_cursor_comm, moveCursor_moveCursor]
    · have h2 : s.buf.len ≤ s.cursor + 1 := by omega
      have e1 : max (s.cursor + 1) s.buf.len = s.cursor + 1 := by omega
      have e2 : s.buf.len - (s.cursor + 1) = 0 := by omega
      simp [drawRun, nextByte_error h2, e1, e2, Memory.bytesFrom]

theorem fillRun_ok {mk : Byte → Pixel} {n : Nat} {s : State} (h : s.cursor + 1 < s.buf.len) :
    fillRun mk n s =
      .ok (moveCursor (s.cursor + 1) (emitAll (List.replicate n (mk (s.buf.byte (s.cursor + 1)))) s)) := by
  simp only [fillRun, nextByte_ok h, emitMany_eq_emitAll, emitAll_cursor_comm]

theorem fillRun_truncated {mk : Byte → Pixel} {n : Nat} {s : State} (h : s.buf.len ≤ s.cursor + 1) :
    fillRun mk n s =
      .error (raise .truncatedInput (s.cursor + 1) (moveCursor (s.cursor + 1) s)) := by
  simp [fillRun, nextByte_error h]

theorem repeatPixel_eq (p : Pixel) (n : Nat) (s : State) :
    repeatPixel p n s = .ok (emitAll (List.replicate n p) s) := by
  simp [repeatPixel, emitMany_eq_emitAll]

@[simp] theorem withCount_ok (n : Nat) (s : State) (body : Nat → State → Except State State) :
    withCount (.ok (n, s)) body = body n s := rfl

@[simp] theorem withCount_error (s : State) (body : Nat → State → Except State State) :
    withCount (.error s) body = .error s := rfl

@[simp] theorem retire_ok (s : State) : retire (.ok s) = .next (advance s) := rfl

@[simp] theorem retire_error (s : State) : retire (.error s) = .next s := rfl

end Sys2Proof.Machine
end

