-- ==== Sys2Proof/Laws/Exec.lean ====
section
/-! SUPPORT. What a command can do, said once: it emits some pixels and moves the cursor forward, or enters an error
after some pixels, or is an EOR. -/

namespace Sys2Proof.Machine

/-- R49: pixels of the six kinds that commands emit. -/
def SixKinds (ps : List Pixel) : Prop := ∀ p ∈ ps, p.isEmitted = true

theorem SixKinds.nil : SixKinds [] := fun _ h => nomatch h

theorem SixKinds.replicate {p : Pixel} (hp : p.isEmitted = true) (n : Nat) : SixKinds (List.replicate n p) :=
  fun q hq => by rw [List.eq_of_mem_replicate hq]; exact hp

theorem SixKinds.map {mk : Byte → Pixel} (hmk : ∀ b, (mk b).isEmitted = true) (bs : List Byte) :
    SixKinds (bs.map mk) := fun p hp => by
  obtain ⟨b, -, rfl⟩ := List.mem_map.mp hp
  exact hmk b

/-- Emitting pixels of a count up to `k` and moving the cursor on, or running out of buffer after some of them. -/
def OperandResult (s : State) (k : Nat) (x : Except State State) : Prop :=
  (∃ ps c, ps.length ≤ k ∧ SixKinds ps ∧ s.cursor ≤ c ∧ x = .ok (moveCursor c (emitAll ps s))) ∨
    ∃ ps c, ps.length ≤ k ∧ SixKinds ps ∧ s.cursor < c ∧ s.buf.len ≤ c ∧
      x = .error (raise .truncatedInput c (moveCursor c (emitAll ps s)))

theorem OperandResult.mono {s : State} {k l : Nat} {x : Except State State} (h : OperandResult s k x)
    (hkl : k ≤ l) : OperandResult s l x := by
  rcases h with ⟨ps, c, h1, hk, h2, rfl⟩ | ⟨ps, c, h1, hk, h2, h3, rfl⟩
  · exact .inl ⟨ps, c, le_trans h1 hkl, hk, h2, rfl⟩
  · exact .inr ⟨ps, c, le_trans h1 hkl, hk, h2, h3, rfl⟩

/-- A result from a later cursor is a result from the earlier one. -/
theorem OperandResult.of_moved {s : State} {k d : Nat} {x : Except State State} (hd : s.cursor ≤ d)
    (h : OperandResult (moveCursor d s) k x) : OperandResult s k x := by
  rcases h with ⟨ps, c, h1, hk, h2, rfl⟩ | ⟨ps, c, h1, hk, h2, h3, rfl⟩
  · exact .inl ⟨ps, c, h1, hk, le_trans hd h2, by rw [emitAll_cursor_comm, moveCursor_moveCursor]⟩
  · exact .inr ⟨ps, c, h1, hk, lt_of_le_of_lt hd h2, h3, by rw [emitAll_cursor_comm, moveCursor_moveCursor]⟩

theorem drawRun_result {mk : Byte → Pixel} (hmk : ∀ b, (mk b).isEmitted = true) (n : Nat) (s : State) :
    OperandResult s n (drawRun mk n s) := by
  by_cases h : n = 0 ∨ s.cursor + n < s.buf.len
  · exact .inl ⟨_, _, by simp, SixKinds.map hmk _, by omega, drawRun_ok h⟩
  · have h0 : n ≠ 0 := fun hn => h (.inl hn)
    have h1 : s.buf.len ≤ s.cursor + n := by omega
    exact .inr ⟨_, _, by simp; omega, SixKinds.map hmk _, by omega, by omega, drawRun_truncated h0 h1⟩

theorem fillRun_result {mk : Byte → Pixel} (hmk : ∀ b, (mk b).isEmitted = true) (n : Nat) (s : State) :
    OperandResult s n (fillRun mk n s) := by
  by_cases h : s.cursor + 1 < s.buf.len
  · exact .inl ⟨_, _, by simp, SixKinds.replicate (hmk _) n, by omega, fillRun_ok h⟩
  · have h1 : s.buf.len ≤ s.cursor + 1 := by omega
    exact .inr ⟨[], _, by simp, SixKinds.nil, by omega, h1, fillRun_truncated h1⟩

theorem repeatPixel_result {p : Pixel} (hp : p.isEmitted = true) (n : Nat) (s : State) :
    OperandResult s n (repeatPixel p n s) :=
  .inl ⟨List.replicate n p, s.cursor, by simp, SixKinds.replicate hp n, le_refl _, by
    rw [repeatPixel_eq, ← emitAll_cursor_comm]; rfl⟩

/-- A count byte out of the buffer, as an operand result. -/
theorem missingCount_result {s : State} (k : Nat) (h : s.buf.len ≤ s.cursor + 1) :
    OperandResult s k
      (.error (raise .truncatedInput (s.cursor + 1) (moveCursor (s.cursor + 1) s))) :=
  .inr ⟨[], s.cursor + 1, by simp, SixKinds.nil, by omega, h, rfl⟩

theorem withPackedCount_result {body : Nat → State → Except State State}
    (hb : ∀ n s, OperandResult s n (body n s)) (value k : Nat) (s : State) (hv : value ≤ k) (hk : 255 ≤ k) :
    OperandResult s k (withCount (packedCount value s) body) := by
  by_cases h0 : value = 0
  · subst h0
    by_cases h : s.cursor + 1 < s.buf.len
    · rw [packedCount_long h]
      refine OperandResult.of_moved (Nat.le_succ _) ((hb _ _).mono ?_)
      have := (s.buf.byte (s.cursor + 1)).isLt
      omega
    · have h1 : s.buf.len ≤ s.cursor + 1 := by omega
      rw [packedCount_truncated h1]
      exact missingCount_result k h1
  · rw [packedCount_short h0]
    exact (hb _ _).mono hv

theorem withBigCount_result {body : Nat → State → Except State State}
    (hb : ∀ n s, OperandResult s n (body n s)) (high : BitVec 4) (s : State) :
    OperandResult s 4095 (withCount (bigCount high s) body) := by
  by_cases h : s.cursor + 1 < s.buf.len
  · rw [bigCount_ok h]
    refine OperandResult.of_moved (Nat.le_succ _) ((hb _ _).mono ?_)
    have h1 := (s.buf.byte (s.cursor + 1)).isLt
    have h2 := high.isLt
    omega
  · have h1 : s.buf.len ≤ s.cursor + 1 := by omega
    rw [bigCount_truncated h1]
    exact missingCount_result _ h1

theorem withExtendedCount_result {body : Nat → State → Except State State}
    (hb : ∀ n s, OperandResult s n (body n s)) (s : State) :
    OperandResult s 4095 (withCount (extendedCount s) body) := by
  by_cases h : s.cursor + 1 < s.buf.len
  · rw [extendedCount_ok h]
    refine OperandResult.of_moved (Nat.le_succ _) ((hb _ _).mono ?_)
    have h1 := (s.buf.byte (s.cursor + 1)).isLt
    omega
  · have h1 : s.buf.len ≤ s.cursor + 1 := by omega
    rw [extendedCount_truncated h1]
    exact missingCount_result _ h1

/-- What the meaning of a command other than EOR does to the row: at most 4095 pixels (R101) of the six kinds,
the cursor forward; or an
error: TruncatedInput past the buffer's end after some pixels, or UnknownExtendedCommand at once. -/
def CommandResult (s t : State) : Prop :=
  (∃ ps c, ps.length ≤ 4095 ∧ SixKinds ps ∧ s.cursor < c ∧ t = moveCursor c (emitAll ps s)) ∨
    (∃ ps c, ps.length ≤ 4095 ∧ SixKinds ps ∧ s.cursor < c ∧ s.buf.len ≤ c ∧
      t = raise .truncatedInput c (moveCursor c (emitAll ps s))) ∨
    t = raise .unknownExtendedCommand s.cursor s

theorem retire_result {s : State} {x : Except State State} (h : OperandResult s 4095 x) :
    ∃ t, retire x = .next t ∧ CommandResult s t := by
  rcases h with ⟨ps, c, h1, hk, h2, rfl⟩ | ⟨ps, c, h1, hk, h2, h3, rfl⟩
  · exact ⟨_, rfl, .inl ⟨ps, c + 1, h1, hk, by omega, by simp⟩⟩
  · exact ⟨_, rfl, .inr (.inl ⟨ps, c, h1, hk, h2, h3, rfl⟩)⟩

theorem noOperation_result (s : State) : ∃ t, noOperation s = .next t ∧ CommandResult s t :=
  ⟨_, rfl, .inl ⟨[], s.cursor + 1, by simp, SixKinds.nil, by omega, rfl⟩⟩

theorem reservedExtended_result (s : State) : ∃ t, reservedExtended s = .next t ∧ CommandResult s t :=
  ⟨_, rfl, .inr (.inr rfl)⟩

theorem emitOne_result {p : Pixel} (hp : p.isEmitted = true) (s : State) :
    ∃ t, retire (.ok (emit p s)) = .next t ∧ CommandResult s t :=
  ⟨_, rfl, .inl ⟨[p], s.cursor + 1, by simp, SixKinds.replicate hp 1, by omega, rfl⟩⟩

/-- What an EOR does (R171). -/
def EorResult (s t : State) : Prop :=
  (s.ExactCount ∧ t = { s with phase := .rowEnd }) ∨ (¬ s.ExactCount ∧ t = raise .rowOverrun s.cursor s)

/-- Every command answers a next state, of one of the shapes above. -/
theorem exec_result (i : Instr) (s : State) :
    ∃ t, exec i s = .next t ∧ ((∃ high, i = .eor high ∧ EorResult s t) ∨ CommandResult s t) := by
  have nib : ∀ v : BitVec 4, v.toNat ≤ 4095 := fun v => by have := v.isLt; omega
  have les : ∀ v : BitVec 6, v.toNat ≤ 4095 := fun v => by have := v.isLt; omega
  have put : ∀ {x : Host.Outcome State Fault Refusal}, (∃ t, x = .next t ∧ CommandResult s t) →
      ∃ t, x = .next t ∧ ((∃ high, i = .eor high ∧ EorResult s t) ∨ CommandResult s t) :=
    fun ⟨t, h, r⟩ => ⟨t, h, .inr r⟩
  cases i with
  | ldraw count => exact put (retire_result ((drawRun_result (fun _ => rfl) _ _).mono (les count)))
  | lskip value =>
    exact put (retire_result (withPackedCount_result (repeatPixel_result rfl) _ _ _ (les value) (by omega)))
  | bdraw high => exact put (retire_result (withBigCount_result (drawRun_result fun _ => rfl) _ _))
  | bskip high => exact put (retire_result (withBigCount_result (repeatPixel_result rfl) _ _))
  | player value =>
    exact put (retire_result (withPackedCount_result (drawRun_result fun _ => rfl) _ _ _ (nib value) (by omega)))
  | fill value =>
    exact put (retire_result (withPackedCount_result (fillRun_result fun _ => rfl) _ _ _ (nib value) (by omega)))
  | pfill value =>
    exact put (retire_result (withPackedCount_result (fillRun_result fun _ => rfl) _ _ _ (nib value) (by omega)))
  | sfill value =>
    exact put (retire_result (withPackedCount_result (repeatPixel_result rfl) _ _ _ (nib value) (by omega)))
  | xflip0 => exact put (noOperation_result s)
  | xflip1 => exact put (noOperation_result s)
  | xpal0 => exact put (noOperation_result s)
  | xpal1 => exact put (noOperation_result s)
  | sp1 => exact put (emitOne_result rfl s)
  | sp1n => exact put (retire_result (withExtendedCount_result (repeatPixel_result rfl) _))
  | sp2 => exact put (emitOne_result rfl s)
  | sp2n => exact put (retire_result (withExtendedCount_result (repeatPixel_result rfl) _))
  | xda8 => exact put (noOperation_result s)
  | xda9 => exact put (noOperation_result s)
  | xdaa => exact put (noOperation_result s)
  | rsvdBE => exact put (reservedExtended_result s)
  | rsvdCE => exact put (reservedExtended_result s)
  | rsvdDE => exact put (reservedExtended_result s)
  | rsvdEE => exact put (reservedExtended_result s)
  | rsvdFE => exact put (reservedExtended_result s)
  | eor high =>
    by_cases h : s.ExactCount
    · exact ⟨_, if_pos h, .inl ⟨high, rfl, .inl ⟨h, rfl⟩⟩⟩
    · exact ⟨_, if_neg h, .inl ⟨high, rfl, .inr ⟨h, rfl⟩⟩⟩

/-- The inversion of `exec`. -/
theorem exec_cases {i : Instr} {s t : State} (h : exec i s = .next t) :
    (∃ high, i = .eor high ∧ EorResult s t) ∨ CommandResult s t := by
  obtain ⟨u, hu, hr⟩ := exec_result i s
  rw [hu] at h
  cases h
  exact hr

end Sys2Proof.Machine
end

