-- ==== Sys2Proof/Laws/PerInstr.lean ====
section
/-! SUPPORT. The laws that are made per command: each encodes into its own row of spec/opcode_table.json. -/

namespace Sys2Proof.Laws

/-- The command's byte has the fixed bits of its row of the opcode table, the row stands in the table, and no other row
covers the byte (R93, R106). -/
def EncodesItsRow.Statement (i : Instr) : Prop :=
  opcodeTable.filter (fun row => row.covers (encode i)) = [opcodeRow i]

theorem EncodesItsRow.ldraw (count : BitVec 6) : EncodesItsRow.Statement (.ldraw count) := by
  unfold EncodesItsRow.Statement
  revert count
  decide

theorem EncodesItsRow.lskip (value : BitVec 6) : EncodesItsRow.Statement (.lskip value) := by
  unfold EncodesItsRow.Statement
  revert value
  decide

theorem EncodesItsRow.bdraw (high : BitVec 4) : EncodesItsRow.Statement (.bdraw high) := by
  unfold EncodesItsRow.Statement
  revert high
  decide

theorem EncodesItsRow.bskip (high : BitVec 4) : EncodesItsRow.Statement (.bskip high) := by
  unfold EncodesItsRow.Statement
  revert high
  decide

theorem EncodesItsRow.player (value : BitVec 4) : EncodesItsRow.Statement (.player value) := by
  unfold EncodesItsRow.Statement
  revert value
  decide

theorem EncodesItsRow.fill (value : BitVec 4) : EncodesItsRow.Statement (.fill value) := by
  unfold EncodesItsRow.Statement
  revert value
  decide

theorem EncodesItsRow.pfill (value : BitVec 4) : EncodesItsRow.Statement (.pfill value) := by
  unfold EncodesItsRow.Statement
  revert value
  decide

theorem EncodesItsRow.sfill (value : BitVec 4) : EncodesItsRow.Statement (.sfill value) := by
  unfold EncodesItsRow.Statement
  revert value
  decide

theorem EncodesItsRow.xflip0 : EncodesItsRow.Statement .xflip0 := by
  unfold EncodesItsRow.Statement
  decide

theorem EncodesItsRow.xflip1 : EncodesItsRow.Statement .xflip1 := by
  unfold EncodesItsRow.Statement
  decide

theorem EncodesItsRow.xpal0 : EncodesItsRow.Statement .xpal0 := by
  unfold EncodesItsRow.Statement
  decide

theorem EncodesItsRow.xpal1 : EncodesItsRow.Statement .xpal1 := by
  unfold EncodesItsRow.Statement
  decide

theorem EncodesItsRow.sp1 : EncodesItsRow.Statement .sp1 := by
  unfold EncodesItsRow.Statement
  decide

theorem EncodesItsRow.sp1n : EncodesItsRow.Statement .sp1n := by
  unfold EncodesItsRow.Statement
  decide

theorem EncodesItsRow.sp2 : EncodesItsRow.Statement .sp2 := by
  unfold EncodesItsRow.Statement
  decide

theorem EncodesItsRow.sp2n : EncodesItsRow.Statement .sp2n := by
  unfold EncodesItsRow.Statement
  decide

theorem EncodesItsRow.xda8 : EncodesItsRow.Statement .xda8 := by
  unfold EncodesItsRow.Statement
  decide

theorem EncodesItsRow.xda9 : EncodesItsRow.Statement .xda9 := by
  unfold EncodesItsRow.Statement
  decide

theorem EncodesItsRow.xdaa : EncodesItsRow.Statement .xdaa := by
  unfold EncodesItsRow.Statement
  decide

theorem EncodesItsRow.rsvdBE : EncodesItsRow.Statement .rsvdBE := by
  unfold EncodesItsRow.Statement
  decide

theorem EncodesItsRow.rsvdCE : EncodesItsRow.Statement .rsvdCE := by
  unfold EncodesItsRow.Statement
  decide

theorem EncodesItsRow.rsvdDE : EncodesItsRow.Statement .rsvdDE := by
  unfold EncodesItsRow.Statement
  decide

theorem EncodesItsRow.rsvdEE : EncodesItsRow.Statement .rsvdEE := by
  unfold EncodesItsRow.Statement
  decide

theorem EncodesItsRow.rsvdFE : EncodesItsRow.Statement .rsvdFE := by
  unfold EncodesItsRow.Statement
  decide

theorem EncodesItsRow.eor (high : BitVec 4) : EncodesItsRow.Statement (.eor high) := by
  unfold EncodesItsRow.Statement
  revert high
  decide

end Sys2Proof.Laws
end

