-- ==== Sys2Proof/Laws/Step.lean ====
section
/-! SUPPORT. What one turn does, said once: the block's step on the block's turn, else the host's action. -/

namespace Sys2Proof.Machine

/-- The block's turn, its own or a scheduled one, is the block's step with that turn taken off the schedule. -/
theorem step_of_blockTurn {s : State} (h : s.BlockTurn) :
    step s = blockStep { s with hostMoves := s.hostMoves.tail } := by
  obtain h | ⟨rest, h⟩ := h
  · have hs : ({ s with hostMoves := s.hostMoves.tail } : State) = s := by cases s; cases h; rfl
    rw [hs]
    simp only [step, h]
  · simp only [step, h, List.tail_cons]

/-- The host's turn is its action with that turn taken off the schedule. -/
theorem step_of_hostTurn {s : State} {a : HostAction} {rest : List HostMove}
    (h : s.hostMoves = .act a :: rest) : step s = hostAct a { s with hostMoves := rest } := by
  simp only [step, h]

/-- Every turn is the block's or the host's. -/
theorem turn_cases (s : State) : s.BlockTurn ∨ ∃ a rest, s.hostMoves = .act a :: rest := by
  match h : s.hostMoves with
  | [] => exact .inl (.inl h)
  | .blockTurn :: rest => exact .inl (.inr ⟨rest, h⟩)
  | .act a :: rest => exact .inr ⟨a, rest, rfl⟩

end Sys2Proof.Machine
end

