-- ==== Sys2Proof/Machine/HostImage.lean ====
section
/-! DEFINITION. The host's reading of a file image (20_memory.md R73, R74): the header, and the descriptor of a frame.
The block never makes these reads (R61, 00_scope.md R6); they say what a host writes into the pending descriptor. -/

namespace Sys2Proof.Machine

/-- R73: the file header. -/
structure FileHeader where
  version : BitVec 32
  frameCount : BitVec 32
  comment : List Byte
deriving DecidableEq, Repr

/-- R73: none (the Header Reader's TruncatedInput) where the buffer is shorter than 32 bytes. -/
def readHeader (m : Memory) : Option FileHeader :=
  if Config.headerSize ≤ m.len then
    some
      { version := BitVec.ofNat 32 (m.littleEndian 0 4)
        frameCount := BitVec.ofNat 32 (m.littleEndian 4 4)
        comment := m.bytesFrom 8 24 }
  else none

/-- R74: the address of frame `i`'s FrameInfo record. -/
def frameInfoAddress (i : Nat) : Nat := Config.headerSize + Config.frameInfoSize * i

/-- R74: the descriptor the host writes for frame `i`; none (the Frame-Info Reader's TruncatedInput) where the record
exceeds the buffer. The version comes from the header, the frame kind is the default Main. -/
def readDescriptor (m : Memory) (i : Nat) : Option Descriptor :=
  match readHeader m with
  | none => none
  | some header =>
    let a := frameInfoAddress i
    if a + Config.frameInfoSize ≤ m.len then
      some
        { cmdTableOffset := BitVec.ofNat 32 (m.littleEndian a 4)
          boundsTableOffset := BitVec.ofNat 32 (m.littleEndian (a + 4) 4)
          paletteOffset := BitVec.ofNat 32 (m.littleEndian (a + 8) 4)
          properties := BitVec.ofNat 32 (m.littleEndian (a + 12) 4)
          width := BitVec.ofNat 32 (m.littleEndian (a + 16) 4)
          height := BitVec.ofNat 32 (m.littleEndian (a + 20) 4)
          anchorX := BitVec.ofNat 32 (m.littleEndian (a + 24) 4)
          anchorY := BitVec.ofNat 32 (m.littleEndian (a + 28) 4)
          frameKind := 0#1
          version := header.version
          frameIndex := BitVec.ofNat 32 i }
    else none

/-- R262: what the host does to have frame `i` of an image decoded: bind the image, write the descriptor, issue START. -/
def hostFrameMoves (bytes : List Byte) (d : Descriptor) : List HostMove :=
  [.act (.bindBuffer bytes), .act (.writePending d), .act .start]

end Sys2Proof.Machine
end

