-- ==== Sys2Proof/Tests/Slice0.lean ====
section
/-! SUPPORT. Own tests, expected results taken from spec/ (mostly 95_test_vectors.md, named at each), and for every
obligation with hypotheses a witness that meets them, at the boundaries of each clause. -/

namespace Sys2Proof.Tests

open Sys2Proof Sys2Proof.Machine

/-! ### Helpers -/

/-- The descriptor of a frame of this size. -/
def frameOf (width height : BitVec 32) : Descriptor :=
  { Descriptor.atReset with width := width, height := height }

/-- A row under way: a buffer of these bytes, the cursor at its first, row 0 of a frame of 4 by 1, no padding. -/
def passState (bytes : List Byte) (emitted : Nat) (expected : Int) : State :=
  { State.reset with
    status := .running
    phase := .cmds
    desc := frameOf 4#32 1#32
    emitted := emitted
    expected := expected
    boundsOut := [(0, ⟨0#16, 0#16, false⟩)]
    cmdoffOut := [(0, 0#32)]
    buf := Memory.ofBytes bytes }

/-- A row about to be entered or padded. -/
def rowState (phase : Phase) (width height : BitVec 32) (bound : RowBound) : State :=
  { State.reset with
    status := .running
    phase := phase
    desc := frameOf width height
    boundsOut := [(0, bound)]
    cmdoffOut := [(0, 100#32)] }

/-- A table entry about to be read, both tables at address 0. -/
def tableState (phase : Phase) (height : BitVec 32) (bytes : List Byte) : State :=
  { State.reset with
    status := .running
    phase := phase
    desc := frameOf 1#32 height
    buf := Memory.ofBytes bytes }

/-- The cursor, `EMITTED` and the words of row 0 of a next state that is still running. -/
def ran : Host.Outcome State Fault Refusal → Option (Nat × Nat × List (BitVec 16))
  | .next t =>
    if t.status = .running then some (t.cursor, t.emitted, ((Cells.get t.grid 0).getD []).map Prod.snd)
    else none
  | .fault _ => none
  | .refused _ => none

/-- The code, stage, row and offset of a next state in ERROR, and its `EMITTED`. -/
def raised : Host.Outcome State Fault Refusal → Option (ErrCode × ErrStage × Nat × Nat × Nat)
  | .next t =>
    if t.status = .error then some (t.errCode, t.errStage, t.errRow.toNat, t.errOffset, t.emitted) else none
  | .fault _ => none
  | .refused _ => none

/-- The status and the phase of a next state. -/
def moved : Host.Outcome State Fault Refusal → Option (Status × Phase)
  | .next t => some (t.status, t.phase)
  | .fault _ => none
  | .refused _ => none

/-- The refusal an outcome ends in. -/
def refusedFor : Host.Outcome State Fault Refusal → Option Refusal
  | .next _ => none
  | .fault _ => none
  | .refused r => some r

/-! ### Decoding: words written out bit by bit -/

/-- 30_encoding.md R94: `cmd[7:2]` the field, `cmd[1:0]` the crumb. -/
theorem test_decode_lesser :
    decode 0b10000100#8 = .ok (.ldraw 0b100001#6) ∧ decode 0b10000101#8 = .ok (.lskip 0b100001#6) := by decide

/-- 30_encoding.md R95, R97: `cmd[7:4]` the field, `cmd[3:0]` the low nibble. -/
theorem test_decode_nibble :
    decode 0b10010010#8 = .ok (.bdraw 0b1001#4) ∧ decode 0b10010011#8 = .ok (.bskip 0b1001#4) ∧
      decode 0b10010110#8 = .ok (.player 0b1001#4) ∧ decode 0b10010111#8 = .ok (.fill 0b1001#4) ∧
      decode 0b10011010#8 = .ok (.pfill 0b1001#4) ∧ decode 0b10011011#8 = .ok (.sfill 0b1001#4) ∧
      decode 0b10011111#8 = .ok (.eor 0b1001#4) := by decide

/-- 30_encoding.md R98: low nibble 0xE, the high nibble chooses. -/
theorem test_decode_extended :
    decode 0b00001110#8 = .ok .xflip0 ∧ decode 0b00011110#8 = .ok .xflip1 ∧ decode 0b00101110#8 = .ok .xpal0 ∧
      decode 0b00111110#8 = .ok .xpal1 ∧ decode 0b01001110#8 = .ok .sp1 ∧ decode 0b01011110#8 = .ok .sp1n ∧
      decode 0b01101110#8 = .ok .sp2 ∧ decode 0b01111110#8 = .ok .sp2n ∧ decode 0b10001110#8 = .ok .xda8 ∧
      decode 0b10011110#8 = .ok .xda9 ∧ decode 0b10101110#8 = .ok .xdaa := by decide

/-- 30_encoding.md R103: the reserved bytes. -/
theorem test_decode_reserved :
    decode 0b10111110#8 = .ok .rsvdBE ∧ decode 0b11001110#8 = .ok .rsvdCE ∧ decode 0b11011110#8 = .ok .rsvdDE ∧
      decode 0b11101110#8 = .ok .rsvdEE ∧ decode 0b11111110#8 = .ok .rsvdFE := by decide

/-- 30_encoding.md R106: each byte is covered by exactly one row of the opcode table. -/
theorem test_table_covers_each_byte_once :
    ∀ n ∈ List.range 256, (opcodeTable.filter fun row => row.covers (BitVec.ofNat 8 n)).length = 1 := by decide +kernel

/-- The row that covers a byte is the row of the command it decodes to. -/
theorem test_table_agrees_with_decoder :
    ∀ n ∈ List.range 256,
      (decodeTableWord 8 n).map (fun i => (opcodeRow i).covers (BitVec.ofNat 8 n)) = some true := by decide +kernel

/-- A table word of several bytes is read by its first, least significant byte. -/
theorem test_decode_table_word :
    decodeTableWord 16 0x0504 = some (.ldraw 1#6) ∧ decodeTableWord 24 0x2A0307 = some (.fill 0#4) ∧
      decodeTableWord 8 0xFF = some (.eor 15#4) := by decide

/-! ### Well-formedness: each check refuses -/

theorem test_wellFormed_refuses_reserved :
    Instr.rsvdBE.wellFormed = false ∧ Instr.rsvdCE.wellFormed = false ∧ Instr.rsvdDE.wellFormed = false ∧
      Instr.rsvdEE.wellFormed = false ∧ Instr.rsvdFE.wellFormed = false := by decide

/-- 30_encoding.md R109, one beyond each bound of the constraint column. -/
theorem test_wellFormed_refuses_lines :
    (AsmLine.ldraw (List.replicate 64 0#8)).wellFormed = false ∧ (AsmLine.lskip 0).wellFormed = false ∧
      (AsmLine.lskip 64).wellFormed = false ∧ (AsmLine.lskipX 256).wellFormed = false ∧
      (AsmLine.bskip 4096).wellFormed = false ∧ (AsmLine.player []).wellFormed = false ∧
      (AsmLine.player (List.replicate 16 0#8)).wellFormed = false ∧
      (AsmLine.playerX (List.replicate 256 0#8)).wellFormed = false ∧ (AsmLine.fill 0 0#8).wellFormed = false ∧
      (AsmLine.fill 16 0#8).wellFormed = false ∧ (AsmLine.fillX 256 0#8).wellFormed = false ∧
      (AsmLine.pfill 0 0#8).wellFormed = false ∧ (AsmLine.pfill 16 0#8).wellFormed = false ∧
      (AsmLine.pfillX 256 0#8).wellFormed = false ∧ (AsmLine.sfill 0).wellFormed = false ∧
      (AsmLine.sfill 16).wellFormed = false ∧ (AsmLine.sfillX 256).wellFormed = false ∧
      (AsmLine.sp1n 256).wellFormed = false ∧ (AsmLine.sp2n 256).wellFormed = false ∧
      (AsmLine.eor 16).wellFormed = false := by decide +kernel

theorem test_wellFormed_refuses_long_bdraw : (AsmLine.bdraw (List.replicate 4096 0#8)).wellFormed = false := by
  decide +kernel

/-- 30_encoding.md R110: the ranges of the pseudo-instructions. -/
theorem test_wellFormed_refuses_pseudo :
    (PseudoLine.skip 4096).wellFormed = false ∧ (PseudoLine.shadow 0).wellFormed = false ∧
      (PseudoLine.shadow 256).wellFormed = false ∧ (PseudoLine.fillp 0 0#8).wellFormed = false ∧
      (PseudoLine.fillp 256 0#8).wellFormed = false := by decide

theorem test_wellFormed_refuses_long_draw : (PseudoLine.draw (List.replicate 4096 0#8)).wellFormed = false := by
  decide +kernel

/-! ### The assembler -/

/-- 95_test_vectors.md W1, V3, V6: the bytes of lines. -/
theorem test_assemble :
    assemble [.ldraw [5#8, 6#8], .eor 0] = [0x08#8, 0x05#8, 0x06#8, 0x0F#8] ∧
      assemble [.bdraw [7#8, 8#8], .bskip 261, .fillX 20 42#8, .fill 3 42#8] =
        [0x02#8, 0x02#8, 0x07#8, 0x08#8, 0x13#8, 0x05#8, 0x07#8, 0x14#8, 0x2A#8, 0x37#8, 0x2A#8] := by decide

/-! ### One pass of the command loop (95_test_vectors.md section 2) -/

/-- V1, `0C 01 02 03`. -/
theorem test_ldraw :
    ran (step (passState [0x0C, 0x01, 0x02, 0x03] 0 3)) = some (4, 3, [0x0001, 0x0002, 0x0003]) := by decide

/-- V1, `0C 01 02` with `BUF_LEN` 3: two pixels, then TruncatedInput at 3. -/
theorem test_ldraw_truncated :
    raised (step (passState [0x0C, 0x01, 0x02] 0 3)) = some (.truncatedInput, .row, 0, 3, 2) := by decide

/-- V2, `05` and `01 05`. -/
theorem test_lskip :
    ran (step (passState [0x05] 0 1)) = some (1, 1, [0x0200]) ∧
      ran (step (passState [0x01, 0x05] 0 5)) =
        some (2, 5, [0x0200, 0x0200, 0x0200, 0x0200, 0x0200]) := by decide

/-- V2, `01` alone and `01 00`. -/
theorem test_lskip_long_form_ends :
    raised (step (passState [0x01] 0 5)) = some (.truncatedInput, .row, 0, 1, 0) ∧
      ran (step (passState [0x01, 0x00] 0 0)) = some (2, 0, []) := by decide

/-- V3, `02 02 07 08`. -/
theorem test_bdraw : ran (step (passState [0x02, 0x02, 0x07, 0x08] 0 2)) = some (4, 2, [0x0007, 0x0008]) := by
  decide

/-- V3, `F2 FF 01 02`: the index read fails before the count check. -/
theorem test_bdraw_truncated :
    raised (step (passState [0xF2, 0xFF, 0x01, 0x02] 0 2)) = some (.truncatedInput, .row, 0, 4, 2) := by decide

/-- V4, `03 03` and `03 00`. -/
theorem test_bskip :
    ran (step (passState [0x03, 0x03] 0 3)) = some (2, 3, [0x0200, 0x0200, 0x0200]) ∧
      ran (step (passState [0x03, 0x00] 0 0)) = some (2, 0, []) := by decide

/-- V4, `13 05`: the count is 261; beyond `EXPECTED` nothing is stored (41_row_commands.md R142). -/
theorem test_bskip_high_nibble : ran (step (passState [0x13, 0x05] 0 1)) = some (2, 261, [0x0200]) := by decide +kernel

/-- V5, `26 01 02` and `06 02 09 0A`. -/
theorem test_player :
    ran (step (passState [0x26, 0x01, 0x02] 0 2)) = some (3, 2, [0x0301, 0x0302]) ∧
      ran (step (passState [0x06, 0x02, 0x09, 0x0A] 0 2)) = some (4, 2, [0x0309, 0x030A]) := by decide

/-- V5, `26 01`. -/
theorem test_player_truncated :
    raised (step (passState [0x26, 0x01] 0 2)) = some (.truncatedInput, .row, 0, 2, 1) := by decide

/-- V6, `37 2A`, and `07 00 2A`, whose index byte is still consumed. -/
theorem test_fill :
    ran (step (passState [0x37, 0x2A] 0 3)) = some (2, 3, [0x002A, 0x002A, 0x002A]) ∧
      ran (step (passState [0x07, 0x00, 0x2A] 0 0)) = some (3, 0, []) := by decide

/-- V6, `37`. -/
theorem test_fill_truncated :
    raised (step (passState [0x37] 0 3)) = some (.truncatedInput, .row, 0, 1, 0) := by decide

/-- V7, `2A 04` and `0A 06 03`. -/
theorem test_pfill :
    ran (step (passState [0x2A, 0x04] 0 2)) = some (2, 2, [0x0304, 0x0304]) ∧
      ran (step (passState [0x0A, 0x06, 0x03] 0 6)) =
        some (3, 6, [0x0303, 0x0303, 0x0303, 0x0303, 0x0303, 0x0303]) := by decide

/-- V8, `4B` and `0B 00`. -/
theorem test_sfill :
    ran (step (passState [0x4B] 0 4)) = some (1, 4, [0x0100, 0x0100, 0x0100, 0x0100]) ∧
      ran (step (passState [0x0B, 0x00] 0 0)) = some (2, 0, []) := by decide

/-- V9: the seven recognised bytes without effect. -/
theorem test_recognised_extended :
    ∀ b ∈ [0x0E#8, 0x1E#8, 0x2E#8, 0x3E#8, 0x8E#8, 0x9E#8, 0xAE#8],
      ran (step (passState [b] 0 1)) = some (1, 0, []) := by decide

/-- V9, `4E` and `6E`. -/
theorem test_special_pixels :
    ran (step (passState [0x4E] 0 1)) = some (1, 1, [0x0400]) ∧
      ran (step (passState [0x6E] 0 1)) = some (1, 1, [0x0500]) := by decide

/-- V9, `5E 03`, `5E 00` and `7E 02`. -/
theorem test_special_runs :
    ran (step (passState [0x5E, 0x03] 0 3)) = some (2, 3, [0x0400, 0x0400, 0x0400]) ∧
      ran (step (passState [0x5E, 0x00] 0 3)) = some (2, 0, []) ∧
      ran (step (passState [0x7E, 0x02] 0 2)) = some (2, 2, [0x0500, 0x0500]) := by decide

/-- V9, `5E` alone. -/
theorem test_special_run_truncated :
    raised (step (passState [0x5E] 0 1)) = some (.truncatedInput, .row, 0, 1, 0) := by decide

/-- V9: the reserved bytes. -/
theorem test_reserved :
    ∀ b ∈ [0xBE#8, 0xCE#8, 0xDE#8, 0xEE#8, 0xFE#8],
      raised (step (passState [b] 0 1)) = some (.unknownExtendedCommand, .row, 0, 0, 0) := by decide

/-- V10, `1F` with width 0, and W3, `FF` with two pixels expected. -/
theorem test_eor :
    moved (step (passState [0x1F] 0 0)) = some (.running, .rowEnd) ∧
      raised (step (passState [0xFF] 0 2)) = some (.rowOverrun, .row, 0, 0, 0) := by decide

/-- V10: the count check comes before the reserved byte. -/
theorem test_count_check_before_decode :
    raised (step (passState [0xBE] 3 2)) = some (.rowOverrun, .row, 0, 0, 3) := by decide

/-- V10: the count check comes before the read outside the buffer, which else raises TruncatedInput. -/
theorem test_count_check_before_read :
    raised (step (passState [] 3 2)) = some (.rowOverrun, .row, 0, 0, 3) ∧
      raised (step (passState [] 0 2)) = some (.truncatedInput, .row, 0, 0, 0) := by decide

/-! ### The other steps (95_test_vectors.md W4 and sections 4, 5) -/

/-- V11, V13, V15, V16: height 0; a negative width; 12 elements above a capacity of 10; 9 elements within one of 9. -/
theorem test_check :
    moved (step (rowState .check 5#32 0#32 ⟨0, 0, false⟩)) = some (.done, .check) ∧
      raised (step (rowState .check 0xFFFFFFFF#32 1#32 ⟨0, 0, false⟩)) =
        some (.invalidDimensions, .check, 0, 0, 0) ∧
      raised (step { rowState .check 4#32 3#32 ⟨0, 0, false⟩ with gridCap := some 10 }) =
        some (.invalidDimensions, .check, 0, 0, 0) ∧
      moved (step { rowState .check 3#32 3#32 ⟨0, 0, false⟩ with gridCap := some 9 }) =
        some (.running, .bounds) := by decide

/-- W4: the records `05 00 00 80`, `00 80 FF FF`, `01 80 00 00` and `FF 7F 00 00`. -/
theorem test_bound_records :
    boundOfWord ((Memory.ofBytes [0x05, 0x00, 0x00, 0x80]).littleEndian 0 4) = ⟨0, 0, true⟩ ∧
      boundOfWord ((Memory.ofBytes [0x00, 0x80, 0xFF, 0xFF]).littleEndian 0 4) = ⟨0, 0, true⟩ ∧
      boundOfWord ((Memory.ofBytes [0x01, 0x80, 0x00, 0x00]).littleEndian 0 4) = ⟨32769, 0, false⟩ ∧
      boundOfWord ((Memory.ofBytes [0xFF, 0x7F, 0x00, 0x00]).littleEndian 0 4) = ⟨32767, 0, false⟩ := by decide

/-- V22, V23, with the tables at 0: a record cut short, and one that ends exactly at `BUF_LEN`. -/
theorem test_table_reads_are_all_or_nothing :
    raised (step (tableState .bounds 1#32 [0x00, 0x00, 0x00])) = some (.truncatedInput, .bounds, 0, 0, 0) ∧
      moved (step (tableState .bounds 1#32 [0x00, 0x00, 0x00, 0x00])) = some (.running, .cmdtab) ∧
      raised (step (tableState .cmdtab 1#32 [])) = some (.truncatedInput, .cmdtab, 0, 0, 0) := by decide

/-- V25: the bound 2, 2 in width 3 raises RowOverrun at the row's start, 100, never read. -/
theorem test_row_entry_overrun :
    raised (step (rowState .rowStart 3#32 1#32 ⟨2, 2, false⟩)) = some (.rowOverrun, .row, 0, 100, 0) := by decide

/-- V10, `{2, 3, 0}` in width 9: the left padding. -/
theorem test_row_entry :
    ran (step (rowState .rowStart 9#32 1#32 ⟨2, 3, false⟩)) = some (100, 0, [0x0200, 0x0200]) := by decide

/-- V10, a full row of width 3 with an empty buffer. -/
theorem test_transparent_row :
    ran (step (rowState .rowStart 3#32 2#32 ⟨0, 0, true⟩)) = some (100, 0, [0x0200, 0x0200, 0x0200]) := by decide

/-- V30 and V33: a START while RUNNING is ignored, and a step in DONE changes nothing. -/
theorem test_start_while_running_and_done :
    hostStart (passState [0x0F] 0 0) = passState [0x0F] 0 0 ∧
      moved (step { State.reset with status := .done, phase := .rowEnd }) = some (.done, .rowEnd) := by decide

/-- 20_memory.md R73: a header of 31 bytes is too short. -/
theorem test_short_header : readHeader (Memory.ofBytes (List.replicate 31 0#8)) = none := by decide

/-- The next step of a placed word runs the command of that word. -/
theorem test_withFetchWord :
    ran (step (State.reset.withFetchWord 8 0x4E)) = some (1, 1, []) ∧
      raised (step (State.reset.withFetchWord 8 0xBE)) = some (.unknownExtendedCommand, .row, 0, 0, 0) ∧
      moved (step (State.reset.withFetchWord 8 0x0F)) = some (.running, .rowEnd) ∧
      ran (step (State.reset.withFetchWord 8 0x07)) = some (3, 0, []) := by decide

/-! ### Witnesses: for each obligation with hypotheses, values that meet them, at the ends of each clause's range -/

/-- A host that acts next, in a state of this status. -/
def hostState (status : Status) (a : HostAction) : State :=
  { State.reset with status := status, hostMoves := [.act a] }

/-- Bytes bound as a buffer stand in it. -/
theorem holdsAt_ofBytes (pre bytes : List Byte) : (Memory.ofBytes (pre ++ bytes)).HoldsAt pre.length bytes := by
  refine ⟨by simp, fun k b h => ?_⟩
  have hk : k < bytes.length := (List.getElem?_eq_some_iff.mp h).1
  simp [Memory.byte_ofBytes, List.getD_eq_getElem?_getD, List.getElem?_append_right, h]

/-- Crumbs 0b10 and 0b11 at the lowest and at the highest byte. -/
theorem witness_EveryByteIsACommand :
    lowCrumb 0x02#8 = 0b10#8 ∧ lowCrumb 0xFE#8 = 0b10#8 ∧ lowCrumb 0x03#8 = 0b11#8 ∧ lowCrumb 0xFF#8 = 0b11#8 := by
  decide

/-- Lines at the ends of their ranges. -/
theorem witness_ReadLineOfAssembledLine :
    (AsmLine.ldraw []).wellFormed = true ∧ (AsmLine.ldraw (List.replicate 63 7#8)).wellFormed = true ∧
      (AsmLine.lskip 1).wellFormed = true ∧ (AsmLine.lskip 63).wellFormed = true ∧
      (AsmLine.lskipX 0).wellFormed = true ∧ (AsmLine.lskipX 255).wellFormed = true ∧
      (AsmLine.bdraw []).wellFormed = true ∧ (AsmLine.bdraw (List.replicate 4095 7#8)).wellFormed = true ∧
      (AsmLine.bskip 4095).wellFormed = true ∧ (AsmLine.player [1#8]).wellFormed = true ∧
      (AsmLine.player (List.replicate 15 7#8)).wellFormed = true ∧ (AsmLine.fill 15 0#8).wellFormed = true ∧
      (AsmLine.pfillX 255 0#8).wellFormed = true ∧ (AsmLine.sfill 1).wellFormed = true ∧
      (AsmLine.sp2n 255).wellFormed = true ∧ (AsmLine.eor 15).wellFormed = true := by decide +kernel

theorem witness_AssembledLineOfReadLine :
    readLine [0x08, 0x05, 0x06, 0x0F] = some (.ldraw [5, 6], [0x0F]) ∧ readLine [0xFF] = some (.eor 15, []) ∧
      readLine [0x06, 0x00] = some (.playerX [], []) := by decide

theorem witness_PseudoInstructionsExpandToTheirPixels :
    (PseudoLine.skip 0).wellFormed = true ∧ (PseudoLine.skip 4095).wellFormed = true ∧
      (PseudoLine.draw []).wellFormed = true ∧ (PseudoLine.draw (List.replicate 64 0#8)).wellFormed = true ∧
      (PseudoLine.shadow 255).wellFormed = true ∧ (PseudoLine.fillp 16 9#8).wellFormed = true := by
  decide +kernel

theorem witness_BoundBufferHoldsItsBytes :
    let s := hostState .done (.bindBuffer [0x00, 0x07])
    s.hostMoves = .act (.bindBuffer [0x00, 0x07]) :: [] ∧ s.status ≠ .running ∧ [0x00#8, 0x07#8][1]? = some 0x07#8 := by
  decide

/-- A count of 0 with no byte after it; a count that just fits; one that misses by one byte. -/
theorem witness_LdrawDrawsItsIndices :
    (0#6).toNat = 0 ∧
      (63#6).toNat ≠ 0 ∧ (passState (List.replicate 64 0#8) 0 63).cursor + 1 + (63#6).toNat ≤
        (passState (List.replicate 64 0#8) 0 63).buf.len ∧
      (passState [0x04] 0 1).buf.len < (passState [0x04] 0 1).cursor + 1 + (1#6).toNat := by decide

/-- Values 1 and 63; a long form whose byte is the last, and one whose byte is missing. -/
theorem witness_LskipEmitsTransparent :
    1#6 ≠ 0#6 ∧ 63#6 ≠ 0#6 ∧
      (passState [0x01, 0xFF] 0 255).cursor + 1 < (passState [0x01, 0xFF] 0 255).buf.len ∧
      (passState [0x01] 0 1).buf.len ≤ (passState [0x01] 0 1).cursor + 1 := by decide

/-- A count of 0 at the buffer's end; a run that just fits; one that misses by one byte; no count byte. -/
theorem witness_BdrawDrawsItsIndices :
    let fits := passState [0x02, 0x01, 0x07] 0 1
    let short := passState [0x02, 0x02, 0x07] 0 2
    let none := passState [0xF2] 0 1
    let zero := passState [0x02, 0x00] 0 0
    (zero.cursor + 1 < zero.buf.len ∧ 256 * (0#4).toNat + (zero.buf.byte (zero.cursor + 1)).toNat = 0) ∧
      (fits.cursor + 1 < fits.buf.len ∧
        fits.cursor + 2 + (256 * (0#4).toNat + (fits.buf.byte (fits.cursor + 1)).toNat) ≤ fits.buf.len) ∧
      (short.cursor + 1 < short.buf.len ∧ 256 * (0#4).toNat + (short.buf.byte (short.cursor + 1)).toNat ≠ 0 ∧
        short.buf.len < short.cursor + 2 + (256 * (0#4).toNat + (short.buf.byte (short.cursor + 1)).toNat)) ∧
      none.buf.len ≤ none.cursor + 1 := by decide

theorem witness_BskipEmitsTransparent :
    (passState [0xF3, 0xFF] 0 4).cursor + 1 < (passState [0xF3, 0xFF] 0 4).buf.len ∧
      (passState [0xF3] 0 4).buf.len ≤ (passState [0xF3] 0 4).cursor + 1 := by decide

/-- The short form that fits and that misses by one, the long form with a count of 0, that fits, that misses by one, and
without its count byte. -/
theorem witness_PlayerDrawsItsIndices :
    let fits := passState [0x16, 0x07] 0 1
    let short := passState [0x26, 0x07] 0 1
    let zero := passState [0x06, 0x00] 0 0
    let long := passState [0x06, 0x01, 0x07] 0 1
    let cut := passState [0x06, 0x02, 0x07] 0 1
    let none := passState [0x06] 0 1
    (1#4 ≠ 0#4 ∧ fits.cursor + 1 + (1#4).toNat ≤ fits.buf.len) ∧
      (2#4 ≠ 0#4 ∧ short.buf.len < short.cursor + 1 + (2#4).toNat) ∧
      (zero.cursor + 1 < zero.buf.len ∧ (zero.buf.byte (zero.cursor + 1)).toNat = 0) ∧
      (long.cursor + 1 < long.buf.len ∧
        long.cursor + 2 + (long.buf.byte (long.cursor + 1)).toNat ≤ long.buf.len) ∧
      (cut.cursor + 1 < cut.buf.len ∧ (cut.buf.byte (cut.cursor + 1)).toNat ≠ 0 ∧
        cut.buf.len < cut.cursor + 2 + (cut.buf.byte (cut.cursor + 1)).toNat) ∧
      none.buf.len ≤ none.cursor + 1 := by decide

/-- The short form with and without its index; the long form complete, without its index, without its count. -/
theorem witness_FillsRepeatTheirSharedIndex :
    (15#4 ≠ 0#4 ∧ (passState [0xF7, 0x01] 0 15).cursor + 1 < (passState [0xF7, 0x01] 0 15).buf.len) ∧
      (1#4 ≠ 0#4 ∧ (passState [0x17] 0 1).buf.len ≤ (passState [0x17] 0 1).cursor + 1) ∧
      (passState [0x07, 0xFF, 0x01] 0 255).cursor + 2 < (passState [0x07, 0xFF, 0x01] 0 255).buf.len ∧
      ((passState [0x07, 0xFF] 0 1).cursor + 1 < (passState [0x07, 0xFF] 0 1).buf.len ∧
        (passState [0x07, 0xFF] 0 1).buf.len ≤ (passState [0x07, 0xFF] 0 1).cursor + 2) ∧
      (passState [0x0A] 0 1).buf.len ≤ (passState [0x0A] 0 1).cursor + 1 := by decide

theorem witness_SfillEmitsShadow :
    1#4 ≠ 0#4 ∧ 15#4 ≠ 0#4 ∧
      (passState [0x0B, 0xFF] 0 255).cursor + 1 < (passState [0x0B, 0xFF] 0 255).buf.len ∧
      (passState [0x0B] 0 1).buf.len ≤ (passState [0x0B] 0 1).cursor + 1 := by decide

theorem witness_SpecialRunsEmitTheirCount :
    (passState [0x5E, 0x00] 0 0).cursor + 1 < (passState [0x5E, 0x00] 0 0).buf.len ∧
      (passState [0x7E] 0 0).buf.len ≤ (passState [0x7E] 0 0).cursor + 1 := by decide

/-- An exact count, one too few, one too many. -/
theorem witness_EorEndsAnExactRowAndRejectsAnyOther :
    ((passState [0x0F] 2 2).emitted : Int) = (passState [0x0F] 2 2).expected ∧
      ((passState [0x0F] 1 2).emitted : Int) ≠ (passState [0x0F] 1 2).expected ∧
      ((passState [0x0F] 3 2).emitted : Int) ≠ (passState [0x0F] 3 2).expected := by decide

/-- The last pixel of a list that falls short of `EXPECTED`. -/
theorem witness_EmittedPixelsLandInTheRow :
    [Pixel.shadow, Pixel.special1][1]? = some Pixel.special1 ∧
      (((passState [] 1 3).emitted + 1 : Nat) : Int) < (passState [] 1 3).expected := by decide

/-- A drawing command, an EOR and one that runs out of buffer, from a RUNNING state. -/
theorem witness_CommandsKeepTheirFrame :
    (∃ t, exec (.ldraw 1#6) (passState [0x04, 0x05] 0 1) = .next t ∧ t.status = .running) ∧
      (∃ t, exec (.eor 0#4) (passState [0x0F] 0 0) = .next t ∧ t.phase = .rowEnd) ∧
      (∃ t, exec (.ldraw 1#6) (passState [0x04] 0 1) = .next t ∧ t.status = .error) :=
  ⟨⟨_, rfl, rfl⟩, ⟨_, rfl, rfl⟩, ⟨_, rfl, rfl⟩⟩

/-- A plain command and an EOR that leave the state RUNNING. -/
theorem witness_CommandsConsumeTheirLength :
    (passState [0x4E] 0 1).status = .running ∧
      (∃ t, exec .sp1 (passState [0x4E] 0 1) = .next t ∧ t.status = .running) ∧
      (∃ t, exec (.eor 0#4) (passState [0x0F] 0 0) = .next t ∧ t.status = .running) :=
  ⟨rfl, ⟨_, rfl, rfl⟩, ⟨_, rfl, rfl⟩⟩

/-- A command that is no EOR, on operands where the pure function gives pixels and on operands where it does not. -/
theorem witness_CommandsFollowTheirPixelFunction :
    (∀ high, Instr.player 2#4 ≠ .eor high) ∧
      commandPixels (Memory.ofBytes [0x26, 0x01, 0x02]) 0 (.player 2#4) =
        .ok ([Pixel.player 1#8, Pixel.player 2#8], 3) ∧
      commandPixels (Memory.ofBytes [0x26, 0x01]) 0 (.player 2#4) = .error ⟨.truncatedInput, 2⟩ := by decide

theorem witness_AssembledLineRunsAsWritten :
    let s := passState (AsmLine.ldraw [5#8, 6#8]).bytes 0 2
    (AsmLine.ldraw [5#8, 6#8]).wellFormed = true ∧ (∀ k, AsmLine.ldraw [5#8, 6#8] ≠ .eor k) ∧ s.status = .running ∧
      s.phase = .cmds ∧ s.hostMoves = [] ∧ (s.emitted : Int) ≤ s.expected ∧
      s.buf.HoldsAt s.cursor (AsmLine.ldraw [5#8, 6#8]).bytes :=
  ⟨by decide, (fun _ h => nomatch h), rfl, rfl, rfl, by decide, holdsAt_ofBytes [] _⟩

/-- The count just reached and the command byte the buffer's last, on the block's own turn and on a scheduled one. -/
theorem witness_StepRunsTheDecodedCommand :
    let s := passState [0x4E] 1 1
    (s.status = .running ∧ s.phase = .cmds ∧ (s.emitted : Int) ≤ s.expected ∧ s.cursor < s.buf.len ∧
        decode (s.buf.byte s.cursor) = .ok .sp1 ∧ s.hostMoves = []) ∧
      ({ s with hostMoves := [.blockTurn] } : State).hostMoves = .blockTurn :: [] := by decide

/-- One pixel too many; the count just reached with the cursor at the buffer's end; an EOR, a reserved byte and a cut
short command at the buffer's last byte. -/
theorem witness_ErrorsOfAPassComeInOrder :
    ((passState [] 3 2).expected < ((passState [] 3 2).emitted : Int)) ∧
      (((passState [] 2 2).emitted : Int) ≤ (passState [] 2 2).expected ∧
        (passState [] 2 2).buf.len ≤ (passState [] 2 2).cursor) ∧
      ((passState [0x0F] 1 2).cursor < (passState [0x0F] 1 2).buf.len ∧
        decode ((passState [0x0F] 1 2).buf.byte 0) = .ok (.eor 0#4) ∧
        ((passState [0x0F] 1 2).emitted : Int) ≠ (passState [0x0F] 1 2).expected) ∧
      (decode ((passState [0xBE] 0 1).buf.byte 0) = .ok .rsvdBE ∧ Instr.rsvdBE.wellFormed = false) ∧
      (decode ((passState [0x17] 0 1).buf.byte 0) = .ok (.fill 1#4) ∧ plainCommand (.fill 1#4) = true) := by decide

theorem witness_ErrorsOfAPassComeInOrder_operand :
    ∃ t, step (passState [0x17] 0 1) = .next t ∧ t.status = .error := ⟨_, rfl, rfl⟩

/-- Width -1, height -1 and a product one above the capacity fail; width 0, a product at the capacity do not. -/
theorem witness_CheckStepTestsTheDimensions :
    let bad : BitVec 32 → BitVec 32 → Option Nat → Bool := fun w h cap => badDimensions (frameOf w h) cap
    (rowState .check 1#32 1#32 ⟨0, 0, false⟩).phase = .check ∧ bad 0xFFFFFFFF#32 1#32 none = true ∧
      bad 1#32 0xFFFFFFFF#32 none = true ∧ bad 3#32 3#32 (some 8) = true ∧ bad 3#32 3#32 (some 9) = false ∧
      bad 0#32 1#32 none = false ∧ bad 5#32 0#32 (some 0) = false ∧ (frameOf 5#32 0#32).heightInt = 0 ∧
      (frameOf 3#32 3#32).heightInt ≠ 0 := by decide

/-- 00_scope.md R8: the raw values on both sides of 2^31, and the last one. -/
theorem test_signed_dimensions :
    (frameOf 0x7FFFFFFF#32 0x80000000#32).widthInt = 2147483647 ∧
      (frameOf 0x7FFFFFFF#32 0x80000000#32).heightInt = -2147483648 ∧
      (frameOf 0xFFFFFFFF#32 0#32).widthInt = -1 := by decide

/-- The sentinel on either side, and the literal next to it on both sides. -/
theorem witness_ClassifyTellsSentinelFromLiteral :
    (0x8000#16 = 0x8000#16 ∨ 5#16 = 0x8000#16) ∧ (5#16 = 0x8000#16 ∨ 0x8000#16 = 0x8000#16) ∧
      0x7FFF#16 ≠ 0x8000#16 ∧ 0x8001#16 ≠ 0x8000#16 := by decide

/-- The record that ends at `BUF_LEN`, in the last row and before it, and the record that misses one byte. -/
theorem witness_BoundsStepReadsOneEntry :
    let s := tableState .bounds 1#32 [1, 0, 1, 0]
    let more := tableState .bounds 2#32 [1, 0, 1, 0]
    let short := tableState .bounds 1#32 [1, 0, 1]
    (s.status = .running ∧ s.phase = .bounds ∧ s.hostMoves = []) ∧
      (s.desc.boundsTableOffset.toNat + 4 * s.idx + 4 ≤ s.buf.len ∧ ((s.idx + 1 : Nat) : Int) = s.desc.heightInt) ∧
      (more.desc.boundsTableOffset.toNat + 4 * more.idx + 4 ≤ more.buf.len ∧
        ((more.idx + 1 : Nat) : Int) ≠ more.desc.heightInt) ∧
      short.buf.len < short.desc.boundsTableOffset.toNat + 4 * short.idx + 4 := by decide

theorem witness_CmdtabStepReadsOneEntry :
    let s := tableState .cmdtab 1#32 [1, 0, 1, 0]
    let more := tableState .cmdtab 2#32 [1, 0, 1, 0]
    let short := tableState .cmdtab 1#32 [1, 0, 1]
    (s.status = .running ∧ s.phase = .cmdtab ∧ s.hostMoves = []) ∧
      (s.desc.cmdTableOffset.toNat + 4 * s.idx + 4 ≤ s.buf.len ∧ ((s.idx + 1 : Nat) : Int) = s.desc.heightInt) ∧
      (more.desc.cmdTableOffset.toNat + 4 * more.idx + 4 ≤ more.buf.len ∧
        ((more.idx + 1 : Nat) : Int) ≠ more.desc.heightInt) ∧
      short.buf.len < short.desc.cmdTableOffset.toNat + 4 * short.idx + 4 := by decide

/-- A table of one entry that fits, and one whose second entry is cut short. -/
theorem witness_BoundsPhaseIsTheWholeTableLookup :
    let s := tableState .bounds 1#32 [1, 0, 1, 0]
    let short := tableState .bounds 2#32 [1, 0, 1, 0, 9]
    (s.status = .running ∧ s.phase = .bounds ∧ s.hostMoves = [] ∧ s.idx = 0 ∧ 0 < s.desc.heightInt) ∧
      tableEntries boundOfWord s.buf s.desc.boundsTableOffset .bounds 0 1 = .ok [⟨1, 1, false⟩] ∧
      0 < short.desc.heightInt ∧
      tableEntries boundOfWord short.buf short.desc.boundsTableOffset .bounds 0 2 =
        .error ⟨.truncatedInput, .bounds, 1, 4⟩ := by decide

theorem witness_CmdtabPhaseIsTheWholeTableLookup :
    let s := tableState .cmdtab 1#32 [1, 0, 1, 0]
    let short := tableState .cmdtab 2#32 [1, 0, 1, 0, 9]
    (s.status = .running ∧ s.phase = .cmdtab ∧ s.hostMoves = [] ∧ s.idx = 0 ∧ 0 < s.desc.heightInt) ∧
      tableEntries (BitVec.ofNat 32) s.buf s.desc.cmdTableOffset .cmdtab 0 1 = .ok [0x00010001#32] ∧
      0 < short.desc.heightInt ∧
      tableEntries (BitVec.ofNat 32) short.buf short.desc.cmdTableOffset .cmdtab 0 2 =
        .error ⟨.truncatedInput, .cmdtab, 1, 4⟩ := by decide

/-- A full row that is the last, and one that is not. -/
theorem witness_TransparentRowReadsNoByte :
    let s := rowState .rowStart 3#32 1#32 ⟨0, 0, true⟩
    let more := rowState .rowStart 3#32 2#32 ⟨0, 0, true⟩
    (s.status = .running ∧ s.phase = .rowStart ∧ s.hostMoves = [] ∧ (s.boundAt s.row).full = true ∧
        ((s.row + 1 : Nat) : Int) = s.desc.heightInt) ∧
      ((more.boundAt more.row).full = true ∧ ((more.row + 1 : Nat) : Int) ≠ more.desc.heightInt) := by decide

/-- Padding of exactly the width, and of one column more. -/
theorem witness_RowEntrySetsTheRowUp :
    let s := rowState .rowStart 3#32 1#32 ⟨2, 1, false⟩
    let beyond := rowState .rowStart 3#32 1#32 ⟨2, 2, false⟩
    (s.status = .running ∧ s.phase = .rowStart ∧ s.hostMoves = [] ∧ (s.boundAt s.row).full = false ∧
        0 ≤ s.desc.widthInt - (s.boundAt s.row).left.toNat - (s.boundAt s.row).right.toNat) ∧
      ((beyond.boundAt beyond.row).full = false ∧
        beyond.desc.widthInt - (beyond.boundAt beyond.row).left.toNat - (beyond.boundAt beyond.row).right.toNat < 0) := by
  decide

/-- The last row with nothing expected, and a row before the last. -/
theorem witness_RowEndPadsTheRightAndGoesOn :
    let s := rowState .rowEnd 3#32 1#32 ⟨2, 1, false⟩
    let more := rowState .rowEnd 3#32 2#32 ⟨2, 1, false⟩
    (s.status = .running ∧ s.phase = .rowEnd ∧ s.hostMoves = [] ∧ 0 ≤ s.expected ∧
        ((s.row + 1 : Nat) : Int) = s.desc.heightInt) ∧
      (0 ≤ more.expected ∧ ((more.row + 1 : Nat) : Int) ≠ more.desc.heightInt) := by decide

/-- A state in each of the phases the clauses name. -/
theorem witness_ErrorEntryRecordsTheError :
    State.reset.phase = .check ∧ (tableState .bounds 1#32 []).phase = .bounds ∧
      (tableState .cmdtab 1#32 []).phase = .cmdtab ∧
      (rowState .rowStart 0#32 1#32 ⟨0, 0, false⟩).phase = .rowStart ∧ (passState [] 0 0).phase = .cmds := by decide

theorem witness_StoppedBlockKeepsItsState :
    State.reset.status ≠ .running ∧ State.reset.BlockTurn ∧
      ({ State.reset with status := .done, hostMoves := [.blockTurn, .act .start] } : State).BlockTurn ∧
      (raise .rowOverrun 4 (passState [] 3 2)).status ≠ .running :=
  ⟨by decide, .inl rfl, .inr ⟨_, rfl⟩, by decide⟩

/-- In ERROR: the block's turn, a START and a reset. -/
theorem witness_ErrorPersistsUntilStartOrReset :
    (∃ t, step { State.reset with status := .error } = .next t ∧ t.status = .error) ∧
      (∃ t, step (hostState .error .start) = .next t) ∧ (∃ t, step (hostState .error .reset) = .next t) ∧
      (hostState .error .start).hostMoves = .act .start :: [] ∧
      (hostState .error .reset).hostMoves = .act .reset :: [] :=
  ⟨⟨_, rfl, rfl⟩, ⟨_, rfl⟩, ⟨_, rfl⟩, rfl, rfl⟩

theorem witness_ResetGivesTheSpecifiedValues :
    ({ passState [0x0F] 1 2 with hostMoves := [.act .reset] } : State).hostMoves = .act .reset :: [] := by decide

theorem witness_StartLatchesTheDescriptor :
    (hostState .running .start).hostMoves = .act .start :: [] ∧ (hostState .running .start).status = .running ∧
      (hostState .idle .start).status ≠ .running ∧ (hostState .done .start).status ≠ .running ∧
      (hostState .error .start).status ≠ .running := by decide

/-- A step that is neither START nor reset, and a START while RUNNING. -/
theorem witness_DescChangesOnlyByStartOrReset :
    (∃ t, step (hostState .running (.writePending (frameOf 1#32 1#32))) = .next t) ∧
      (∃ t, step (hostState .running .start) = .next t) ∧
      (∀ rest, (hostState .running .start).hostMoves ≠ .act .reset :: rest) ∧
      (∀ rest, (hostState .running .start).hostMoves = .act .start :: rest →
        (hostState .running .start).status = .running) :=
  ⟨⟨_, rfl⟩, ⟨_, rfl⟩, (fun _ h => nomatch h), fun _ _ => rfl⟩

theorem witness_BufferChangeWhileRunningIsRefused :
    let s := hostState .running (.bindBuffer [0x00])
    let same := hostState .running (.bindBuffer [])
    (s.hostMoves = .act (.bindBuffer [0x00]) :: [] ∧ s.status = .running ∧ Memory.ofBytes [0x00] ≠ s.buf ∧
        refusedFor (step s) = some .bufferChangedWhileRunning) ∧
      (same.hostMoves = .act (.bindBuffer []) :: [] ∧ same.status = .running ∧ Memory.ofBytes [] = same.buf) := by
  decide

theorem witness_TheBlockAlwaysHasANextStep :
    (passState [] 0 0).BlockTurn ∧ State.reset.BlockTurn ∧
      ({ passState [] 0 0 with hostMoves := [.blockTurn] } : State).BlockTurn := ⟨.inl rfl, .inl rfl, .inr ⟨_, rfl⟩⟩

theorem witness_TheBlockNeverWritesTheBuffer :
    let s := passState [0x04, 0x05] 0 1
    (s.BlockTurn ∧ ∃ t, step s = .next t) ∧
      ({ s with hostMoves := [.blockTurn] } : State).BlockTurn ∧
      ∃ t, step { s with hostMoves := [.blockTurn] } = .next t :=
  ⟨⟨.inl rfl, ⟨_, rfl⟩⟩, .inr ⟨_, rfl⟩, ⟨_, rfl⟩⟩

theorem witness_StoresAreDefinedForTheHostAtDoneOnly :
    ({ State.reset with status := .done } : State).status = .done ∧ State.reset.status ≠ .done ∧
      State.reset.status = .idle ∧ (passState [] 0 0).status = .running ∧
      (raise .rowOverrun 0 (passState [] 3 2)).status = .error ∧
      (raise .rowOverrun 0 (passState [] 3 2)).errCode = .rowOverrun ∧
      (raise .rowOverrun 0 (passState [] 3 2)).errStage = .row := by decide

/-- 95_test_vectors.md V10 and V22: what the host reads after RowOverrun in a row and TruncatedInput in BOUNDS. -/
theorem test_host_reads_error :
    let row := raise .rowOverrun 4 (passState [] 3 2)
    let table := raise .truncatedInput 32 (tableState .bounds 1#32 [])
    (hostReadStatus row = 3#2 ∧ hostReadErrCode row = 4#3 ∧ hostReadErrStage row = 3#2 ∧ hostReadErrOffset row = 4) ∧
      (hostReadStatus table = 3#2 ∧ hostReadErrCode table = 1#3 ∧ hostReadErrStage table = 1#2 ∧
        hostReadErrRow table = 0#32) := by decide

/-- The first pixel of a row of one column and one row has been emitted; an EOR follows. -/
def emittedState : State :=
  { passState [0x4E, 0x0F] 1 1 with desc := frameOf 1#32 1#32, cursor := 1, grid := [(0, [(0, 0x0400#16)])] }

/-- The same row after its EOR. -/
def endedState : State := { emittedState with phase := .rowEnd }

/-- The elements that are listed in a list of one. -/
theorem isSome_get_single {α : Type} (v : α) (r : Nat) : (Cells.get [(0, v)] r).isSome ↔ r < 1 := by
  simp only [Cells.get]
  split
  · simp_all
  · simp; omega

theorem emittedState_gridTo : emittedState.GridTo 0 1 := by
  intro r c
  have h : emittedState.pixel? r c = (Cells.get [(0, [(0, 0x0400#16)])] r).bind fun cols => Cells.get cols c := rfl
  rw [h]
  by_cases hr : r = 0
  · subst hr
    simp [Cells.get]
  · simp [Cells.get, hr]

theorem emittedState_parts :
    emittedState.Canonical ∧ emittedState.BoundsNormal ∧ emittedState.CountersInRange ∧
      emittedState.DimensionsChecked ∧ emittedState.RowOpen := by
  refine ⟨?_, ?_, ?_, ?_, ?_⟩
  · unfold State.Canonical; decide
  · unfold State.BoundsNormal; decide
  · unfold State.CountersInRange; decide
  · unfold State.DimensionsChecked; decide
  · unfold State.RowOpen; decide

/-- The invariant holds in the middle of a row and at its end, and the steps from there go on, to DONE at the end. -/
theorem witness_StepKeepsTheInvariant :
    (emittedState.Inv ∧ ∃ t, step emittedState = .next t ∧ t.phase = .rowEnd) ∧
      endedState.Inv ∧ ∃ t, step endedState = .next t ∧ t.status = .done := by
  obtain ⟨h1, h2, h3, h4, h5⟩ := emittedState_parts
  have tables : emittedState.TablesTo 1 1 := ⟨isSome_get_single _, isSome_get_single _⟩
  refine ⟨⟨⟨h1, h2, h3, ?_⟩, ⟨_, rfl, rfl⟩⟩, ⟨h1, h2, h3, ?_⟩, ⟨_, rfl, rfl⟩⟩
  · exact ⟨h4, by decide, tables, h5, emittedState_gridTo⟩
  · exact ⟨h4, by decide, tables, h5, by decide, emittedState_gridTo⟩

theorem witness_StepKeepsTheCanonicalForm :
    emittedState.Canonical ∧ ∃ t, step emittedState = .next t := ⟨emittedState_parts.1, ⟨_, rfl⟩⟩

/-- The states of the invariant's witness, with a written pixel; their steps stay out of ERROR, and one ends at DONE. -/
theorem witness_PixelsAreWrittenOnce :
    emittedState.Inv ∧ emittedState.status = .running ∧ emittedState.BlockTurn ∧
      emittedState.pixel? 0 0 = some 0x0400#16 ∧ (∃ t, step emittedState = .next t ∧ t.status ≠ .error) ∧
      endedState.Inv ∧ endedState.status = .running ∧ endedState.BlockTurn ∧
      ∃ t, step endedState = .next t ∧ t.status = .done :=
  ⟨witness_StepKeepsTheInvariant.1.1, rfl, .inl rfl, rfl, ⟨_, rfl, (fun h => nomatch h)⟩,
    witness_StepKeepsTheInvariant.2.1, rfl, .inl rfl, ⟨_, rfl, rfl⟩⟩

/-- 95_test_vectors.md W1 and W2, without the header: bounds at 0, offsets at 4, the stream at 8. -/
theorem witness_StepMachineConformsToTheFrameFunction :
    let d := { frameOf 4#32 1#32 with cmdTableOffset := 4#32 }
    let w1 := Memory.ofBytes [1, 0, 1, 0, 8, 0, 0, 0, 0x08, 0x05, 0x06, 0x0F]
    let w2 := Memory.ofBytes [1, 0, 1, 0, 8, 0, 0, 0, 0x04, 0x05, 0x0F]
    State.reset.status ≠ .running ∧ State.reset.hostMoves = [] ∧
      decodeFrame w1 d none = .ok ⟨[⟨1, 1, false⟩], [8], [[0x0200, 0x0005, 0x0006, 0x0200]]⟩ ∧
      decodeFrame w2 d none = .error ⟨.rowOverrun, .row, 0, 10⟩ := by decide

/-- 95_test_vectors.md W1: the row of `LDRAW 5, 6 ; EOR` between two padding columns, and the row with no command but
its EOR. -/
theorem witness_AssembledRowDecodesToItsPixels :
    (RowBound.mk 1#16 1#16 false).full = false ∧
      (∀ l ∈ [AsmLine.ldraw [5#8, 6#8]], l.wellFormed = true ∧ ∀ j, l ≠ .eor j) ∧
      (Memory.ofBytes (assemble ([AsmLine.ldraw [5#8, 6#8]] ++ [.eor 15]))).HoldsAt 0
        (assemble ([AsmLine.ldraw [5#8, 6#8]] ++ [.eor 15])) ∧
      ((([AsmLine.ldraw [5#8, 6#8]].flatMap AsmLine.pixels).length : Nat) : Int) = 4 - 1 - 1 ∧
      (Memory.ofBytes (assemble [.eor 0])).HoldsAt 0 (assemble [.eor 0]) := by
  refine ⟨rfl, ?_, holdsAt_ofBytes [] _, by decide, holdsAt_ofBytes [] _⟩
  intro l hl
  rw [List.mem_singleton] at hl
  subst hl
  exact ⟨by decide, (fun _ h => nomatch h)⟩

/-- A row of width 0, a full row, and the row of W1. -/
theorem witness_DecodedRowHasWidthPixels :
    decodeRow (Memory.ofBytes [0x0F]) 0 0 ⟨0, 0, false⟩ = .ok ([], 0) ∧
      decodeRow (Memory.ofBytes []) 9 2 ⟨0, 0, true⟩ = .ok ([.transparent, .transparent], 9) ∧
      decodeRow (Memory.ofBytes [0x08, 0x05, 0x06, 0x0F]) 0 4 ⟨1, 1, false⟩ =
        .ok ([.transparent, .palette 5, .palette 6, .transparent], 3) := by decide

theorem witness_UnreadFieldsNeverMatter :
    (passState [0x0F] 0 0).BlockTurn ∧ ({ passState [0x0F] 0 0 with hostMoves := [.blockTurn] } : State).BlockTurn :=
  ⟨.inl rfl, .inr ⟨_, rfl⟩⟩

/-- A write in RUNNING, a write and a START in IDLE, and an action of no effect. -/
theorem witness_HostWritesThePendingCopyAndNothingElse :
    let d := frameOf 1#32 1#32
    let s := { State.reset with hostMoves := [.act (.writePending d), .act .start] }
    (hostState .running (.writePending d)).hostMoves = .act (.writePending d) :: [] ∧
      (s.status ≠ .running ∧ s.hostMoves = .act (.writePending d) :: .act .start :: []) ∧
      (hostState .done .other).hostMoves = .act .other :: [] := by decide

theorem witness_ScheduledTurnIsTheBlocksTurn :
    ({ passState [0x4E] 0 1 with hostMoves := [.blockTurn, .act .reset] } : State).hostMoves =
      .blockTurn :: [.act .reset] := by decide

/-- A state whose one written word is that of a Special1 pixel, and its next step. -/
theorem witness_OnlyTheSixKindsAreWritten :
    emittedState.HoldsSixKinds ∧ ∃ t, step emittedState = .next t := by
  refine ⟨fun r c w h => ⟨.special1, rfl, ?_⟩, ⟨_, rfl⟩⟩
  have hp : emittedState.pixel? r c = (Cells.get [(0, [(0, 0x0400#16)])] r).bind fun cols => Cells.get cols c := rfl
  rw [hp] at h
  simp only [Cells.get] at h
  split at h
  · simp only [Option.bind_some, Cells.get] at h
    split at h
    · exact Option.some.inj h
    · cases h
  · cases h

end Sys2Proof.Tests
end

section
/-! PROOFS. The family 20_memory.md: how a table record is read from the buffer. -/

namespace Sys2Proof.Proofs

open Sys2Proof.Machine

/-- Two bytes, the least significant first (R65). -/
theorem littleEndian_two (m : Memory) (a : Nat) :
    m.littleEndian a 2 = (m.byte a).toNat + 256 * (m.byte (a + 1)).toNat := by
  simp [Memory.littleEndian]

/-- A four-byte read is its low half and its high half, each the two-byte read at that half's own address. -/
theorem littleEndian_four_halves (m : Memory) (a : Nat) :
    m.littleEndian a 4 = m.littleEndian a 2 + 2 ^ 16 * m.littleEndian (a + 2) 2 := by
  have hnext : m.byte (a + 2 + 1) = m.byte (a + 3) := rfl
  rw [Memory.littleEndian_four, littleEndian_two, littleEndian_two, hnext]
  omega

/-- The low 16 bits of a four-byte read are the two bytes at its address. -/
theorem toNat_lowHalf (m : Memory) (a : Nat) :
    (BitVec.ofNat 16 (m.littleEndian a 4)).toNat = m.littleEndian a 2 := by
  have hlow : m.littleEndian a 2 < 2 ^ 16 := m.littleEndian_lt a 2
  rw [BitVec.toNat_ofNat, littleEndian_four_halves, Nat.add_mul_mod_self_left, Nat.mod_eq_of_lt hlow]

/-- The high 16 bits of a four-byte read are the two bytes two addresses further. -/
theorem toNat_highHalf (m : Memory) (a : Nat) :
    (BitVec.ofNat 16 (m.littleEndian a 4 >>> 16)).toNat = m.littleEndian (a + 2) 2 := by
  have hlow : m.littleEndian a 2 < 2 ^ 16 := m.littleEndian_lt a 2
  have hhigh : m.littleEndian (a + 2) 2 < 2 ^ 16 := m.littleEndian_lt (a + 2) 2
  rw [BitVec.toNat_ofNat, Nat.shiftRight_eq_div_pow, littleEndian_four_halves,
    Nat.add_mul_div_left _ _ (by decide), Nat.div_eq_of_lt hlow, Nat.zero_add, Nat.mod_eq_of_lt hhigh]

/-- A four-byte read fits a 32-bit word, so nothing of it is cut off. -/
theorem toNat_word (m : Memory) (a : Nat) :
    (BitVec.ofNat 32 (m.littleEndian a 4)).toNat = m.littleEndian a 4 := by
  have hfits : m.littleEndian a 4 < 2 ^ 32 := m.littleEndian_lt a 4
  rw [BitVec.toNat_ofNat, Nat.mod_eq_of_lt hfits]

/-- Settles O8: each half of the word is the two-byte read at its own address (R65), and the word keeps all four
bytes. -/
theorem tableReadsAreLittleEndian : Obligations.TableReadsAreLittleEndian := by
  intro m a
  refine ⟨?low, ?high, ?word⟩
  case low => rw [toNat_lowHalf, littleEndian_two]
  case high => rw [toNat_highHalf, littleEndian_two]
  case word => rw [toNat_word, Memory.littleEndian_four]

end Sys2Proof.Proofs
end

section
/-! PROOFS. The family 30_encoding.md: how many bytes a command consumes and how many pixels it emits (R101). -/

namespace Sys2Proof.Proofs

open Sys2Proof.Machine

/-! ### Bytes consumed and pixels emitted by a command's operands -/

/-- Operands that are read have moved the cursor by `n` bytes and emitted `k` pixels; operands that are not have
entered ERROR. -/
def OperandExtent (s : State) (n k : Nat) : Except State State → Prop
  | .ok u => u.cursor = s.cursor + n ∧ u.emitted = s.emitted + k
  | .error u => u.status = .error

/-- What is consumed from one byte further on is consumed, with that byte, from here. -/
theorem OperandExtent.of_nextByte {s : State} {n k : Nat} {x : Except State State}
    (h : OperandExtent (moveCursor (s.cursor + 1) s) n k x) : OperandExtent s (1 + n) k x := by
  cases x with
  | ok u =>
    obtain ⟨hcursor, hemitted⟩ := h
    exact ⟨by rw [hcursor, moveCursor_cursor, Nat.add_assoc], hemitted⟩
  | error u => exact h

theorem drawRun_extent (mk : Byte → Pixel) (n : Nat) (s : State) : OperandExtent s n n (drawRun mk n s) := by
  by_cases h : n = 0 ∨ s.cursor + n < s.buf.len
  · rw [drawRun_ok h]
    exact ⟨rfl, by simp⟩
  · rw [drawRun_truncated (by omega) (by omega)]
    exact raise_status _ _ _

theorem fillRun_extent (mk : Byte → Pixel) (n : Nat) (s : State) : OperandExtent s 1 n (fillRun mk n s) := by
  by_cases h : s.cursor + 1 < s.buf.len
  · rw [fillRun_ok h]
    exact ⟨rfl, by simp⟩
  · rw [fillRun_truncated (by omega)]
    exact raise_status _ _ _

theorem repeatPixel_extent (p : Pixel) (n : Nat) (s : State) : OperandExtent s 0 n (repeatPixel p n s) := by
  rw [repeatPixel_eq]
  exact ⟨by simp, by simp⟩

/-! ### Counts -/

/-- The count bytes of a PEC count: one in the long form, none in the short form (R96). -/
def packedBytes {w : Nat} (value : BitVec w) : Nat := if value = 0#w then 1 else 0

/-- The value of a PEC count, `byte1` the byte after the command (R96). -/
def packedValue {w : Nat} (value : BitVec w) (byte1 : Byte) : Nat :=
  if value = 0#w then byte1.toNat else value.toNat

theorem packedValue_le {w : Nat} (hw : w ≤ 8) (value : BitVec w) (byte1 : Byte) :
    packedValue value byte1 ≤ 255 := by
  have hbyte := byte1.isLt
  have hvalue : value.toNat < 2 ^ 8 := lt_of_lt_of_le value.isLt (Nat.pow_le_pow_right (by decide) hw)
  unfold packedValue
  split <;> omega

section
variable {body : Nat → State → Except State State} {len : Nat → Nat}

/-- A PEC count and the operands it counts, `len n` bytes for a count of `n`. -/
theorem withPackedCount_extent (hbody : ∀ n s, OperandExtent s (len n) n (body n s)) {w : Nat} (value : BitVec w)
    (s : State) :
    OperandExtent s (packedBytes value + len (packedValue value (s.buf.byte (s.cursor + 1))))
      (packedValue value (s.buf.byte (s.cursor + 1))) (withCount (packedCount value.toNat s) body) := by
  unfold packedBytes packedValue
  by_cases hzero : value = 0#w
  · rw [if_pos hzero, if_pos hzero, hzero, BitVec.toNat_ofNat, Nat.zero_mod]
    by_cases h : s.cursor + 1 < s.buf.len
    · rw [packedCount_long h]
      exact OperandExtent.of_nextByte (hbody _ _)
    · rw [packedCount_truncated (by omega)]
      exact raise_status _ _ _
  · have hshort : value.toNat ≠ 0 := fun h => hzero (BitVec.eq_of_toNat_eq (by simpa using h))
    rw [if_neg hzero, if_neg hzero, packedCount_short hshort, Nat.zero_add]
    exact hbody _ _

/-- A 12-bit count (R97) and the operands it counts. -/
theorem withBigCount_extent (hbody : ∀ n s, OperandExtent s (len n) n (body n s)) (high : BitVec 4) (s : State) :
    OperandExtent s (1 + len (256 * high.toNat + (s.buf.byte (s.cursor + 1)).toNat))
      (256 * high.toNat + (s.buf.byte (s.cursor + 1)).toNat) (withCount (bigCount high s) body) := by
  by_cases h : s.cursor + 1 < s.buf.len
  · rw [bigCount_ok h]
    exact OperandExtent.of_nextByte (hbody _ _)
  · rw [bigCount_truncated (by omega)]
    exact raise_status _ _ _

/-- An 8-bit count (R99) and the operands it counts. -/
theorem withExtendedCount_extent (hbody : ∀ n s, OperandExtent s (len n) n (body n s)) (s : State) :
    OperandExtent s (1 + len (s.buf.byte (s.cursor + 1)).toNat) (s.buf.byte (s.cursor + 1)).toNat
      (withCount (extendedCount s) body) := by
  by_cases h : s.cursor + 1 < s.buf.len
  · rw [extendedCount_ok h]
    exact OperandExtent.of_nextByte (hbody _ _)
  · rw [extendedCount_truncated (by omega)]
    exact raise_status _ _ _

end

/-! ### The length table of R101 -/

/-- A count of 0 takes no index byte, so both formats of LDRAW have the length of the one with indices. -/
theorem commandLength_ldraw (count : BitVec 6) (byte1 : Byte) :
    commandLength (.ldraw count) byte1 = count.toNat + 1 := by
  by_cases h : count = 0#6
  · simp [commandLength, commandFormat, h]
  · simp [commandLength, commandFormat, commandCount, h, Nat.add_comm]

theorem commandLength_lskip (value : BitVec 6) (byte1 : Byte) :
    commandLength (.lskip value) byte1 = packedBytes value + 1 := by
  by_cases h : value = 0#6 <;> simp [commandLength, commandFormat, packedBytes, h]

theorem commandLength_sfill (value : BitVec 4) (byte1 : Byte) :
    commandLength (.sfill value) byte1 = packedBytes value + 1 := by
  by_cases h : value = 0#4 <;> simp [commandLength, commandFormat, packedBytes, h]

theorem commandLength_fill (value : BitVec 4) (byte1 : Byte) :
    commandLength (.fill value) byte1 = packedBytes value + 1 + 1 := by
  by_cases h : value = 0#4 <;> simp [commandLength, commandFormat, packedBytes, h]

theorem commandLength_pfill (value : BitVec 4) (byte1 : Byte) :
    commandLength (.pfill value) byte1 = packedBytes value + 1 + 1 := commandLength_fill value byte1

theorem commandLength_player (value : BitVec 4) (byte1 : Byte) :
    commandLength (.player value) byte1 = packedBytes value + packedValue value byte1 + 1 := by
  by_cases h : value = 0#4
  · simp only [commandLength, commandFormat, commandCount, packedBytes, packedValue, if_pos h]
    omega
  · simp only [commandLength, commandFormat, commandCount, packedBytes, packedValue, if_neg h]
    omega

theorem commandLength_bdraw (high : BitVec 4) (byte1 : Byte) :
    commandLength (.bdraw high) byte1 = 1 + (256 * high.toNat + byte1.toNat) + 1 := by
  change 2 + (256 * high.toNat + byte1.toNat) = _
  omega

theorem one_le_commandLength (i : Instr) (byte1 : Byte) : 1 ≤ commandLength i byte1 := by
  unfold commandLength
  cases commandFormat i <;> dsimp only <;> omega

/-- The longest counts are the 12-bit ones, which reach 4095. -/
theorem commandCount_le (i : Instr) (byte1 : Byte) : commandCount i byte1 ≤ 4095 := by
  have hbyte : byte1.toNat < 256 := byte1.isLt
  have hpacked : ∀ {w : Nat}, w ≤ 8 → ∀ value : BitVec w, packedValue value byte1 ≤ 4095 := fun hw value =>
    le_trans (packedValue_le hw value byte1) (by decide)
  have hbig : ∀ high : BitVec 4, 256 * high.toNat + byte1.toNat ≤ 4095 := fun high => by
    have hhigh : high.toNat < 16 := high.isLt
    omega
  cases i with
  | ldraw count => exact le_trans (Nat.le_of_lt count.isLt) (by decide)
  | lskip value => exact hpacked (by decide) value
  | player value => exact hpacked (by decide) value
  | fill value => exact hpacked (by decide) value
  | pfill value => exact hpacked (by decide) value
  | sfill value => exact hpacked (by decide) value
  | bdraw high => exact hbig high
  | bskip high => exact hbig high
  | _ => simp only [commandCount]; omega

/-! ### Commands -/

/-- A command that leaves the state RUNNING has moved the cursor by `n` bytes and emitted `k` pixels. -/
def CommandExtent (s : State) (n k : Nat) (x : Host.Outcome State Fault Refusal) : Prop :=
  ∀ t, x = .next t → t.status = .running → t.cursor = s.cursor + n ∧ t.emitted = s.emitted + k

/-- The advance past the command byte (R145) comes on top of the operands. -/
theorem retire_extent {s : State} {n k : Nat} {x : Except State State} (h : OperandExtent s n k x) :
    CommandExtent s (n + 1) k (retire x) := by
  intro t hnext hrunning
  cases x with
  | ok u =>
    cases hnext
    obtain ⟨hcursor, hemitted⟩ := h
    exact ⟨congrArg (· + 1) hcursor, hemitted⟩
  | error u =>
    cases hnext
    exact nomatch hrunning.symm.trans h

theorem noOperation_extent (s : State) : CommandExtent s 1 0 (noOperation s) := by
  have hnone : OperandExtent s 0 0 (.ok s) := ⟨rfl, rfl⟩
  exact retire_extent hnone

theorem emitOne_extent (p : Pixel) (s : State) : CommandExtent s 1 1 (retire (.ok (emit p s))) := by
  have hone : OperandExtent s 0 1 (.ok (emit p s)) := ⟨rfl, rfl⟩
  exact retire_extent hone

/-- A reserved byte never leaves the state RUNNING (R170). -/
theorem reservedExtended_extent (s : State) : CommandExtent s 1 0 (reservedExtended s) := by
  have hraised : OperandExtent s 0 0 (.error (raise .unknownExtendedCommand s.cursor s)) := raise_status _ _ _
  exact retire_extent hraised

/-- R101: the columns "length in bytes" and "pixels emitted", against what each command does. -/
theorem exec_extent (i : Instr) (s : State) (hi : ∀ high, i ≠ .eor high) :
    CommandExtent s (commandLength i (s.buf.byte (s.cursor + 1))) (commandCount i (s.buf.byte (s.cursor + 1)))
      (exec i s) := by
  cases i with
  | ldraw count =>
    rw [commandLength_ldraw]
    exact retire_extent (drawRun_extent _ _ _)
  | lskip value =>
    rw [commandLength_lskip]
    exact retire_extent (withPackedCount_extent (repeatPixel_extent _) _ _)
  | bdraw high =>
    rw [commandLength_bdraw]
    exact retire_extent (withBigCount_extent (drawRun_extent _) _ _)
  | bskip high => exact retire_extent (withBigCount_extent (repeatPixel_extent _) _ _)
  | player value =>
    rw [commandLength_player]
    exact retire_extent (withPackedCount_extent (drawRun_extent _) _ _)
  | fill value =>
    rw [commandLength_fill]
    exact retire_extent (withPackedCount_extent (fillRun_extent _) _ _)
  | pfill value =>
    rw [commandLength_pfill]
    exact retire_extent (withPackedCount_extent (fillRun_extent _) _ _)
  | sfill value =>
    rw [commandLength_sfill]
    exact retire_extent (withPackedCount_extent (repeatPixel_extent _) _ _)
  | xflip0 => exact noOperation_extent s
  | xflip1 => exact noOperation_extent s
  | xpal0 => exact noOperation_extent s
  | xpal1 => exact noOperation_extent s
  | sp1 => exact emitOne_extent _ s
  | sp1n => exact retire_extent (withExtendedCount_extent (repeatPixel_extent _) _)
  | sp2 => exact emitOne_extent _ s
  | sp2n => exact retire_extent (withExtendedCount_extent (repeatPixel_extent _) _)
  | xda8 => exact noOperation_extent s
  | xda9 => exact noOperation_extent s
  | xdaa => exact noOperation_extent s
  | rsvdBE => exact reservedExtended_extent s
  | rsvdCE => exact reservedExtended_extent s
  | rsvdDE => exact reservedExtended_extent s
  | rsvdEE => exact reservedExtended_extent s
  | rsvdFE => exact reservedExtended_extent s
  | eor high => exact absurd rfl (hi high)

/-- R148, R171: the cursor stays on the EOR byte. -/
theorem exec_eor_extent (high : BitVec 4) (s : State) : CommandExtent s 0 0 (exec (.eor high) s) := by
  intro t hnext hrunning
  change execEor high s = .next t at hnext
  unfold execEor at hnext
  split at hnext
  case isTrue => cases hnext; exact ⟨rfl, rfl⟩
  case isFalse => cases hnext; exact nomatch hrunning

/-- Settles O24: the operands of each command account for the rows of R101's table, and an EOR has none. -/
theorem commandsConsumeTheirLength : Obligations.CommandsConsumeTheirLength := by
  refine ⟨fun i s t _ hnext hrunning => ?_, fun i byte1 => ⟨commandCount_le i byte1, one_le_commandLength i byte1⟩⟩
  by_cases hi : ∀ high, i ≠ .eor high
  · obtain ⟨hcursor, hemitted⟩ := exec_extent i s hi t hnext hrunning
    exact ⟨fun _ => hcursor, fun ⟨high, heor⟩ => absurd heor (hi high), hemitted⟩
  · obtain ⟨high, rfl⟩ : ∃ high, i = .eor high := by simpa using hi
    obtain ⟨hcursor, hemitted⟩ := exec_eor_extent high s t hnext hrunning
    exact ⟨fun h => absurd rfl (h high), fun _ => hcursor, hemitted⟩

end Sys2Proof.Proofs
end

section
/-! PROOFS. The family 30_encoding.md: every byte is a command, in the numbers of R93. -/

namespace Sys2Proof.Proofs

/-! ### The fields of a byte (R91) -/

/-- The low nibble is the byte's low four bits, in place. -/
theorem lowNibble_eq (cmd : Byte) : lowNibble cmd = (cmd.extractLsb' 0 4).setWidth 8 := by
  apply BitVec.eq_of_toNat_eq
  have hfits : cmd.toNat % 16 < 256 := by omega
  rw [BitVec.toNat_setWidth, BitVec.extractLsb'_toNat, Nat.shiftRight_zero, Nat.mod_eq_of_lt hfits]
  exact Nat.and_two_pow_sub_one_eq_mod cmd.toNat 4

/-- The low crumb is the byte's low two bits, in place. -/
theorem lowCrumb_eq (cmd : Byte) : lowCrumb cmd = (cmd.extractLsb' 0 2).setWidth 8 := by
  apply BitVec.eq_of_toNat_eq
  have hfits : cmd.toNat % 4 < 256 := by omega
  rw [BitVec.toNat_setWidth, BitVec.extractLsb'_toNat, Nat.shiftRight_zero, Nat.mod_eq_of_lt hfits]
  exact Nat.and_two_pow_sub_one_eq_mod cmd.toNat 2

/-- The crumb is part of the low nibble. -/
theorem lowCrumb_lowNibble (cmd : Byte) : lowCrumb (lowNibble cmd) = lowCrumb cmd :=
  BitVec.and_assoc cmd 0x0F#8 0b11#8

/-- Widening loses nothing. -/
theorem eq_of_setWidth_eq {w v : Nat} {x y : BitVec w} (hwv : w ≤ v) (h : x.setWidth v = y.setWidth v) : x = y := by
  have hback := congrArg (BitVec.setWidth w) h
  rwa [BitVec.setWidth_setWidth_of_le _ hwv, BitVec.setWidth_setWidth_of_le _ hwv, BitVec.setWidth_eq,
    BitVec.setWidth_eq] at hback

/-- A byte is its high and its low nibble. -/
theorem nibbleByte_nibbleField {cmd : Byte} {low : BitVec 4} (h : lowNibble cmd = low.setWidth 8) :
    nibbleByte (nibbleField cmd) low = cmd := by
  have hlow : cmd.extractLsb' 0 4 = low := eq_of_setWidth_eq (by decide) ((lowNibble_eq cmd).symm.trans h)
  rw [← hlow]
  exact (BitVec.extractLsb'_append_extractLsb'_eq_extractLsb' rfl).trans BitVec.extractLsb'_eq_self

/-- A byte is its count field and its crumb. -/
theorem crumbByte_lesserField {cmd : Byte} {crumb : BitVec 2} (h : lowCrumb cmd = crumb.setWidth 8) :
    crumbByte (lesserField cmd) crumb = cmd := by
  have hcrumb : cmd.extractLsb' 0 2 = crumb := eq_of_setWidth_eq (by decide) ((lowCrumb_eq cmd).symm.trans h)
  rw [← hcrumb]
  exact (BitVec.extractLsb'_append_extractLsb'_eq_extractLsb' rfl).trans BitVec.extractLsb'_eq_self

/-! ### The low nibbles of each crumb (R93) -/

/-- What holds of the sixteen low nibbles holds of the low nibble of every byte. -/
theorem lowNibble_induction {P : Byte → Prop} (h : ∀ low : BitVec 4, P (low.setWidth 8)) (cmd : Byte) :
    P (lowNibble cmd) := by
  rw [lowNibble_eq]
  exact h _

theorem lowCrumb_eq_two_iff (cmd : Byte) :
    lowCrumb cmd = 0b10#8 ↔ lowNibble cmd ∈ [0x2#8, 0x6#8, 0xA#8, 0xE#8] := by
  rw [← lowCrumb_lowNibble]
  exact lowNibble_induction (P := fun n => lowCrumb n = 0b10#8 ↔ n ∈ [0x2#8, 0x6#8, 0xA#8, 0xE#8]) (by decide) cmd

theorem lowCrumb_eq_three_iff (cmd : Byte) :
    lowCrumb cmd = 0b11#8 ↔ lowNibble cmd ∈ [0x3#8, 0x7#8, 0xB#8, 0xF#8] := by
  rw [← lowCrumb_lowNibble]
  exact lowNibble_induction (P := fun n => lowCrumb n = 0b11#8 ↔ n ∈ [0x3#8, 0x7#8, 0xB#8, 0xF#8]) (by decide) cmd

theorem lowCrumb_cases (cmd : Byte) :
    lowCrumb cmd = 0b00#8 ∨ lowCrumb cmd = 0b01#8 ∨ lowCrumb cmd = 0b10#8 ∨ lowCrumb cmd = 0b11#8 := by
  have hcrumb : ∀ crumb : BitVec 2, crumb.setWidth 8 = 0b00#8 ∨ crumb.setWidth 8 = 0b01#8 ∨
      crumb.setWidth 8 = 0b10#8 ∨ crumb.setWidth 8 = 0b11#8 := by decide
  rw [lowCrumb_eq]
  exact hcrumb _

/-! ### The decoder is total -/

/-- A decoder's answer for a byte is a command, and the byte is that command's. -/
def ReadsBack (cmd : Byte) (x : Except DecodeError Instr) : Prop := ∃ i, x = .ok i ∧ encode i = cmd

/-- A test of R92 and the tests after it. -/
theorem ReadsBack.ite {c : Prop} [Decidable c] {x y : Except DecodeError Instr} {cmd : Byte}
    (hpos : c → ReadsBack cmd x) (hneg : ¬ c → ReadsBack cmd y) : ReadsBack cmd (if c then x else y) := by
  split
  case isTrue h => exact hpos h
  case isFalse h => exact hneg h

/-- The sixteen extended bytes are the sixteen extended sub-commands (R98). -/
theorem decodeExtended_nibbleByte (high : BitVec 4) :
    (decodeExtended (nibbleByte high 0xE#4)).map encode = .ok (nibbleByte high 0xE#4) := by
  revert high
  decide

theorem decodeExtended_readsBack {cmd : Byte} (h : lowNibble cmd = 0xE#8) :
    ReadsBack cmd (decodeExtended cmd) := by
  have hreads := decodeExtended_nibbleByte (nibbleField cmd)
  rw [nibbleByte_nibbleField h] at hreads
  cases hi : decodeExtended cmd with
  | error e =>
    rw [hi] at hreads
    cases hreads
  | ok i =>
    rw [hi] at hreads
    exact ⟨i, rfl, Except.ok.inj hreads⟩

/-- R92's first four steps leave no byte to the fifth: a byte with neither of the lesser crumbs has one of the eight low
nibbles. -/
theorem decode_readsBack (cmd : Byte) : ReadsBack cmd (decode cmd) := by
  unfold decode
  refine ReadsBack.ite (fun hF => ⟨_, rfl, nibbleByte_nibbleField hF⟩) fun hF => ?_
  refine ReadsBack.ite (fun h0 => ⟨_, rfl, crumbByte_lesserField h0⟩) fun h0 => ?_
  refine ReadsBack.ite (fun h1 => ⟨_, rfl, crumbByte_lesserField h1⟩) fun h1 => ?_
  refine ReadsBack.ite (fun h2 => ⟨_, rfl, nibbleByte_nibbleField h2⟩) fun h2 => ?_
  refine ReadsBack.ite (fun h3 => ⟨_, rfl, nibbleByte_nibbleField h3⟩) fun h3 => ?_
  refine ReadsBack.ite (fun h6 => ⟨_, rfl, nibbleByte_nibbleField h6⟩) fun h6 => ?_
  refine ReadsBack.ite (fun h7 => ⟨_, rfl, nibbleByte_nibbleField h7⟩) fun h7 => ?_
  refine ReadsBack.ite (fun hA => ⟨_, rfl, nibbleByte_nibbleField hA⟩) fun hA => ?_
  refine ReadsBack.ite (fun hB => ⟨_, rfl, nibbleByte_nibbleField hB⟩) fun hB => ?_
  refine ReadsBack.ite (fun hE => decodeExtended_readsBack hE) fun hE => ?_
  exfalso
  rcases lowCrumb_cases cmd with hcrumb | hcrumb | hcrumb | hcrumb
  · exact h0 hcrumb
  · exact h1 hcrumb
  · have hlow := (lowCrumb_eq_two_iff cmd).mp hcrumb
    simp only [List.mem_cons, List.not_mem_nil, h2, h6, hA, hE, or_false] at hlow
  · have hlow := (lowCrumb_eq_three_iff cmd).mp hcrumb
    simp only [List.mem_cons, List.not_mem_nil, h3, h7, hB, hF, or_false] at hlow

/-! ### How the 256 bytes divide -/

/-- The number of bytes that the decoder reads as this row of the opcode table. -/
def mnemonicCount (name : String) : Nat :=
  ((List.range 256).filter fun n =>
    decide ((decodeTableWord 8 n).map (fun i => (opcodeRow i).mnemonic) = some name)).length

/-- A crumb leaves six bits of the byte free. -/
theorem mnemonicCount_lesser : ∀ name ∈ ["LDRAW", "LSKIP"], mnemonicCount name = 64 := by decide +kernel

/-- A low nibble leaves four bits of the byte free. -/
theorem mnemonicCount_nibble :
    ∀ name ∈ ["BDRAW", "BSKIP", "PLAYER", "FILL", "PFILL", "SFILL", "EOR"], mnemonicCount name = 16 := by
  decide +kernel

/-- The low nibble 0xE leaves the sixteen extended sub-commands. -/
theorem extendedBytes_length :
    ((List.range 256).filter fun n => decide (lowNibble (BitVec.ofNat 8 n) = 0xE#8)).length = 16 := by decide +kernel

/-- Settles O2: the decode is total because each crumb's low nibbles have a rule, and the counts are those of R93. -/
theorem everyByteIsACommand : Obligations.EveryByteIsACommand :=
  ⟨decode_readsBack, lowCrumb_eq_two_iff, lowCrumb_eq_three_iff,
    mnemonicCount_lesser _ (by decide), mnemonicCount_lesser _ (by decide),
    mnemonicCount_nibble "BDRAW" (by decide), mnemonicCount_nibble "BSKIP" (by decide),
    mnemonicCount_nibble "PLAYER" (by decide), mnemonicCount_nibble "FILL" (by decide),
    mnemonicCount_nibble "PFILL" (by decide), mnemonicCount_nibble "SFILL" (by decide),
    mnemonicCount_nibble "EOR" (by decide), extendedBytes_length⟩

end Sys2Proof.Proofs
end

section
/-! PROOFS. The family 40_table_lookups.md: how a bound is classified, and the one entry that a step of each table phase
reads. -/

namespace Sys2Proof.Proofs

open Sys2Proof.Machine

/-! ### Classification (R122, R123) -/

theorem classify_sentinel {left right : BitVec 16} (h : left = Config.sentinel ∨ right = Config.sentinel) :
    classify left right = ⟨0#16, 0#16, true⟩ := if_pos h

theorem classify_literal {left right : BitVec 16} (hleft : left ≠ Config.sentinel) (hright : right ≠ Config.sentinel) :
    classify left right = ⟨left, right, false⟩ := if_neg (not_or.mpr ⟨hleft, hright⟩)

/-- Settles O30: the sentinel in one of the fields is what R122 and R123 tell apart. -/
theorem classifyTellsSentinelFromLiteral : Obligations.ClassifyTellsSentinelFromLiteral :=
  fun _ _ => ⟨classify_sentinel, classify_literal⟩

/-! ### The entry `IDX` of each table (R121, R127) -/

section

variable {s : State}

theorem boundEntry_ok (h : entryAddress s.desc.boundsTableOffset s.idx + 4 ≤ s.buf.len) :
    boundEntry s = .ok (boundOfWord (s.buf.littleEndian (entryAddress s.desc.boundsTableOffset s.idx) 4)) := by
  rw [boundEntry, memRead_ok h]

theorem boundEntry_truncated (h : s.buf.len < entryAddress s.desc.boundsTableOffset s.idx + 4) :
    boundEntry s = .error (raise .truncatedInput (entryAddress s.desc.boundsTableOffset s.idx) s) := by
  rw [boundEntry, memRead_error h]

theorem cmdEntry_ok (h : entryAddress s.desc.cmdTableOffset s.idx + 4 ≤ s.buf.len) :
    cmdEntry s = .ok (BitVec.ofNat 32 (s.buf.littleEndian (entryAddress s.desc.cmdTableOffset s.idx) 4)) := by
  rw [cmdEntry, memRead_ok h]

theorem cmdEntry_truncated (h : s.buf.len < entryAddress s.desc.cmdTableOffset s.idx + 4) :
    cmdEntry s = .error (raise .truncatedInput (entryAddress s.desc.cmdTableOffset s.idx) s) := by
  rw [cmdEntry, memRead_error h]

/-! ### The step of each table phase (R209, R210) -/

theorem stepBounds_ok {b : RowBound} (h : boundEntry s = .ok b) :
    stepBounds s =
      if ((s.idx + 1 : Nat) : Int) = s.desc.heightInt then
        { writeBound s.idx b s with idx := 0, phase := .cmdtab }
      else { writeBound s.idx b s with idx := s.idx + 1 } := by
  rw [stepBounds, h]
  rfl

theorem stepBounds_error {t : State} (h : boundEntry s = .error t) : stepBounds s = t := by
  rw [stepBounds, h]

theorem stepCmdtab_ok {v : BitVec 32} (h : cmdEntry s = .ok v) :
    stepCmdtab s =
      if ((s.idx + 1 : Nat) : Int) = s.desc.heightInt then
        { writeOffset s.idx v s with idx := s.idx + 1, row := 0, phase := .rowStart }
      else { writeOffset s.idx v s with idx := s.idx + 1 } := by
  rw [stepCmdtab, h]
  rfl

theorem stepCmdtab_error {t : State} (h : cmdEntry s = .error t) : stepCmdtab s = t := by
  rw [stepCmdtab, h]

/-! ### The turn of each table phase, and what its error records (R236) -/

theorem step_eq_stepBounds (hstatus : s.status = .running) (hphase : s.phase = .bounds) (hmoves : s.hostMoves = []) :
    step s = .next (stepBounds s) := by
  simp only [step, hmoves, blockStep, hstatus, hphase]

theorem step_eq_stepCmdtab (hstatus : s.status = .running) (hphase : s.phase = .cmdtab) (hmoves : s.hostMoves = []) :
    step s = .next (stepCmdtab s) := by
  simp only [step, hmoves, blockStep, hstatus, hphase]

theorem raise_record_of_bounds (e : ErrCode) (a : Nat) (hphase : s.phase = .bounds) :
    (raise e a s).errStage = .bounds ∧ (raise e a s).errRow = BitVec.ofNat 32 s.idx := by
  simp [State.errorRow, Phase.stage, hphase]

theorem raise_record_of_cmdtab (e : ErrCode) (a : Nat) (hphase : s.phase = .cmdtab) :
    (raise e a s).errStage = .cmdtab ∧ (raise e a s).errRow = BitVec.ofNat 32 s.idx := by
  simp [State.errorRow, Phase.stage, hphase]

end

/-- Settles O31: the read of the record decides between the error entry and the store, the count of the entries
between the two next phases. -/
theorem boundsStepReadsOneEntry : Obligations.BoundsStepReadsOneEntry := by
  intro s hstatus hphase hmoves a w s'
  have hstep := step_eq_stepBounds hstatus hphase hmoves
  refine ⟨fun hfits hlast => ?last, fun hfits hmore => ?more, fun hshort => ⟨?truncated, ?record⟩⟩
  case last => rw [hstep, stepBounds_ok (boundEntry_ok hfits), if_pos hlast]; rfl
  case more => rw [hstep, stepBounds_ok (boundEntry_ok hfits), if_neg hmore]; rfl
  case truncated => rw [hstep, stepBounds_error (boundEntry_truncated hshort)]; rfl
  case record => exact raise_record_of_bounds _ _ hphase

/-- Settles O32: as for the bounds, but the value is stored as read and the last entry leads to the first row. -/
theorem cmdtabStepReadsOneEntry : Obligations.CmdtabStepReadsOneEntry := by
  intro s hstatus hphase hmoves a s'
  have hstep := step_eq_stepCmdtab hstatus hphase hmoves
  refine ⟨fun hfits hlast => ?last, fun hfits hmore => ?more, fun hshort => ⟨?truncated, ?record⟩⟩
  case last => rw [hstep, stepCmdtab_ok (cmdEntry_ok hfits), if_pos hlast]; rfl
  case more => rw [hstep, stepCmdtab_ok (cmdEntry_ok hfits), if_neg hmore]; rfl
  case truncated => rw [hstep, stepCmdtab_error (cmdEntry_truncated hshort)]; rfl
  case record => exact raise_record_of_cmdtab _ _ hphase

end Sys2Proof.Proofs
end

section
/-! PROOFS. The family 41_row_commands.md: the byte of each row command and the state after it. -/

namespace Sys2Proof.Proofs

open Sys2Proof.Machine

/-! ### The command byte as a number (R91, R94, R95) -/

/-- Two words side by side, as a number. -/
theorem toNat_append_eq_mul_add {w v : Nat} (x : BitVec w) (y : BitVec v) :
    (x ++ y).toNat = 2 ^ v * x.toNat + y.toNat := by
  rw [BitVec.toNat_append, Nat.shiftLeft_eq_mul_pow, Nat.mul_comm, ← Nat.two_pow_add_eq_or_of_lt y.isLt]

theorem crumbByte_toNat (field : BitVec 6) (crumb : BitVec 2) :
    (crumbByte field crumb).toNat = 4 * field.toNat + crumb.toNat := toNat_append_eq_mul_add field crumb

theorem nibbleByte_toNat (field low : BitVec 4) :
    (nibbleByte field low).toNat = 16 * field.toNat + low.toNat := toNat_append_eq_mul_add field low

/-! ### The states after a command's operands do not look at the cursor

A count byte moves the cursor before the operands are read; what they make of the state is addressed by its own
arguments. -/

section

variable (c : Nat) (s : State)

@[simp] theorem afterIndices_moveCursor (mk : Byte → Pixel) (first n : Nat) :
    (moveCursor c s).afterIndices mk first n = s.afterIndices mk first n := by
  simp only [State.afterIndices, emitAll_cursor_comm, moveCursor_moveCursor, moveCursor_buf]

@[simp] theorem cutShort_moveCursor (mk : Byte → Pixel) (first : Nat) :
    (moveCursor c s).cutShort mk first = s.cutShort mk first := by
  simp only [State.cutShort, emitAll_cursor_comm, moveCursor_moveCursor, moveCursor_buf]

@[simp] theorem afterSame_moveCursor (p : Pixel) (n next : Nat) :
    (moveCursor c s).afterSame p n next = s.afterSame p n next := by
  simp only [State.afterSame, emitAll_cursor_comm, moveCursor_moveCursor]

@[simp] theorem missingByte_moveCursor (a : Nat) : (moveCursor c s).missingByte a = s.missingByte a := rfl

end

/-! ### Operands that follow the cursor, and the end of the command (R145) -/

section

variable {s : State} {mk : Byte → Pixel} {n : Nat}

theorem retire_drawRun_fits (h : n = 0 ∨ s.cursor + 1 + n ≤ s.buf.len) :
    retire (drawRun mk n s) = .next (s.afterIndices mk (s.cursor + 1) n) := by
  have hnext : s.cursor + n + 1 = s.cursor + 1 + n := by omega
  rw [drawRun_ok (by omega), retire_ok, advance_eq, moveCursor_moveCursor, moveCursor_cursor, hnext]
  rfl

theorem retire_drawRun_cutShort (hn : n ≠ 0) (h : s.buf.len < s.cursor + 1 + n) :
    retire (drawRun mk n s) = .next (s.cutShort mk (s.cursor + 1)) := by
  rw [drawRun_truncated hn (by omega)]
  rfl

theorem retire_fillRun_present (h : s.cursor + 1 < s.buf.len) :
    retire (fillRun mk n s) = .next (s.afterSame (mk (s.buf.byte (s.cursor + 1))) n (s.cursor + 2)) := by
  rw [fillRun_ok h]
  rfl

theorem retire_fillRun_missing (h : s.buf.len ≤ s.cursor + 1) :
    retire (fillRun mk n s) = .next (s.missingByte (s.cursor + 1)) := by
  rw [fillRun_truncated h]
  rfl

theorem retire_repeatPixel (p : Pixel) : retire (repeatPixel p n s) = .next (s.afterSame p n (s.cursor + 1)) := by
  rw [repeatPixel_eq, retire_ok, advance_eq, emitAll_cursor]
  rfl

end

/-! ### Counts (R96, R97, R99): what is done with the count, or the missing count byte -/

section

variable {s : State} {w : Nat} {value : BitVec w} {body : Nat → State → Except State State}

theorem toNat_ne_zero_of_ne (h : value ≠ 0#w) : value.toNat ≠ 0 := by
  simpa [BitVec.toNat_ne] using h

theorem withPackedCount_short (h : value ≠ 0#w) :
    withCount (packedCount value.toNat s) body = body value.toNat s := by
  rw [packedCount_short (toNat_ne_zero_of_ne h), withCount_ok]

theorem withPackedCount_long (h : value = 0#w) (hbyte : s.cursor + 1 < s.buf.len) :
    withCount (packedCount value.toNat s) body =
      body (s.buf.byte (s.cursor + 1)).toNat (moveCursor (s.cursor + 1) s) := by
  rw [h, BitVec.toNat_ofNat, Nat.zero_mod, packedCount_long hbyte, withCount_ok]

theorem retire_withPackedCount_missing (h : value = 0#w) (hbyte : s.buf.len ≤ s.cursor + 1) :
    retire (withCount (packedCount value.toNat s) body) = .next (s.missingByte (s.cursor + 1)) := by
  rw [h, BitVec.toNat_ofNat, Nat.zero_mod, packedCount_truncated hbyte]
  rfl

theorem withBigCount_present {high : BitVec 4} (hbyte : s.cursor + 1 < s.buf.len) :
    withCount (bigCount high s) body =
      body (256 * high.toNat + (s.buf.byte (s.cursor + 1)).toNat) (moveCursor (s.cursor + 1) s) := by
  rw [bigCount_ok hbyte, withCount_ok]

theorem retire_withBigCount_missing {high : BitVec 4} (hbyte : s.buf.len ≤ s.cursor + 1) :
    retire (withCount (bigCount high s) body) = .next (s.missingByte (s.cursor + 1)) := by
  rw [bigCount_truncated hbyte]
  rfl

theorem withExtendedCount_present (hbyte : s.cursor + 1 < s.buf.len) :
    withCount (extendedCount s) body =
      body (s.buf.byte (s.cursor + 1)).toNat (moveCursor (s.cursor + 1) s) := by
  rw [extendedCount_ok hbyte, withCount_ok]

theorem retire_withExtendedCount_missing (hbyte : s.buf.len ≤ s.cursor + 1) :
    retire (withCount (extendedCount s) body) = .next (s.missingByte (s.cursor + 1)) := by
  rw [extendedCount_truncated hbyte]
  rfl

end

/-! ### Operands behind a count byte

The same facts from one byte further on: the cursor stands on the count byte. -/

section

variable {s : State} {mk : Byte → Pixel} {n : Nat}

theorem retire_drawRun_fits_of_countByte (h : n = 0 ∨ s.cursor + 2 + n ≤ s.buf.len) :
    retire (drawRun mk n (moveCursor (s.cursor + 1) s)) = .next (s.afterIndices mk (s.cursor + 2) n) := by
  rw [retire_drawRun_fits h, afterIndices_moveCursor]
  rfl

theorem retire_drawRun_cutShort_of_countByte (hn : n ≠ 0) (h : s.buf.len < s.cursor + 2 + n) :
    retire (drawRun mk n (moveCursor (s.cursor + 1) s)) = .next (s.cutShort mk (s.cursor + 2)) := by
  rw [retire_drawRun_cutShort hn h, cutShort_moveCursor]
  rfl

theorem retire_fillRun_present_of_countByte (h : s.cursor + 2 < s.buf.len) :
    retire (fillRun mk n (moveCursor (s.cursor + 1) s)) =
      .next (s.afterSame (mk (s.buf.byte (s.cursor + 2))) n (s.cursor + 3)) := by
  rw [retire_fillRun_present h, afterSame_moveCursor]
  rfl

theorem retire_fillRun_missing_of_countByte (h : s.buf.len ≤ s.cursor + 2) :
    retire (fillRun mk n (moveCursor (s.cursor + 1) s)) = .next (s.missingByte (s.cursor + 2)) := by
  rw [retire_fillRun_missing h, missingByte_moveCursor]
  rfl

theorem retire_repeatPixel_of_countByte (p : Pixel) :
    retire (repeatPixel p n (moveCursor (s.cursor + 1) s)) = .next (s.afterSame p n (s.cursor + 2)) := by
  rw [retire_repeatPixel, afterSame_moveCursor]
  rfl

end

/-! ### Commands that share a form -/

section

variable {s : State} {w : Nat} {value : BitVec w}

/-- LSKIP and SFILL, short form. -/
theorem packedRepeat_short (p : Pixel) (h : value ≠ 0#w) :
    retire (withCount (packedCount value.toNat s) (repeatPixel p)) =
      .next (s.afterSame p value.toNat (s.cursor + 1)) := by
  rw [withPackedCount_short h, retire_repeatPixel]

/-- LSKIP and SFILL, long form. -/
theorem packedRepeat_long (p : Pixel) (h : value = 0#w) (hbyte : s.cursor + 1 < s.buf.len) :
    retire (withCount (packedCount value.toNat s) (repeatPixel p)) =
      .next (s.afterSame p (s.buf.byte (s.cursor + 1)).toNat (s.cursor + 2)) := by
  rw [withPackedCount_long h hbyte, retire_repeatPixel_of_countByte]

/-- SP1N and SP2N. -/
theorem extendedRepeat_present (p : Pixel) (hbyte : s.cursor + 1 < s.buf.len) :
    retire (withCount (extendedCount s) (repeatPixel p)) =
      .next (s.afterSame p (s.buf.byte (s.cursor + 1)).toNat (s.cursor + 2)) := by
  rw [withExtendedCount_present hbyte, retire_repeatPixel_of_countByte]

/-- FILL and PFILL, short form, with its index byte. -/
theorem packedFill_short (mk : Byte → Pixel) (h : value ≠ 0#w) (hidx : s.cursor + 1 < s.buf.len) :
    retire (withCount (packedCount value.toNat s) (fillRun mk)) =
      .next (s.afterSame (mk (s.buf.byte (s.cursor + 1))) value.toNat (s.cursor + 2)) := by
  rw [withPackedCount_short h, retire_fillRun_present hidx]

/-- FILL and PFILL, short form, without its index byte. -/
theorem packedFill_short_missing (mk : Byte → Pixel) (h : value ≠ 0#w) (hidx : s.buf.len ≤ s.cursor + 1) :
    retire (withCount (packedCount value.toNat s) (fillRun mk)) = .next (s.missingByte (s.cursor + 1)) := by
  rw [withPackedCount_short h, retire_fillRun_missing hidx]

/-- FILL and PFILL, long form, with its index byte. -/
theorem packedFill_long (mk : Byte → Pixel) (h : value = 0#w) (hidx : s.cursor + 2 < s.buf.len) :
    retire (withCount (packedCount value.toNat s) (fillRun mk)) =
      .next (s.afterSame (mk (s.buf.byte (s.cursor + 2))) (s.buf.byte (s.cursor + 1)).toNat (s.cursor + 3)) := by
  rw [withPackedCount_long h (Nat.lt_of_succ_lt hidx), retire_fillRun_present_of_countByte hidx]

/-- FILL and PFILL, long form, with its count byte and without its index byte. -/
theorem packedFill_long_missing (mk : Byte → Pixel) (h : value = 0#w) (hbyte : s.cursor + 1 < s.buf.len)
    (hidx : s.buf.len ≤ s.cursor + 2) :
    retire (withCount (packedCount value.toNat s) (fillRun mk)) = .next (s.missingByte (s.cursor + 2)) := by
  rw [withPackedCount_long h hbyte, retire_fillRun_missing_of_countByte hidx]

end

/-! ### The commands -/

/-- Settles O9: the count is in the command byte, so the run of indices is all there is to read. -/
theorem ldrawDrawsItsIndices : Obligations.LdrawDrawsItsIndices := fun count _ =>
  ⟨crumbByte_toNat count 0b00#2, retire_drawRun_fits, retire_drawRun_cutShort⟩

/-- Settles O10: the two forms of the PEC count, and its missing byte. -/
theorem lskipEmitsTransparent : Obligations.LskipEmitsTransparent := fun value _ =>
  ⟨crumbByte_toNat value 0b01#2, packedRepeat_short .transparent, packedRepeat_long .transparent,
    retire_withPackedCount_missing⟩

/-- Settles O11: a present count byte leads to the run of indices behind it. -/
theorem bdrawDrawsItsIndices : Obligations.BdrawDrawsItsIndices := by
  intro high s n
  have hcount (hbyte : s.cursor + 1 < s.buf.len) :
      exec (.bdraw high) s = retire (drawRun .palette n (moveCursor (s.cursor + 1) s)) :=
    congrArg retire (withBigCount_present hbyte)
  refine ⟨nibbleByte_toNat high 0x2#4, fun hbyte hfits => ?fits, fun hbyte hn hshort => ?short, fun hnone => ?none⟩
  case fits => rw [hcount hbyte, retire_drawRun_fits_of_countByte hfits]
  case short => rw [hcount hbyte, retire_drawRun_cutShort_of_countByte hn hshort]
  case none => exact retire_withBigCount_missing hnone

/-- Settles O12: a present count byte is the only byte read. -/
theorem bskipEmitsTransparent : Obligations.BskipEmitsTransparent := by
  intro high s
  refine ⟨nibbleByte_toNat high 0x3#4, fun hbyte => ?present, fun hnone => ?none⟩
  case present =>
    exact (congrArg retire (withBigCount_present hbyte)).trans (retire_repeatPixel_of_countByte .transparent)
  case none => exact retire_withBigCount_missing hnone

/-- Settles O13: the run of indices stands right behind the command byte in the short form, behind the count byte in
the long form. -/
theorem playerDrawsItsIndices : Obligations.PlayerDrawsItsIndices := by
  intro value s n
  have hshortForm (h : value ≠ 0#4) : exec (.player value) s = retire (drawRun .player value.toNat s) :=
    congrArg retire (withPackedCount_short h)
  have hlongForm (h : value = 0#4) (hbyte : s.cursor + 1 < s.buf.len) :
      exec (.player value) s = retire (drawRun .player n (moveCursor (s.cursor + 1) s)) :=
    congrArg retire (withPackedCount_long h hbyte)
  refine ⟨nibbleByte_toNat value 0x6#4, fun h hfits => ?shortFits, fun h hcut => ?shortCut,
    fun h hbyte hfits => ?longFits, fun h hbyte hn hcut => ?longCut, retire_withPackedCount_missing⟩
  case shortFits => rw [hshortForm h, retire_drawRun_fits (.inr hfits)]
  case shortCut => rw [hshortForm h, retire_drawRun_cutShort (toNat_ne_zero_of_ne h) hcut]
  case longFits => rw [hlongForm h hbyte, retire_drawRun_fits_of_countByte hfits]
  case longCut => rw [hlongForm h hbyte, retire_drawRun_cutShort_of_countByte hn hcut]

/-- Settles O14: FILL and PFILL are one form, for two kinds of pixel. -/
theorem fillsRepeatTheirSharedIndex : Obligations.FillsRepeatTheirSharedIndex := by
  intro value s fills
  refine ⟨nibbleByte_toNat value 0x7#4, nibbleByte_toNat value 0xA#4, ?fill, ?pfill⟩
  case fill =>
    exact ⟨packedFill_short .palette, packedFill_short_missing .palette, packedFill_long .palette,
      packedFill_long_missing .palette, retire_withPackedCount_missing⟩
  case pfill =>
    exact ⟨packedFill_short .player, packedFill_short_missing .player, packedFill_long .player,
      packedFill_long_missing .player, retire_withPackedCount_missing⟩

/-- Settles O15: as LSKIP, with Shadow pixels. -/
theorem sfillEmitsShadow : Obligations.SfillEmitsShadow := fun value _ =>
  ⟨nibbleByte_toNat value 0xB#4, packedRepeat_short .shadow, packedRepeat_long .shadow,
    retire_withPackedCount_missing⟩

/-- Settles O18: a count byte of 0 is a count like any other. -/
theorem specialRunsEmitTheirCount : Obligations.SpecialRunsEmitTheirCount := fun _ =>
  ⟨rfl, rfl, fun hbyte => ⟨extendedRepeat_present .special1 hbyte, extendedRepeat_present .special2 hbyte⟩,
    fun hnone => ⟨retire_withExtendedCount_missing hnone, retire_withExtendedCount_missing hnone⟩⟩

/-! ### Commands without operands -/

theorem noOperation_eq (s : State) : noOperation s = .next { s with cursor := s.cursor + 1 } := rfl

theorem retire_emitOne (p : Pixel) (s : State) :
    retire (.ok (emit p s)) = .next (s.afterSame p 1 (s.cursor + 1)) := rfl

theorem reservedExtended_eq (s : State) :
    reservedExtended s = .next (raise .unknownExtendedCommand s.cursor s) := rfl

theorem exec_eor_of_exact {high : BitVec 4} {s : State} (h : (s.emitted : Int) = s.expected) :
    exec (.eor high) s = .next { s with phase := .rowEnd } := if_pos h

theorem exec_eor_of_not_exact {high : BitVec 4} {s : State} (h : (s.emitted : Int) ≠ s.expected) :
    exec (.eor high) s = .next (raise .rowOverrun s.cursor s) := if_neg h

/-- Settles O16: the seven commands are `noOperation`. -/
theorem recognisedExtendedBytesOnlyAdvance : Obligations.RecognisedExtendedBytesOnlyAdvance := by
  intro s x hx
  simp only [List.mem_cons, List.not_mem_nil, or_false] at hx
  rcases hx with rfl | rfl | rfl | rfl | rfl | rfl | rfl <;> exact ⟨rfl, noOperation_eq s⟩

/-- Settles O17: one emitted pixel is a run of one. -/
theorem specialCommandsEmitOnePixel : Obligations.SpecialCommandsEmitOnePixel := fun s =>
  ⟨rfl, rfl, retire_emitOne .special1 s, retire_emitOne .special2 s⟩

/-- Settles O19: the five commands are `reservedExtended`, and an error entry keeps the cursor. -/
theorem reservedBytesRaiseUnknownExtendedCommand : Obligations.ReservedBytesRaiseUnknownExtendedCommand := by
  intro s x hx
  simp only [List.mem_cons, List.not_mem_nil, or_false] at hx
  rcases hx with rfl | rfl | rfl | rfl | rfl <;> exact ⟨rfl, reservedExtended_eq s, raise_cursor _ _ s⟩

/-- Settles O20: the count decides, whatever the high nibble. -/
theorem eorEndsAnExactRowAndRejectsAnyOther : Obligations.EorEndsAnExactRowAndRejectsAnyOther := fun high _ =>
  ⟨nibbleByte_toNat high 0xF#4, exec_eor_of_exact, exec_eor_of_not_exact⟩

end Sys2Proof.Proofs
end

section
/-! PROOFS. The family 41_row_commands.md: the start of a row, fully transparent (R141) or interpreted (R144). -/

namespace Sys2Proof.Proofs

open Sys2Proof.Machine

/-! ### Padding (R143) and `NextRow` (R214) keep what they do not write -/

section

variable (c n : Nat) (s : State)

theorem padFrom_keepsStatus : s.KeepsStatus (padFrom c n s) := by simp [State.KeepsStatus]

theorem padFrom_keepsErrors : s.KeepsErrors (padFrom c n s) := by simp [State.KeepsErrors]

theorem padFrom_keepsTables : s.KeepsTables (padFrom c n s) := by simp [State.KeepsTables]

theorem padFrom_keepsInputs : s.KeepsInputs (padFrom c n s) := by simp [State.KeepsInputs]

theorem raise_keepsInputs (e : ErrCode) (a : Nat) : s.KeepsInputs (raise e a s) := ⟨rfl, rfl, rfl, rfl, rfl⟩

theorem raise_enteredError (e : ErrCode) (a : Nat) : s.EnteredError (raise e a s) e a :=
  ⟨rfl, rfl, rfl, rfl, rfl, rfl, rfl, rfl, rfl, rfl⟩

end

section

variable {s t : State}

theorem keepsErrors_nextRow (h : s.KeepsErrors t) : s.KeepsErrors (nextRow t) := by
  simpa [State.KeepsErrors] using h

theorem keepsTables_nextRow (h : s.KeepsTables t) : s.KeepsTables (nextRow t) := by
  simpa [State.KeepsTables] using h

theorem keepsInputs_nextRow (h : s.KeepsInputs t) : s.KeepsInputs (nextRow t) := by
  simpa [State.KeepsInputs] using h

@[simp] theorem nextRow_pixel? (r c : Nat) : (nextRow s).pixel? r c = s.pixel? r c :=
  pixel?_congr (nextRow_grid s) r c

theorem nextRow_last (h : ((s.row + 1 : Nat) : Int) = s.desc.heightInt) :
    (nextRow s).status = .done ∧ (nextRow s).phase = s.phase := by
  rw [nextRow, if_pos h]
  exact ⟨rfl, rfl⟩

theorem nextRow_more (h : ((s.row + 1 : Nat) : Int) ≠ s.desc.heightInt) :
    (nextRow s).status = s.status ∧ (nextRow s).phase = .rowStart := by
  rw [nextRow, if_neg h]
  exact ⟨rfl, rfl⟩

end

/-! ### The registers at a row's start, and the padding from column 0 on -/

/-- `s` with the registers of a row whose commands begin at `start` and that expects this many pixels (R141, R144). -/
def atRowStart (expected : Int) (start : Nat) (s : State) : State :=
  { s with expected := expected, emitted := 0, cursor := start }

theorem padFrom_zero_pixel? (n : Nat) (s : State) (r c : Nat) :
    (padFrom 0 n s).pixel? r c = if r = s.row ∧ c < n then some Pixel.transparent.word else s.pixel? r c := by
  simp [padFrom_pixel?]

section

variable {s : State} {bound : RowBound} {start : Nat}

theorem transparentRow_eq : transparentRow start s = padFrom 0 s.desc.widthInt.toNat (atRowStart 0 start s) := rfl

theorem rowEntry_overrun (h : s.desc.widthInt - bound.left.toNat - bound.right.toNat < 0) :
    rowEntry bound start s =
      .error (raise .rowOverrun start
        (atRowStart (s.desc.widthInt - bound.left.toNat - bound.right.toNat) start s)) := if_pos h

theorem rowEntry_ok (h : 0 ≤ s.desc.widthInt - bound.left.toNat - bound.right.toNat) :
    rowEntry bound start s =
      .ok (padFrom 0 bound.left.toNat
        (atRowStart (s.desc.widthInt - bound.left.toNat - bound.right.toNat) start s)) := if_neg (not_lt.mpr h)

/-! ### The step ROW_START (R211) -/

theorem stepRowStart_full (h : (s.boundAt s.row).full = true) :
    stepRowStart s = nextRow (transparentRow (s.offsetAt s.row).toNat s) := if_pos h

theorem stepRowStart_ok {t : State} (h : (s.boundAt s.row).full = false)
    (hentry : rowEntry (s.boundAt s.row) (s.offsetAt s.row).toNat s = .ok t) :
    stepRowStart s = { t with phase := .cmds } := by
  simp only [stepRowStart, h, hentry, Bool.false_eq_true, if_false]

theorem stepRowStart_error {t : State} (h : (s.boundAt s.row).full = false)
    (hentry : rowEntry (s.boundAt s.row) (s.offsetAt s.row).toNat s = .error t) : stepRowStart s = t := by
  simp only [stepRowStart, h, hentry, Bool.false_eq_true, if_false]

theorem step_eq_stepRowStart (hstatus : s.status = .running) (hphase : s.phase = .rowStart)
    (hmoves : s.hostMoves = []) : step s = .next (stepRowStart s) := by
  simp only [step, hmoves, blockStep, hstatus, hphase]

end

/-- Settles O35: the row is padding from column 0 on, and padding reads no byte. -/
theorem transparentRowReadsNoByte : Obligations.TransparentRowReadsNoByte := by
  intro s hstatus hphase hmoves hfull
  have hstep := step_eq_stepRowStart hstatus hphase hmoves
  rw [stepRowStart_full hfull] at hstep
  refine ⟨_, hstep, (nextRow_expected _).trans (padFrom_expected _ _ _),
    (nextRow_emitted _).trans (padFrom_emitted _ _ _), (nextRow_cursor _).trans (padFrom_cursor _ _ _),
    fun r c => (nextRow_pixel? r c).trans (padFrom_zero_pixel? _ _ r c),
    (nextRow_row _).trans (congrArg (· + 1) (padFrom_row _ _ _)), (nextRow_idx _).trans (padFrom_idx _ _ _),
    keepsErrors_nextRow (padFrom_keepsErrors _ _ _), keepsTables_nextRow (padFrom_keepsTables _ _ _),
    keepsInputs_nextRow (padFrom_keepsInputs _ _ _), fun hlast => ?last, fun hmore => ?more⟩
  case last =>
    obtain ⟨hdone, hkept⟩ := nextRow_last (s := transparentRow (s.offsetAt s.row).toNat s)
      (by rwa [transparentRow_eq, padFrom_row, padFrom_desc])
    exact ⟨hdone, hkept.trans (padFrom_phase _ _ _)⟩
  case more =>
    obtain ⟨hkept, hnext⟩ := nextRow_more (s := transparentRow (s.offsetAt s.row).toNat s)
      (by rwa [transparentRow_eq, padFrom_row, padFrom_desc])
    exact ⟨(hkept.trans (padFrom_status _ _ _)).trans hstatus, hnext⟩

/-- Settles O36: the sign of EXPECTED decides between the error entry and the left padding. -/
theorem rowEntrySetsTheRowUp : Obligations.RowEntrySetsTheRowUp := by
  intro s hstatus hphase hmoves hfull left expected start
  have hstep := step_eq_stepRowStart hstatus hphase hmoves
  by_cases hexpected : expected < 0
  case pos =>
    rw [stepRowStart_error hfull (rowEntry_overrun hexpected)] at hstep
    exact ⟨_, hstep, rfl, rfl, rfl, rfl, rfl, raise_keepsInputs _ _ _,
      fun _ => ⟨raise_enteredError _ _ _, hphase⟩, fun hnonneg => absurd hexpected (not_lt.mpr hnonneg)⟩
  case neg =>
    rw [stepRowStart_ok hfull (rowEntry_ok (not_lt.mp hexpected))] at hstep
    exact ⟨_, hstep, padFrom_expected _ _ _, padFrom_emitted _ _ _, padFrom_cursor _ _ _, padFrom_row _ _ _,
      padFrom_idx _ _ _, padFrom_keepsInputs _ _ _, fun hneg => absurd hneg hexpected,
      fun _ => ⟨padFrom_keepsStatus _ _ _, padFrom_keepsTables _ _ _, rfl, padFrom_zero_pixel? _ _⟩⟩

end Sys2Proof.Proofs
end

section
/-! PROOFS. The family 42_frame_assembler.md: a command against the pure function of its pixels, whatever the rest of
the state holds. -/

namespace Sys2Proof.Proofs

open Sys2Proof.Machine

/-- The action `y` does what the pixel function's answer `x` for the buffer `m` says: it emits the pixels and goes to the
next address, or emits some pixels and enters the error. Which pixels these are depends on no state. -/
def Yields (m : Memory) : Except RowError (List Pixel × Nat) → (State → Host.Outcome State Fault Refusal) → Prop
  | .ok (ps, next), y => ∀ s, s.buf = m → y s = .next (moveCursor next (emitAll ps s))
  | .error e, y => ∃ ps, ∀ s, s.buf = m → y s = .next (raise e.code e.offset (moveCursor e.offset (emitAll ps s)))

section

variable {m : Memory} {c : Nat} {mk : Byte → Pixel}

theorem Yields.congr {x : Except RowError (List Pixel × Nat)} {y y' : State → Host.Outcome State Fault Refusal}
    (hy : ∀ s, s.buf = m → y s = y' s) (h : Yields m x y') : Yields m x y := by
  cases x with
  | ok r => exact fun s hs => (hy s hs).trans (h s hs)
  | error e =>
    obtain ⟨ps, h⟩ := h
    exact ⟨ps, fun s hs => (hy s hs).trans (h s hs)⟩

/-! ### The operand forms, from a cursor on the byte before the operands -/

theorem indexRun_yields (n : Nat) :
    Yields m (indexRun m mk (c + 1) n) fun s => retire (drawRun mk n (moveCursor c s)) := by
  unfold indexRun
  split
  case isTrue hfits =>
    intro s hs
    subst hs
    exact (retire_drawRun_fits hfits).trans (congrArg _ (afterIndices_moveCursor c s mk (c + 1) n))
  case isFalse hcut =>
    refine ⟨(m.bytesFrom (c + 1) (m.len - (c + 1))).map mk, fun s hs => ?_⟩
    subst hs
    obtain ⟨hn, hshort⟩ := not_or.mp hcut
    exact (retire_drawRun_cutShort hn (Nat.lt_of_not_le hshort)).trans
      (congrArg _ (cutShort_moveCursor c s mk (c + 1)))

theorem samePixels_yields (p : Pixel) (n : Nat) :
    Yields m (samePixels p n (c + 1)) fun s => retire (repeatPixel p n (moveCursor c s)) :=
  fun s _ => (retire_repeatPixel p).trans (congrArg _ (afterSame_moveCursor c s p n (c + 1)))

/-- A byte that is read, or TruncatedInput at it. -/
theorem afterByte_yields {k : Byte → Except RowError (List Pixel × Nat)} {a : Nat}
    {y : State → Host.Outcome State Fault Refusal} (hpresent : a < m.len → Yields m (k (m.byte a)) y)
    (hmissing : m.len ≤ a → ∀ s, s.buf = m → y s = .next (s.missingByte a)) : Yields m (afterByte m a k) y := by
  unfold afterByte
  split
  case isTrue h => exact hpresent h
  case isFalse h => exact ⟨[], hmissing (Nat.le_of_not_lt h)⟩

theorem sharedIndex_yields (n : Nat) :
    Yields m (afterByte m (c + 1) fun b => samePixels (mk b) n (c + 2))
      fun s => retire (fillRun mk n (moveCursor c s)) := by
  refine afterByte_yields (fun h s hs => ?present) fun h s hs => ?missing
  case present =>
    subst hs
    exact (retire_fillRun_present h).trans (congrArg _ (afterSame_moveCursor c s _ n (c + 2)))
  case missing =>
    subst hs
    exact retire_fillRun_missing h

section

variable {body : Nat → State → Except State State}

theorem afterPacked_yields {w : Nat} (value : BitVec w) {k : Nat → Nat → Except RowError (List Pixel × Nat)}
    (hbody : ∀ n d, Yields m (k n (d + 1)) fun s => retire (body n (moveCursor d s))) :
    Yields m (afterPacked m (c + 1) value.toNat k)
      fun s => retire (withCount (packedCount value.toNat (moveCursor c s)) body) := by
  unfold afterPacked
  split
  case isTrue hzero =>
    have hlong : value = 0#w := BitVec.eq_of_toNat_eq (by simpa using hzero)
    refine afterByte_yields (fun h => (hbody _ (c + 1)).congr fun s hs => ?present) fun h s hs => ?missing
    case present =>
      subst hs
      exact congrArg retire (withPackedCount_long (s := moveCursor c s) hlong h)
    case missing =>
      subst hs
      exact retire_withPackedCount_missing (s := moveCursor c s) hlong h
  case isFalse hne =>
    have hshort : value ≠ 0#w := fun h => hne (by simp [h])
    exact (hbody _ c).congr fun s _ => congrArg retire (withPackedCount_short hshort)

theorem bigCount_yields (high : BitVec 4) {k : Byte → Except RowError (List Pixel × Nat)}
    (hbody : ∀ b, Yields m (k b) fun s => retire (body (256 * high.toNat + b.toNat) (moveCursor (c + 1) s))) :
    Yields m (afterByte m (c + 1) k) fun s => retire (withCount (bigCount high (moveCursor c s)) body) := by
  refine afterByte_yields (fun h => (hbody _).congr fun s hs => ?present) fun h s hs => ?missing
  case present =>
    subst hs
    exact congrArg retire (withBigCount_present (s := moveCursor c s) h)
  case missing =>
    subst hs
    exact retire_withBigCount_missing (s := moveCursor c s) h

theorem extendedCount_yields {k : Byte → Except RowError (List Pixel × Nat)}
    (hbody : ∀ b, Yields m (k b) fun s => retire (body b.toNat (moveCursor (c + 1) s))) :
    Yields m (afterByte m (c + 1) k) fun s => retire (withCount (extendedCount (moveCursor c s)) body) := by
  refine afterByte_yields (fun h => (hbody _).congr fun s hs => ?present) fun h s hs => ?missing
  case present =>
    subst hs
    exact congrArg retire (withExtendedCount_present (s := moveCursor c s) h)
  case missing =>
    subst hs
    exact retire_withExtendedCount_missing (s := moveCursor c s) h

end

/-! ### The commands -/

theorem noOperation_yields : Yields m (.ok ([], c + 1)) fun s => noOperation (moveCursor c s) := fun _ _ => rfl

theorem emitOne_yields (p : Pixel) :
    Yields m (.ok ([p], c + 1)) fun s => retire (.ok (emit p (moveCursor c s))) := fun _ _ => rfl

theorem reservedExtended_yields :
    Yields m (.error ⟨.unknownExtendedCommand, c⟩) fun s => reservedExtended (moveCursor c s) :=
  ⟨[], fun _ _ => rfl⟩

/-- Every command but EOR does what the pixel function says of it. -/
theorem exec_yields (m : Memory) (c : Nat) (i : Instr) (hi : ∀ high, i ≠ .eor high) :
    Yields m (commandPixels m c i) fun s => exec i (moveCursor c s) := by
  cases i with
  | ldraw count => exact indexRun_yields _
  | lskip value => exact afterPacked_yields value fun n d => samePixels_yields .transparent n
  | bdraw high => exact bigCount_yields high fun b => indexRun_yields _
  | bskip high => exact bigCount_yields high fun b => samePixels_yields .transparent _
  | player value =>
    exact afterPacked_yields (k := fun n a => indexRun m .player a n) value
      fun n d => indexRun_yields n
  | fill value =>
    exact afterPacked_yields (k := fun n a => afterByte m a fun b => samePixels (.palette b) n (a + 1)) value
      fun n d => sharedIndex_yields n
  | pfill value =>
    exact afterPacked_yields (k := fun n a => afterByte m a fun b => samePixels (.player b) n (a + 1)) value
      fun n d => sharedIndex_yields n
  | sfill value => exact afterPacked_yields value fun n d => samePixels_yields .shadow n
  | xflip0 => exact noOperation_yields
  | xflip1 => exact noOperation_yields
  | xpal0 => exact noOperation_yields
  | xpal1 => exact noOperation_yields
  | sp1 => exact emitOne_yields .special1
  | sp1n => exact extendedCount_yields fun b => samePixels_yields .special1 _
  | sp2 => exact emitOne_yields .special2
  | sp2n => exact extendedCount_yields fun b => samePixels_yields .special2 _
  | xda8 => exact noOperation_yields
  | xda9 => exact noOperation_yields
  | xdaa => exact noOperation_yields
  | rsvdBE => exact reservedExtended_yields
  | rsvdCE => exact reservedExtended_yields
  | rsvdDE => exact reservedExtended_yields
  | rsvdEE => exact reservedExtended_yields
  | rsvdFE => exact reservedExtended_yields
  | eor high => exact absurd rfl (hi high)

end

/-- The cursor of a command that does not end in an error lies past its byte. -/
theorem commandPixels_next_gt {m : Memory} {c next : Nat} {i : Instr} {ps : List Pixel} (hi : ∀ high, i ≠ .eor high)
    (h : commandPixels m c i = .ok (ps, next)) : c < next := by
  have hyields := exec_yields m c i hi
  rw [h] at hyields
  -- any running state with this buffer shows how far the command moves the cursor
  have hexec := hyields { State.reset with buf := m, status := .running } rfl
  rcases exec_cases hexec with ⟨high, heor, -⟩ | ⟨qs, d, -, -, hlt, heq⟩ | ⟨qs, d, -, -, -, -, heq⟩ | heq
  · exact absurd heor (hi high)
  · have hcursor : next = d := by simpa using congrArg State.cursor heq
    exact hcursor ▸ hlt
  · exact absurd (congrArg State.status heq) (by simp)
  · exact absurd (congrArg State.status heq) (by simp)

end Sys2Proof.Proofs
end

section
/-! PROOFS. The family 42_frame_assembler.md: one turn of the block, its phases CMDS and ROW_END (R212, R213), and the
descriptor fields that it never reads (R216). -/

namespace Sys2Proof.Proofs

open Sys2Proof.Machine

/-! ### The turn of a phase -/

section

variable {s : State}

theorem step_eq_stepCheck (hstatus : s.status = .running) (hphase : s.phase = .check) (hmoves : s.hostMoves = []) :
    step s = .next (stepCheck s) := by
  simp only [step, hmoves, blockStep, hstatus, hphase]

theorem step_eq_cmdsPass (hstatus : s.status = .running) (hphase : s.phase = .cmds) (hmoves : s.hostMoves = []) :
    step s = cmdsPass s := by
  simp only [step, hmoves, blockStep, hstatus, hphase]

theorem step_eq_stepRowEnd (hstatus : s.status = .running) (hphase : s.phase = .rowEnd) (hmoves : s.hostMoves = []) :
    step s = .next (stepRowEnd s) := by
  simp only [step, hmoves, blockStep, hstatus, hphase]

/-! ### One pass of the command loop: the count check, the read, the command (R145, R146, R239) -/

theorem cmdsPass_overrun (h : s.expected < (s.emitted : Int)) :
    cmdsPass s = .next (raise .rowOverrun s.cursor s) := by
  simp only [cmdsPass, fetch, checkCount, if_pos h]

theorem cmdsPass_truncated (hcount : ¬ s.expected < (s.emitted : Int)) (hread : s.buf.len ≤ s.cursor) :
    cmdsPass s = .next (raise .truncatedInput s.cursor s) := by
  have hmissing := memRead_error (n := 1) (Nat.lt_succ_of_le hread)
  simp only [cmdsPass, fetch, checkCount, if_neg hcount, readCommand, hmissing]

theorem cmdsPass_decoded {i : Instr} (hcount : ¬ s.expected < (s.emitted : Int)) (hread : s.cursor < s.buf.len)
    (hdecode : decode (s.buf.byte s.cursor) = .ok i) : cmdsPass s = exec i s := by
  have hbyte : readCommand s = .ok (s.buf.byte s.cursor) := by
    simp [readCommand, memRead_ok (n := 1) (Nat.succ_le_of_lt hread), Memory.littleEndian_one]
  simp only [cmdsPass, fetch, checkCount, if_neg hcount, hbyte, hdecode]

end

/-! ### The end of a row (R213) -/

/-- Settles O37: the step is the padding and `NextRow`. -/
theorem rowEndPadsTheRightAndGoesOn : Obligations.RowEndPadsTheRightAndGoesOn := by
  intro s hstatus hphase hmoves _ first
  have hstep := step_eq_stepRowEnd hstatus hphase hmoves
  refine ⟨_, hstep, fun r c => (nextRow_pixel? r c).trans (padFrom_pixel? _ _ _ r c),
    (nextRow_row _).trans (congrArg (· + 1) (padFrom_row _ _ _)), (nextRow_cursor _).trans (padFrom_cursor _ _ _),
    (nextRow_emitted _).trans (padFrom_emitted _ _ _), (nextRow_expected _).trans (padFrom_expected _ _ _),
    (nextRow_idx _).trans (padFrom_idx _ _ _), keepsErrors_nextRow (padFrom_keepsErrors _ _ _),
    keepsTables_nextRow (padFrom_keepsTables _ _ _), keepsInputs_nextRow (padFrom_keepsInputs _ _ _),
    fun hlast => ?last, fun hmore => ?more⟩
  case last =>
    obtain ⟨hdone, hkept⟩ := nextRow_last (s := padFrom first (s.boundAt s.row).right.toNat s)
      (by rwa [padFrom_row, padFrom_desc])
    exact ⟨hdone, hkept.trans (padFrom_phase _ _ _)⟩
  case more =>
    obtain ⟨hkept, hnext⟩ := nextRow_more (s := padFrom first (s.boundAt s.row).right.toNat s)
      (by rwa [padFrom_row, padFrom_desc])
    exact ⟨(hkept.trans (padFrom_status _ _ _)).trans hstatus, hnext⟩

/-! ### The fields that no rule reads (R216): each operation commutes with a change of them -/

section

variable (d : Descriptor) (s : State)

theorem emitAll_withUnreadFields (ps : List Pixel) :
    emitAll ps (s.withUnreadFields d) = (emitAll ps s).withUnreadFields d := by
  induction ps generalizing s with
  | nil => rfl
  | cons p ps ih => exact ih (emit p s)

theorem padFrom_withUnreadFields (c n : Nat) :
    padFrom c n (s.withUnreadFields d) = (padFrom c n s).withUnreadFields d := by
  induction n generalizing c s with
  | zero => rfl
  | succ n ih => exact ih (writePixel s.row c .transparent s) (c + 1)

/-- A test, and the change of the unread fields in its two outcomes. -/
theorem ite_withUnreadFields (c : Prop) [Decidable c] (t u : State) :
    (if c then t else u).withUnreadFields d = if c then t.withUnreadFields d else u.withUnreadFields d :=
  apply_ite (fun t : State => t.withUnreadFields d) c t u

theorem nextRow_withUnreadFields : nextRow (s.withUnreadFields d) = (nextRow s).withUnreadFields d := by
  unfold nextRow
  rw [ite_withUnreadFields]
  rfl

theorem stepCheck_withUnreadFields : stepCheck (s.withUnreadFields d) = (stepCheck s).withUnreadFields d := by
  unfold stepCheck
  rw [ite_withUnreadFields, ite_withUnreadFields]
  rfl

theorem stepBounds_withUnreadFields : stepBounds (s.withUnreadFields d) = (stepBounds s).withUnreadFields d := by
  by_cases hfits : entryAddress s.desc.boundsTableOffset s.idx + 4 ≤ s.buf.len
  · rw [stepBounds_ok (boundEntry_ok hfits), stepBounds_ok (s := s.withUnreadFields d) (boundEntry_ok hfits),
      ite_withUnreadFields]
    rfl
  · have hshort := Nat.lt_of_not_le hfits
    rw [stepBounds_error (boundEntry_truncated hshort),
      stepBounds_error (s := s.withUnreadFields d) (boundEntry_truncated hshort)]
    rfl

theorem stepCmdtab_withUnreadFields : stepCmdtab (s.withUnreadFields d) = (stepCmdtab s).withUnreadFields d := by
  by_cases hfits : entryAddress s.desc.cmdTableOffset s.idx + 4 ≤ s.buf.len
  · rw [stepCmdtab_ok (cmdEntry_ok hfits), stepCmdtab_ok (s := s.withUnreadFields d) (cmdEntry_ok hfits),
      ite_withUnreadFields]
    rfl
  · have hshort := Nat.lt_of_not_le hfits
    rw [stepCmdtab_error (cmdEntry_truncated hshort),
      stepCmdtab_error (s := s.withUnreadFields d) (cmdEntry_truncated hshort)]
    rfl

theorem stepRowStart_withUnreadFields :
    stepRowStart (s.withUnreadFields d) = (stepRowStart s).withUnreadFields d := by
  cases hfull : (s.boundAt s.row).full
  case true =>
    rw [stepRowStart_full hfull, stepRowStart_full (s := s.withUnreadFields d) hfull, ← nextRow_withUnreadFields]
    exact congrArg nextRow (padFrom_withUnreadFields d (atRowStart 0 (s.offsetAt s.row).toNat s) 0 _)
  case false =>
    by_cases hneg : s.desc.widthInt - (s.boundAt s.row).left.toNat - (s.boundAt s.row).right.toNat < 0
    · rw [stepRowStart_error hfull (rowEntry_overrun hneg),
        stepRowStart_error (s := s.withUnreadFields d) hfull (rowEntry_overrun hneg)]
      rfl
    · have hnonneg := not_lt.mp hneg
      rw [stepRowStart_ok hfull (rowEntry_ok hnonneg),
        stepRowStart_ok (s := s.withUnreadFields d) hfull (rowEntry_ok hnonneg)]
      exact congrArg (fun t : State => { t with phase := .cmds })
        (padFrom_withUnreadFields d (atRowStart _ (s.offsetAt s.row).toNat s) 0 _)

theorem stepRowEnd_withUnreadFields : stepRowEnd (s.withUnreadFields d) = (stepRowEnd s).withUnreadFields d :=
  (congrArg nextRow (padFrom_withUnreadFields d s _ _)).trans (nextRow_withUnreadFields d _)

/-- An EOR reads the counts only; of any other command the pixels and the next address depend on the buffer only. -/
theorem exec_withUnreadFields (i : Instr) :
    exec i (s.withUnreadFields d) = mapNext (·.withUnreadFields d) (exec i s) := by
  by_cases hi : ∀ high, i ≠ .eor high
  case neg =>
    obtain ⟨high, rfl⟩ : ∃ high, i = .eor high := by simpa using hi
    by_cases hexact : (s.emitted : Int) = s.expected
    · rw [exec_eor_of_exact hexact, exec_eor_of_exact (s := s.withUnreadFields d) hexact]
      rfl
    · rw [exec_eor_of_not_exact hexact, exec_eor_of_not_exact (s := s.withUnreadFields d) hexact]
      rfl
  case pos =>
    have hyields := exec_yields s.buf s.cursor i hi
    cases hpixels : commandPixels s.buf s.cursor i with
    | ok r =>
      obtain ⟨ps, next⟩ := r
      rw [hpixels] at hyields
      have hs : exec i s = .next (moveCursor next (emitAll ps s)) := hyields s rfl
      have hd : exec i (s.withUnreadFields d) = .next (moveCursor next (emitAll ps (s.withUnreadFields d))) :=
        hyields (s.withUnreadFields d) rfl
      rw [hs, hd, emitAll_withUnreadFields]
      rfl
    | error e =>
      rw [hpixels] at hyields
      obtain ⟨ps, hyields⟩ := hyields
      have hs : exec i s = .next (raise e.code e.offset (moveCursor e.offset (emitAll ps s))) := hyields s rfl
      have hd : exec i (s.withUnreadFields d) =
          .next (raise e.code e.offset (moveCursor e.offset (emitAll ps (s.withUnreadFields d)))) :=
        hyields (s.withUnreadFields d) rfl
      rw [hs, hd, emitAll_withUnreadFields]
      rfl

theorem cmdsPass_withUnreadFields :
    cmdsPass (s.withUnreadFields d) = mapNext (·.withUnreadFields d) (cmdsPass s) := by
  by_cases hcount : s.expected < (s.emitted : Int)
  · rw [cmdsPass_overrun hcount, cmdsPass_overrun (s := s.withUnreadFields d) hcount]
    rfl
  · by_cases hread : s.buf.len ≤ s.cursor
    · rw [cmdsPass_truncated hcount hread, cmdsPass_truncated (s := s.withUnreadFields d) hcount hread]
      rfl
    · obtain ⟨i, hdecode, -⟩ := decode_readsBack (s.buf.byte s.cursor)
      have hread := Nat.lt_of_not_le hread
      rw [cmdsPass_decoded hcount hread hdecode,
        cmdsPass_decoded (s := s.withUnreadFields d) hcount hread hdecode, exec_withUnreadFields]

theorem blockStep_withUnreadFields :
    blockStep (s.withUnreadFields d) = mapNext (·.withUnreadFields d) (blockStep s) := by
  have hstatus : (s.withUnreadFields d).status = s.status := rfl
  have hphase : (s.withUnreadFields d).phase = s.phase := rfl
  unfold blockStep
  rw [hstatus, hphase]
  cases s.status with
  | running =>
    cases s.phase with
    | check => exact congrArg _ (stepCheck_withUnreadFields d s)
    | bounds => exact congrArg _ (stepBounds_withUnreadFields d s)
    | cmdtab => exact congrArg _ (stepCmdtab_withUnreadFields d s)
    | rowStart => exact congrArg _ (stepRowStart_withUnreadFields d s)
    | cmds => exact cmdsPass_withUnreadFields d s
    | rowEnd => exact congrArg _ (stepRowEnd_withUnreadFields d s)
  | idle => rfl
  | done => rfl
  | error => rfl

end

/-- Settles O56: the block's step commutes with a change of the unread fields in every status and phase. -/
theorem unreadFieldsNeverMatter : Obligations.UnreadFieldsNeverMatter := by
  intro s d hturn
  rw [step_of_blockTurn hturn, step_of_blockTurn (s := s.withUnreadFields d) hturn]
  exact blockStep_withUnreadFields d { s with hostMoves := s.hostMoves.tail }

end Sys2Proof.Proofs
end

section
/-! PROOFS. The family 42_frame_assembler.md: runs of the block that follow a pure function, and the two tables (R209,
R210). -/

namespace Sys2Proof.Proofs

open Sys2Proof.Machine

/-! ### Runs of a bounded number of turns -/

/-- At most `n` turns lead from the first state to the second. -/
inductive ReachesWithin : Nat → State → State → Prop
  | refl (n : Nat) (s : State) : ReachesWithin n s s
  | head {n : Nat} {s u t : State} (hstep : step s = .next u) (hrest : ReachesWithin n u t) :
    ReachesWithin (n + 1) s t

theorem ReachesWithin.mono {n k : Nat} {s t : State} (h : ReachesWithin n s t) (hnk : n ≤ k) :
    ReachesWithin k s t := by
  induction h generalizing k with
  | refl n s => exact .refl k s
  | head hstep _ ih =>
    obtain ⟨j, rfl⟩ := Nat.exists_eq_add_of_lt hnk
    exact .head hstep (ih (by omega))

theorem ReachesWithin.trans {n k : Nat} {s t u : State} (h : ReachesWithin n s t) (h' : ReachesWithin k t u) :
    ReachesWithin (n + k) s u := by
  induction h with
  | refl n s => exact h'.mono (Nat.le_add_left k n)
  | head hstep _ ih => exact Nat.succ_add _ k ▸ .head hstep (ih h')

theorem run_succ {s u : State} (h : step s = .next u) (n : Nat) :
    Host.Core.run Sys2Proof.core (n + 1) s = Host.Core.run Sys2Proof.core n u := by
  have hcore : Sys2Proof.core.step s = .next u := h
  simp only [Host.Core.run, hcore]

/-- A stopped block takes no step (log 8), so it is where it is after any number of turns. -/
theorem run_of_stopped {s : State} (hstatus : s.status ≠ .running) (hmoves : s.hostMoves = []) (n : Nat) :
    Host.Core.run Sys2Proof.core n s = .next s := by
  have hstep : step s = .next s := by
    cases h : s.status with
    | running => exact absurd h hstatus
    | idle => simp only [step, hmoves, blockStep, h]
    | done => simp only [step, hmoves, blockStep, h]
    | error => simp only [step, hmoves, blockStep, h]
  induction n with
  | zero => rfl
  | succ n ih => exact (run_succ hstep n).trans ih

/-- A stopped state that is reached within the bound is where the run of the bound's length ends. -/
theorem ReachesWithin.run_eq {n : Nat} {s t : State} (h : ReachesWithin n s t) (hstatus : t.status ≠ .running)
    (hmoves : t.hostMoves = []) : Host.Core.run Sys2Proof.core n s = .next t := by
  induction h with
  | refl n s => exact run_of_stopped hstatus hmoves n
  | head hstep _ ih => exact (run_succ hstep _).trans (ih hstatus hmoves)

/-! ### Runs that follow a pure function -/

section

variable {α β ε δ : Type} {n k : Nat} {s : State} {good : α → State → Prop} {bad : ε → State → Prop}

/-- Within `n` turns the block comes from `s` to a state that shows the function's answer: `good` of its value, or `bad`
of its error. -/
def Follows (n : Nat) (s : State) (good : α → State → Prop) (bad : ε → State → Prop) : Except ε α → Prop
  | .ok a => ∃ t, ReachesWithin n s t ∧ good a t
  | .error e => ∃ t, ReachesWithin n s t ∧ bad e t

theorem Follows.mono {x : Except ε α} (h : Follows n s good bad x) (hnk : n ≤ k) : Follows k s good bad x := by
  cases x with
  | ok a =>
    obtain ⟨t, hreach, ht⟩ := h
    exact ⟨t, hreach.mono hnk, ht⟩
  | error e =>
    obtain ⟨t, hreach, ht⟩ := h
    exact ⟨t, hreach.mono hnk, ht⟩

theorem Follows.imp {x : Except ε α} {good' : α → State → Prop} (h : Follows n s good bad x)
    (hgood : ∀ a t, good a t → good' a t) : Follows n s good' bad x := by
  cases x with
  | ok a =>
    obtain ⟨t, hreach, ht⟩ := h
    exact ⟨t, hreach, hgood a t ht⟩
  | error e => exact h

/-- What is followed from where some turns lead is followed from before them. -/
theorem Follows.after {u : State} {x : Except ε α} (hreach : ReachesWithin n s u) (h : Follows k u good bad x) :
    Follows (n + k) s good bad x := by
  cases x with
  | ok a =>
    obtain ⟨t, hrest, ht⟩ := h
    exact ⟨t, hreach.trans hrest, ht⟩
  | error e =>
    obtain ⟨t, hrest, ht⟩ := h
    exact ⟨t, hreach.trans hrest, ht⟩

theorem Follows.head {u : State} {x : Except ε α} (hstep : step s = .next u) (h : Follows n u good bad x) :
    Follows (n + 1) s good bad x :=
  Nat.add_comm n 1 ▸ h.after (.head hstep (.refl 0 u))

/-- A turn that enters the error. -/
theorem Follows.of_error_turn {t : State} {e : ε} (hstep : step s = .next t) (ht : bad e t) :
    Follows (n + 1) s good bad (.error e) :=
  ⟨t, .head hstep (.refl n t), ht⟩

theorem Follows.map {x : Except ε α} {good : β → State → Prop} {f : α → β}
    (h : Follows n s (fun a => good (f a)) bad x) : Follows n s good bad (x.map f) := by
  cases x with
  | ok a => exact h
  | error e => exact h

theorem Follows.mapError {x : Except ε α} {bad : δ → State → Prop} {f : ε → δ}
    (h : Follows n s good (fun e => bad (f e)) x) : Follows n s good bad (x.mapError f) := by
  cases x with
  | ok a => exact h
  | error e => exact h

/-- The function's next part is followed from where the block stands after the first part. -/
theorem Follows.bind {x : Except ε α} {f : α → Except ε β} {good' : β → State → Prop} (h : Follows n s good bad x)
    (hf : ∀ a t, good a t → Follows k t good' bad (f a)) : Follows (n + k) s good' bad (x.bind f) := by
  cases x with
  | error e => exact Follows.mono (x := .error e) h (Nat.le_add_right n k)
  | ok a =>
    obtain ⟨t, hreach, ht⟩ := h
    exact (hf a t ht).after hreach

/-- Turns that follow the function's last part and lead to what its value is to show. -/
theorem Follows.andThen {x : Except ε α} {good' : α → State → Prop} (h : Follows n s good bad x)
    (hlast : ∀ a t, good a t → ∃ u, ReachesWithin k t u ∧ good' a u) : Follows (n + k) s good' bad x := by
  cases x with
  | error e => exact Follows.mono (x := .error e) h (Nat.le_add_right n k)
  | ok a =>
    obtain ⟨t, hreach, ht⟩ := h
    obtain ⟨u, hrest, hu⟩ := hlast a t ht
    exact ⟨u, hreach.trans hrest, hu⟩

end

/-! ### Where an operation stands -/

/-- The block is running on this buffer and descriptor in this phase, and every turn is its own. -/
structure InPhase (m : Memory) (d : Descriptor) (p : Phase) (s : State) : Prop where
  running : s.status = .running
  phase : s.phase = p
  buf : s.buf = m
  desc : s.desc = d
  moves : s.hostMoves = []

/-- The operation on this descriptor has ended with this status. -/
structure Ended (d : Descriptor) (status : Status) (t : State) : Prop where
  status : t.status = status
  desc : t.desc = d
  moves : t.hostMoves = []

/-- The operation has ended with this error on record (R236). -/
def EndsInError (d : Descriptor) (e : FrameError) (t : State) : Prop := Ended d .error t ∧ t.HoldsError e

theorem heightInt_toNat_lt (d : Descriptor) : d.heightInt.toNat < 2 ^ 32 := by
  have hlt : d.heightInt < 2 ^ 31 := BitVec.toInt_lt (x := d.height)
  omega

section

variable {m : Memory} {d : Descriptor} {p : Phase} {s : State}

/-- What an error entry records, for a row of the frame. -/
theorem raise_endsInError (h : InPhase m d p s) (e : ErrCode) (a : Nat) {row : Nat} (hrow : s.errorRow = row)
    (hlt : row < 2 ^ 32) : EndsInError d ⟨e, p.stage, row, a⟩ (raise e a s) := by
  refine ⟨⟨rfl, h.desc, h.moves⟩, rfl, congrArg Phase.stage h.phase, ?_, rfl, rfl⟩
  rw [raise_errRow, hrow, BitVec.toNat_ofNat, Nat.mod_eq_of_lt hlt]

/-! ### A walk over a table (R120, R126) -/

section

variable {α : Type} {entry : Nat → α} {offset : BitVec 32} {stage : ErrStage}

theorem tableEntries_fits {i : Nat} (count : Nat) (h : entryAddress offset i + 4 ≤ m.len) :
    tableEntries entry m offset stage i (count + 1) =
      (tableEntries entry m offset stage (i + 1) count).map
        (entry (m.littleEndian (entryAddress offset i) 4) :: ·) := by
  rw [tableEntries, if_pos h]
  cases tableEntries entry m offset stage (i + 1) count with
  | ok rest => rfl
  | error e => rfl

theorem tableEntries_short {i : Nat} (count : Nat) (h : ¬ entryAddress offset i + 4 ≤ m.len) :
    tableEntries entry m offset stage i (count + 1) =
      .error ⟨.truncatedInput, stage, i, entryAddress offset i⟩ := by
  rw [tableEntries, if_neg h]

/-- A phase that reads a table of one entry per row: `At i` says that the entries before `i` are read, `get` reads the
store that the entries go to. -/
structure TableWalk (m : Memory) (d : Descriptor) (entry : Nat → α) (offset : BitVec 32) (stage : ErrStage)
    (get : State → Nat → α) (At : Nat → State → Prop) : Prop where
  fits : ∀ {i s}, At i s → i < d.heightInt.toNat → entryAddress offset i + 4 ≤ m.len →
    ∃ t, step s = .next t ∧ At (i + 1) t ∧
      ∀ k, get t k = if k = i then entry (m.littleEndian (entryAddress offset i) 4) else get s k
  short : ∀ {i s}, At i s → i < d.heightInt.toNat → ¬ entryAddress offset i + 4 ≤ m.len →
    ∃ t, step s = .next t ∧ EndsInError d ⟨.truncatedInput, stage, i, entryAddress offset i⟩ t

/-- The values are stored from index `i` on; what is stored before `i` is as in `s`. -/
def StoredFrom (get : State → Nat → α) (s : State) (i : Nat) (vs : List α) (t : State) : Prop :=
  (∀ k v, vs[k]? = some v → get t (i + k) = v) ∧ ∀ k < i, get t k = get s k

theorem StoredFrom.cons {get : State → Nat → α} {s t u : State} {i : Nat} {v : α} {vs : List α}
    (hput : ∀ k, get t k = if k = i then v else get s k) (h : StoredFrom get t (i + 1) vs u) :
    StoredFrom get s i (v :: vs) u := by
  obtain ⟨hrest, hbefore⟩ := h
  refine ⟨fun k w hk => ?_, fun k hk => ?_⟩
  · cases k with
    | zero =>
      cases hk
      rw [Nat.add_zero, hbefore i (Nat.lt_succ_self i), hput, if_pos rfl]
    | succ k =>
      rw [show i + (k + 1) = i + 1 + k by omega]
      exact hrest k w hk
  · rw [hbefore k (Nat.lt_succ_of_lt hk), hput, if_neg (Nat.ne_of_lt hk)]

/-- A walk follows the pure lookup of the table. -/
theorem TableWalk.follows {get : State → Nat → α} {At : Nat → State → Prop}
    (walk : TableWalk m d entry offset stage get At) (count : Nat) {i : Nat} (hs : At i s)
    (hcount : i + count = d.heightInt.toNat) :
    Follows count s (fun vs t => At d.heightInt.toNat t ∧ vs.length = count ∧ StoredFrom get s i vs t)
      (EndsInError d) (tableEntries entry m offset stage i count) := by
  induction count generalizing i s with
  | zero =>
    obtain rfl : i = d.heightInt.toNat := hcount
    exact ⟨s, .refl 0 s, hs, rfl, fun k v hk => by simp at hk, fun k _ => rfl⟩
  | succ count ih =>
    by_cases hfits : entryAddress offset i + 4 ≤ m.len
    · obtain ⟨t, hstep, ht, hput⟩ := walk.fits hs (by omega) hfits
      rw [tableEntries_fits count hfits]
      refine Follows.map (Follows.head hstep ((ih ht (by omega)).imp fun vs u => ?_))
      rintro ⟨hu, hlength, hstored⟩
      exact ⟨hu, congrArg (· + 1) hlength, hstored.cons hput⟩
    · obtain ⟨t, hstep, ht⟩ := walk.short hs (by omega) hfits
      rw [tableEntries_short count hfits]
      exact Follows.of_error_turn hstep ht

end

/-! ### The phases BOUNDS and CMDTAB are walks -/

theorem writeBound_boundAt (r : Nat) (b : RowBound) (s : State) (k : Nat) :
    (writeBound r b s).boundAt k = if k = r then b else s.boundAt k := by
  simp only [State.boundAt, writeBound_boundsOut, writeBound_draws, Cells.get_put]
  split <;> rfl

theorem writeOffset_offsetAt (r : Nat) (v : BitVec 32) (s : State) (k : Nat) :
    (writeOffset r v s).offsetAt k = if k = r then v else s.offsetAt k := by
  simp only [State.offsetAt, writeOffset_cmdoffOut, writeOffset_draws, Cells.get_put]
  split <;> rfl

/-- The last entry of a frame of this height, counted as the steps count it. -/
theorem succ_eq_heightInt_iff {d : Descriptor} {i : Nat} (hi : i < d.heightInt.toNat) :
    ((i + 1 : Nat) : Int) = d.heightInt ↔ ¬ i + 1 < d.heightInt.toNat := by
  omega

/-- The entries of a table before `i` are read: the phase `p` reads the entry `i` next, or the next phase `q` starts with
its index `index` at 0. -/
def AtEntry (m : Memory) (d : Descriptor) (p q : Phase) (index : State → Nat) (i : Nat) (s : State) : Prop :=
  if i < d.heightInt.toNat then InPhase m d p s ∧ s.idx = i else InPhase m d q s ∧ index s = 0

section

variable {p q : Phase} {index : State → Nat} {i : Nat}

theorem atEntry_of_lt (hi : i < d.heightInt.toNat) :
    AtEntry m d p q index i s ↔ InPhase m d p s ∧ s.idx = i := by
  rw [AtEntry, if_pos hi]

theorem atEntry_height : AtEntry m d p q index d.heightInt.toNat s ↔ InPhase m d q s ∧ index s = 0 := by
  rw [AtEntry, if_neg (lt_irrefl _)]

/-- What holds of both outcomes of a test holds of the outcome. -/
theorem of_ite {c : Prop} [Decidable c] {P : State → Prop} {t u : State} (ht : P t) (hu : P u) :
    P (if c then t else u) := by
  split
  · exact ht
  · exact hu

/-- The two outcomes of a table step (R209, R210): after the last entry, or after another. -/
theorem atEntry_succ {last more : State} (hi : i < d.heightInt.toNat) (hlast : InPhase m d q last ∧ index last = 0)
    (hmore : InPhase m d p more ∧ more.idx = i + 1) :
    AtEntry m d p q index (i + 1) (if ((i + 1 : Nat) : Int) = d.heightInt then last else more) := by
  unfold AtEntry
  by_cases h : ((i + 1 : Nat) : Int) = d.heightInt
  · rwa [if_pos h, if_neg ((succ_eq_heightInt_iff hi).mp h)]
  · rwa [if_neg h, if_pos (by_contra fun hle => h ((succ_eq_heightInt_iff hi).mpr hle))]

end

theorem errorRow_of_bounds (h : s.phase = .bounds) : s.errorRow = s.idx := by
  rw [State.errorRow, h]
  rfl

theorem errorRow_of_cmdtab (h : s.phase = .cmdtab) : s.errorRow = s.idx := by
  rw [State.errorRow, h]
  rfl

/-- R209: the entries before `i` of the bounds table are read. -/
def AtBound (m : Memory) (d : Descriptor) : Nat → State → Prop := AtEntry m d .bounds .cmdtab State.idx

/-- R210: the entries before `i` of the command table are read, and BOUNDS_OUT holds `bounds`. -/
def AtOffset (m : Memory) (d : Descriptor) (bounds : Nat → RowBound) (i : Nat) (s : State) : Prop :=
  AtEntry m d .cmdtab .rowStart State.row i s ∧ ∀ k, s.boundAt k = bounds k

theorem bounds_walk (m : Memory) (d : Descriptor) :
    TableWalk m d boundOfWord d.boundsTableOffset .bounds State.boundAt (AtBound m d) where
  fits := by
    intro i s hs hi hfits
    obtain ⟨⟨hrunning, hphase, rfl, rfl, hmoves⟩, rfl⟩ := (atEntry_of_lt hi).mp hs
    have hstep := step_eq_stepBounds hrunning hphase hmoves
    rw [stepBounds_ok (boundEntry_ok hfits)] at hstep
    exact ⟨_, hstep,
      atEntry_succ hi ⟨⟨hrunning, rfl, rfl, rfl, hmoves⟩, rfl⟩ ⟨⟨hrunning, hphase, rfl, rfl, hmoves⟩, rfl⟩,
      fun k => of_ite (P := fun t => t.boundAt k = _) (writeBound_boundAt _ _ s k) (writeBound_boundAt _ _ s k)⟩
  short := by
    intro i s hs hi hshort
    obtain ⟨hin, rfl⟩ := (atEntry_of_lt hi).mp hs
    have hend := raise_endsInError hin .truncatedInput (entryAddress d.boundsTableOffset s.idx)
      (errorRow_of_bounds hin.phase) (lt_trans hi (heightInt_toNat_lt d))
    obtain ⟨hrunning, hphase, rfl, rfl, hmoves⟩ := hin
    have hstep := step_eq_stepBounds hrunning hphase hmoves
    rw [stepBounds_error (boundEntry_truncated (Nat.lt_of_not_le hshort))] at hstep
    exact ⟨_, hstep, hend⟩

theorem offsets_walk (m : Memory) (d : Descriptor) (bounds : Nat → RowBound) :
    TableWalk m d (BitVec.ofNat 32) d.cmdTableOffset .cmdtab State.offsetAt (AtOffset m d bounds) where
  fits := by
    intro i s ⟨hs, hbounds⟩ hi hfits
    obtain ⟨⟨hrunning, hphase, rfl, rfl, hmoves⟩, rfl⟩ := (atEntry_of_lt hi).mp hs
    have hstep := step_eq_stepCmdtab hrunning hphase hmoves
    rw [stepCmdtab_ok (cmdEntry_ok hfits)] at hstep
    exact ⟨_, hstep,
      ⟨atEntry_succ hi ⟨⟨hrunning, rfl, rfl, rfl, hmoves⟩, rfl⟩ ⟨⟨hrunning, hphase, rfl, rfl, hmoves⟩, rfl⟩,
        fun k => of_ite (P := fun t => t.boundAt k = _) (hbounds k) (hbounds k)⟩,
      fun k => of_ite (P := fun t => t.offsetAt k = _) (writeOffset_offsetAt _ _ s k) (writeOffset_offsetAt _ _ s k)⟩
  short := by
    intro i s ⟨hs, _⟩ hi hshort
    obtain ⟨hin, rfl⟩ := (atEntry_of_lt hi).mp hs
    have hend := raise_endsInError hin .truncatedInput (entryAddress d.cmdTableOffset s.idx)
      (errorRow_of_cmdtab hin.phase) (lt_trans hi (heightInt_toNat_lt d))
    obtain ⟨hrunning, hphase, rfl, rfl, hmoves⟩ := hin
    have hstep := step_eq_stepCmdtab hrunning hphase hmoves
    rw [stepCmdtab_error (cmdEntry_truncated (Nat.lt_of_not_le hshort))] at hstep
    exact ⟨_, hstep, hend⟩

end

end Sys2Proof.Proofs
end

section
/-! PROOFS. The family 42_frame_assembler.md: the command loop of a row against the pure loop (R212). -/

namespace Sys2Proof.Proofs

open Sys2Proof.Machine

/-! ### The command loop of a row (R145 to R149) -/

section

variable {m : Memory} {expected : Int} {passes c : Nat} {done : List Pixel}

theorem rowLoop_overrun (h : expected < (done.length : Int)) :
    rowLoop m expected (passes + 1) c done = .error ⟨.rowOverrun, c⟩ := by
  rw [rowLoop, if_pos h]

theorem rowLoop_truncated (hcount : ¬ expected < (done.length : Int)) (hread : m.len ≤ c) :
    rowLoop m expected (passes + 1) c done = .error ⟨.truncatedInput, c⟩ := by
  rw [rowLoop, if_neg hcount, afterByte, if_neg (Nat.not_lt.mpr hread)]

theorem rowLoop_eor {high : BitVec 4} (hcount : ¬ expected < (done.length : Int)) (hread : c < m.len)
    (hdecode : decode (m.byte c) = .ok (.eor high)) :
    rowLoop m expected (passes + 1) c done =
      if (done.length : Int) = expected then .ok (done, c) else .error ⟨.rowOverrun, c⟩ := by
  rw [rowLoop, if_neg hcount, afterByte, if_pos hread, hdecode]

theorem rowLoop_command {i : Instr} (hcount : ¬ expected < (done.length : Int)) (hread : c < m.len)
    (hdecode : decode (m.byte c) = .ok i) (hi : ∀ high, i ≠ .eor high) :
    rowLoop m expected (passes + 1) c done =
      (commandPixels m c i).bind fun r => rowLoop m expected passes r.2 (done ++ r.1) := by
  rw [rowLoop, if_neg hcount, afterByte, if_pos hread, hdecode]
  split
  case h_1 herror => cases herror
  case h_2 high heor =>
    cases heor
    exact absurd rfl (hi high)
  case h_3 j _ hj =>
    cases hj
    cases commandPixels m c i with
    | ok r => rfl
    | error e => rfl

end

/-- `s` at the end of its row's commands: these pixels emitted, the cursor on the EOR byte. -/
def atRowEnd (ps : List Pixel) (final : Nat) (s : State) : State :=
  { moveCursor final (emitAll ps s) with phase := .rowEnd }

theorem atRowEnd_after (ps qs : List Pixel) (next final : Nat) (s : State) :
    atRowEnd qs final (moveCursor next (emitAll ps s)) = atRowEnd (ps ++ qs) final s := by
  simp only [atRowEnd, emitAll_append, emitAll_cursor_comm, moveCursor_moveCursor]

section

variable {m : Memory} {d : Descriptor} {s : State}

/-- The error of a row, recorded for row `row` of the frame (R204). -/
def rowFrameError (row : Nat) (e : RowError) : FrameError := ⟨e.code, .row, row, e.offset⟩

theorem raise_endsInRowError {p : Phase} (h : InPhase m d p s) (hp : p.stage = .row) (e : RowError)
    (hlt : s.row < 2 ^ 32) : EndsInError d (rowFrameError s.row e) (raise e.code e.offset s) := by
  have herror := raise_endsInError h e.code e.offset (by rw [State.errorRow, h.phase, hp]) hlt
  rwa [hp] at herror

theorem inPhase_emitted {p : Phase} (h : InPhase m d p s) (ps : List Pixel) (next : Nat) :
    InPhase m d p (moveCursor next (emitAll ps s)) := by
  obtain ⟨hrunning, hphase, hbuf, hdesc, hmoves⟩ := h
  constructor <;> simpa

/-- The pass of a command other than EOR follows the pixel function, and moves the cursor forward. -/
theorem commandPass_follows {i : Instr} (h : InPhase m d .cmds s) (hrow : s.row < 2 ^ 32)
    (hi : ∀ high, i ≠ .eor high) (hstep : step s = exec i s) :
    Follows 1 s (fun r t => s.cursor < r.2 ∧ t = moveCursor r.2 (emitAll r.1 s))
      (fun e => EndsInError d (rowFrameError s.row e)) (commandPixels m s.cursor i) := by
  have hyields := exec_yields m s.cursor i hi
  cases hpixels : commandPixels m s.cursor i with
  | ok r =>
    obtain ⟨ps, next⟩ := r
    rw [hpixels] at hyields
    have hexec : exec i s = .next (moveCursor next (emitAll ps s)) := hyields s h.buf
    exact ⟨_, .head (hstep.trans hexec) (.refl 0 _), commandPixels_next_gt hi hpixels, rfl⟩
  | error e =>
    rw [hpixels] at hyields
    obtain ⟨ps, hyields⟩ := hyields
    have hexec : exec i s = .next (raise e.code e.offset (moveCursor e.offset (emitAll ps s))) := hyields s h.buf
    have hend := raise_endsInRowError (inPhase_emitted h ps e.offset) rfl e (by simpa using hrow)
    rw [moveCursor_row, emitAll_row] at hend
    exact Follows.of_error_turn (hstep.trans hexec) hend

/-- The passes of the block follow the pure loop, which adds the pixels that the block emits to those it was given. -/
theorem rowLoop_follows (passes : Nat) (done : List Pixel) (h : InPhase m d .cmds s) (hrow : s.row < 2 ^ 32)
    (hdone : s.emitted = done.length) (hpasses : m.len - s.cursor < passes) :
    Follows passes s
      (fun r t => ∃ qs, r.1 = done ++ qs ∧ (r.1.length : Int) = s.expected ∧ t = atRowEnd qs r.2 s)
      (fun e => EndsInError d (rowFrameError s.row e)) (rowLoop m s.expected passes s.cursor done) := by
  induction passes generalizing s done with
  | zero => exact absurd hpasses (Nat.not_lt_zero _)
  | succ passes ih =>
    have hstep := step_eq_cmdsPass h.running h.phase h.moves
    have herror (code : ErrCode) : EndsInError d (rowFrameError s.row ⟨code, s.cursor⟩) (raise code s.cursor s) :=
      raise_endsInRowError h rfl ⟨code, s.cursor⟩ hrow
    by_cases hcount : s.expected < (s.emitted : Int)
    · rw [cmdsPass_overrun hcount] at hstep
      rw [rowLoop_overrun (hdone ▸ hcount)]
      exact Follows.of_error_turn hstep (herror .rowOverrun)
    have hcount' : ¬ s.expected < (done.length : Int) := hdone ▸ hcount
    by_cases hread : m.len ≤ s.cursor
    · rw [cmdsPass_truncated hcount (by rwa [h.buf])] at hstep
      rw [rowLoop_truncated hcount' hread]
      exact Follows.of_error_turn hstep (herror .truncatedInput)
    have hread := Nat.lt_of_not_le hread
    obtain ⟨i, hdecode, -⟩ := decode_readsBack (m.byte s.cursor)
    rw [cmdsPass_decoded hcount (by rwa [h.buf]) (by rwa [h.buf])] at hstep
    by_cases hi : ∀ high, i ≠ .eor high
    case pos =>
      rw [rowLoop_command hcount' hread hdecode hi, Nat.add_comm]
      refine Follows.bind (commandPass_follows h hrow hi hstep) fun r t => ?_
      obtain ⟨ps, next⟩ := r
      rintro ⟨hnext, rfl⟩
      have hrest := ih (done ++ ps) (inPhase_emitted h ps next) (by simpa using hrow) (by simpa using hdone)
        (by rw [moveCursor_cursor]; omega)
      rw [moveCursor_expected, emitAll_expected, moveCursor_cursor, moveCursor_row, emitAll_row] at hrest
      refine hrest.imp fun q t => ?_
      rintro ⟨qs, hq, hlength, rfl⟩
      exact ⟨ps ++ qs, hq.trans (List.append_assoc done ps qs), hlength, atRowEnd_after ps qs next q.2 s⟩
    case neg =>
      obtain ⟨high, rfl⟩ : ∃ high, i = .eor high := by simpa using hi
      rw [rowLoop_eor hcount' hread hdecode]
      by_cases hexact : (s.emitted : Int) = s.expected
      · rw [exec_eor_of_exact hexact] at hstep
        rw [if_pos (hdone ▸ hexact)]
        exact ⟨_, .head hstep (.refl passes _), [], (List.append_nil done).symm, hdone ▸ hexact, rfl⟩
      · rw [exec_eor_of_not_exact hexact] at hstep
        rw [if_neg (hdone ▸ hexact)]
        exact Follows.of_error_turn hstep (herror .rowOverrun)

end

end Sys2Proof.Proofs
end

section
/-! PROOFS. The family 42_frame_assembler.md: the rows of a frame (R211 to R214), and the frame (R215). -/

namespace Sys2Proof.Proofs

open Sys2Proof.Machine

/-! ### What a run of pixels leaves in the grid -/

/-- From `s` to `t` the words of these pixels have been written to row `row` from column `first` on, and nothing else. -/
def ColumnsWritten (row first : Nat) (ps : List Pixel) (s t : State) : Prop :=
  ∀ r c, t.pixel? r c =
    if r = row ∧ first ≤ c then (ps[c - first]?.map Pixel.word).or (s.pixel? r c) else s.pixel? r c

section

variable {row first : Nat} {ps qs : List Pixel} {s t u : State}

theorem ColumnsWritten.append (h : ColumnsWritten row first ps s t)
    (h' : ColumnsWritten row (first + ps.length) qs t u) : ColumnsWritten row first (ps ++ qs) s u := by
  intro r c
  rw [h' r c, h r c]
  by_cases hin : r = row ∧ first ≤ c
  case neg => rw [if_neg hin, if_neg hin, if_neg (fun ⟨hr, hc⟩ => hin ⟨hr, by omega⟩)]
  case pos =>
    rw [if_pos hin, if_pos hin]
    obtain ⟨hr, hfirst⟩ := hin
    by_cases hps : first + ps.length ≤ c
    · have hnone : ps[c - first]? = none := List.getElem?_eq_none (by omega)
      rw [if_pos ⟨hr, hps⟩, List.getElem?_append_right (by omega), hnone, Nat.sub_sub]
      rfl
    · rw [if_neg (fun ⟨_, hlater⟩ => hps hlater), List.getElem?_append_left (by omega)]

theorem ColumnsWritten.of_row_ne (h : ColumnsWritten row first ps s t) {r : Nat} (hr : r ≠ row) (c : Nat) :
    t.pixel? r c = s.pixel? r c := by
  rw [h r c, if_neg (fun ⟨hrow, _⟩ => hr hrow)]

theorem ColumnsWritten.pixel? (h : ColumnsWritten row 0 ps s t) {c : Nat} {p : Pixel} (hp : ps[c]? = some p) :
    t.pixel? row c = some p.word := by
  rw [h row c, if_pos ⟨rfl, Nat.zero_le c⟩, Nat.sub_zero, hp]
  rfl

theorem padFrom_written (n : Nat) :
    ColumnsWritten s.row first (List.replicate n .transparent) s (padFrom first n s) := by
  intro r c
  rw [padFrom_pixel?, List.getElem?_replicate]
  by_cases hin : r = s.row ∧ first ≤ c
  case neg => rw [if_neg hin, if_neg (fun ⟨hr, hc, _⟩ => hin ⟨hr, hc⟩)]
  case pos =>
    rw [if_pos hin]
    obtain ⟨hr, hfirst⟩ := hin
    by_cases hc : c < first + n
    · rw [if_pos ⟨hr, hfirst, hc⟩, if_pos (by omega)]
      rfl
    · rw [if_neg (fun ⟨_, _, hlt⟩ => hc hlt), if_neg (by omega)]
      rfl

/-- R142: a run that does not pass EXPECTED is stored as a whole. -/
theorem emitAll_written (h : ((s.emitted + ps.length : Nat) : Int) ≤ s.expected) :
    ColumnsWritten s.row ((s.boundAt s.row).left.toNat + s.emitted) ps s (emitAll ps s) := by
  intro r c
  rw [emitAll_pixel?, Nat.sub_sub]
  generalize (s.boundAt s.row).left.toNat = left
  by_cases hin : r = s.row ∧ left + s.emitted ≤ c
  case neg => rw [if_neg hin, if_neg (fun ⟨hr, hfirst, _⟩ => hin ⟨hr, hfirst⟩)]
  case pos =>
    rw [if_pos hin]
    obtain ⟨hr, hfirst⟩ := hin
    by_cases hc : ((c - left : Nat) : Int) < s.expected
    · rw [if_pos ⟨hr, hfirst, hc⟩]
    · have hnone : ps[c - (left + s.emitted)]? = none := List.getElem?_eq_none (by omega)
      rw [if_neg (fun ⟨_, _, hlt⟩ => hc hlt), hnone]
      rfl

end

/-! ### A row (R211 to R214) -/

/-- The rows before `r` are done (R214): the next row starts, or the frame is complete. -/
def AtRow (m : Memory) (d : Descriptor) (r : Nat) (s : State) : Prop :=
  if r < d.heightInt.toNat then InPhase m d .rowStart s ∧ s.row = r else Ended d .done s

/-- `t` stands after row `ROW` of `s`, whose pixels are in the grid. -/
def AfterRow (m : Memory) (d : Descriptor) (s : State) (ps : List Pixel) (t : State) : Prop :=
  AtRow m d (s.row + 1) t ∧ s.KeepsTables t ∧ ps.length = d.widthInt.toNat ∧ ColumnsWritten s.row 0 ps s t

section

variable {m : Memory} {d : Descriptor} {s : State}

theorem nextRow_atRow {p : Phase} (h : InPhase m d p s) (hrow : s.row < d.heightInt.toNat) :
    AtRow m d (s.row + 1) (nextRow s) := by
  obtain ⟨hrunning, hphase, rfl, rfl, hmoves⟩ := h
  unfold AtRow
  by_cases hlast : ((s.row + 1 : Nat) : Int) = s.desc.heightInt
  · obtain ⟨hdone, -⟩ := nextRow_last hlast
    rw [if_neg ((succ_eq_heightInt_iff hrow).mp hlast)]
    exact ⟨hdone, nextRow_desc s, (nextRow_hostMoves s).trans hmoves⟩
  · obtain ⟨hkept, hnext⟩ := nextRow_more hlast
    rw [if_pos (by_contra fun h => hlast ((succ_eq_heightInt_iff hrow).mpr h))]
    exact ⟨⟨hkept.trans hrunning, hnext, nextRow_buf s, nextRow_desc s, (nextRow_hostMoves s).trans hmoves⟩,
      nextRow_row s⟩

theorem inPhase_padFrom {p : Phase} (h : InPhase m d p s) (c n : Nat) : InPhase m d p (padFrom c n s) := by
  obtain ⟨hrunning, hphase, hbuf, hdesc, hmoves⟩ := h
  constructor <;> simpa

theorem afterRow_nextRow {p : Phase} {ps : List Pixel} {t : State} (h : InPhase m d p t) (hrow : t.row = s.row)
    (hlt : s.row < d.heightInt.toNat) (htables : s.KeepsTables t) (hlength : ps.length = d.widthInt.toNat)
    (hwritten : ColumnsWritten s.row 0 ps s t) : AfterRow m d s ps (nextRow t) := by
  refine ⟨?_, keepsTables_nextRow htables, hlength, fun r c => (nextRow_pixel? r c).trans (hwritten r c)⟩
  rw [← hrow]
  exact nextRow_atRow h (hrow ▸ hlt)

/-! #### A fully transparent row (R141) -/

theorem decodeRow_full {start : Nat} {width : Int} {bound : RowBound} (h : bound.full = true) :
    decodeRow m start width bound = .ok (List.replicate width.toNat .transparent, start) := if_pos h

theorem transparentRow_afterRow (h : InPhase m d .rowStart s) (hrow : s.row < d.heightInt.toNat) (start : Nat) :
    AfterRow m d s (List.replicate d.widthInt.toNat .transparent) (nextRow (transparentRow start s)) := by
  have hin : InPhase m d .rowStart (atRowStart 0 start s) := ⟨h.running, h.phase, h.buf, h.desc, h.moves⟩
  rw [transparentRow_eq, h.desc]
  exact afterRow_nextRow (inPhase_padFrom hin _ _) (padFrom_row _ _ _) hrow (padFrom_keepsTables _ _ _)
    List.length_replicate (padFrom_written (s := atRowStart 0 start s) _)

/-! #### An interpreted row (R144) -/

/-- `s` where the commands of its row start: EXPECTED set, the left padding in the grid. -/
def rowOpened (expected : Int) (start : Nat) (s : State) : State :=
  { padFrom 0 (s.boundAt s.row).left.toNat (atRowStart expected start s) with phase := .cmds }

section

variable (expected : Int) (start : Nat) (s : State)

theorem rowOpened_row : (rowOpened expected start s).row = s.row := padFrom_row _ _ _

theorem rowOpened_cursor : (rowOpened expected start s).cursor = start := padFrom_cursor _ _ _

theorem rowOpened_emitted : (rowOpened expected start s).emitted = 0 := padFrom_emitted _ _ _

theorem rowOpened_expected : (rowOpened expected start s).expected = expected := padFrom_expected _ _ _

theorem rowOpened_boundAt (r : Nat) : (rowOpened expected start s).boundAt r = s.boundAt r := padFrom_boundAt _ _ _ r

end

theorem rowOpened_inPhase (h : InPhase m d .rowStart s) (expected : Int) (start : Nat) :
    InPhase m d .cmds (rowOpened expected start s) := by
  have hin : InPhase m d .rowStart (atRowStart expected start s) := ⟨h.running, h.phase, h.buf, h.desc, h.moves⟩
  obtain ⟨hrunning, -, hbuf, hdesc, hmoves⟩ := inPhase_padFrom hin 0 (s.boundAt s.row).left.toNat
  exact ⟨hrunning, rfl, hbuf, hdesc, hmoves⟩

theorem atRowEnd_inPhase (h : InPhase m d .cmds s) (ps : List Pixel) (final : Nat) :
    InPhase m d .rowEnd (atRowEnd ps final s) := by
  obtain ⟨hrunning, -, hbuf, hdesc, hmoves⟩ := inPhase_emitted h ps final
  exact ⟨hrunning, rfl, hbuf, hdesc, hmoves⟩

/-- The state before `NextRow` at the end of a row whose commands have emitted these pixels (R213). -/
theorem stepRowEnd_atRowEnd (ps : List Pixel) (final : Nat) :
    stepRowEnd (atRowEnd ps final s) =
      nextRow (padFrom ((s.boundAt s.row).left.toNat + s.expected.toNat) (s.boundAt s.row).right.toNat
        (atRowEnd ps final s)) := by
  have hbound : (atRowEnd ps final s).boundAt (atRowEnd ps final s).row = s.boundAt s.row :=
    (emitAll_boundAt ps s _).trans (congrArg s.boundAt (emitAll_row ps s))
  have hexpected : (atRowEnd ps final s).expected = s.expected := emitAll_expected ps s
  rw [stepRowEnd, hbound, hexpected]

/-- The commands' pixels and the right padding, behind the left padding. -/
theorem rowEnd_written {ps : List Pixel} (final : Nat) (hemitted : s.emitted = 0)
    (hps : (ps.length : Int) = s.expected) :
    ColumnsWritten s.row (s.boundAt s.row).left.toNat
      (ps ++ List.replicate (s.boundAt s.row).right.toNat .transparent) s
      (padFrom ((s.boundAt s.row).left.toNat + s.expected.toNat) (s.boundAt s.row).right.toNat
        (atRowEnd ps final s)) := by
  have hcommands : ColumnsWritten s.row (s.boundAt s.row).left.toNat ps s (atRowEnd ps final s) := by
    have hemits := emitAll_written (s := s) (ps := ps) (by omega)
    rwa [hemitted] at hemits
  have hpadding := padFrom_written (s := atRowEnd ps final s)
    (first := (s.boundAt s.row).left.toNat + s.expected.toNat) (s.boundAt s.row).right.toNat
  have hrow : (atRowEnd ps final s).row = s.row := emitAll_row ps s
  have hlength : s.expected.toNat = ps.length := by omega
  rw [hrow, hlength] at hpadding
  rw [hlength]
  exact hcommands.append hpadding

theorem decodeRow_overrun {start : Nat} {width : Int} {bound : RowBound} (h : bound.full = false)
    (hneg : width - bound.left.toNat - bound.right.toNat < 0) :
    decodeRow m start width bound = .error ⟨.rowOverrun, start⟩ := by
  simp only [decodeRow, h, Bool.false_eq_true, if_false, if_pos hneg]

theorem decodeRow_interpreted {start : Nat} {width : Int} {bound : RowBound} (h : bound.full = false)
    (hnonneg : 0 ≤ width - bound.left.toNat - bound.right.toNat) :
    decodeRow m start width bound =
      (rowLoop m (width - bound.left.toNat - bound.right.toNat) (m.len - start + 1) start []).map fun r =>
        (List.replicate bound.left.toNat .transparent ++ r.1 ++ List.replicate bound.right.toNat .transparent,
          r.2) := by
  simp only [decodeRow, h, Bool.false_eq_true, if_false, if_neg (not_lt.mpr hnonneg)]
  cases rowLoop m (width - bound.left.toNat - bound.right.toNat) (m.len - start + 1) start [] with
  | ok r => rfl
  | error e => rfl

theorem interpretedRow_afterRow (h : InPhase m d .rowStart s) (hrow : s.row < d.heightInt.toNat)
    {expected : Int} (hexpected : expected = d.widthInt - (s.boundAt s.row).left.toNat - (s.boundAt s.row).right.toNat)
    (start final : Nat) {ps : List Pixel} (hps : (ps.length : Int) = expected) :
    AfterRow m d s
      (List.replicate (s.boundAt s.row).left.toNat .transparent ++ ps ++
        List.replicate (s.boundAt s.row).right.toNat .transparent)
      (stepRowEnd (atRowEnd ps final (rowOpened expected start s))) := by
  have hin := atRowEnd_inPhase (rowOpened_inPhase h expected start) ps final
  have hopened : ColumnsWritten s.row 0 (List.replicate (s.boundAt s.row).left.toNat .transparent) s
      (rowOpened expected start s) := padFrom_written (s := atRowStart expected start s) _
  have hended := rowEnd_written (s := rowOpened expected start s) (ps := ps) final
    (rowOpened_emitted expected start s) (by rwa [rowOpened_expected])
  rw [stepRowEnd_atRowEnd]
  rw [rowOpened_row, rowOpened_boundAt, rowOpened_expected] at hended ⊢
  refine afterRow_nextRow (inPhase_padFrom hin _ _) ?row hrow ?tables ?length ?written
  case row => rw [padFrom_row]; exact (emitAll_row _ _).trans (rowOpened_row expected start s)
  case tables => simp [State.KeepsTables, atRowEnd, rowOpened, atRowStart]
  case length =>
    simp only [List.length_append, List.length_replicate]
    omega
  case written =>
    rw [List.append_assoc]
    refine hopened.append ?_
    rwa [List.length_replicate, Nat.zero_add]

/-- The block's run over a row follows the row routine. -/
theorem row_follows (h : InPhase m d .rowStart s) (hrow : s.row < d.heightInt.toNat) :
    Follows (m.len + 3) s (fun r => AfterRow m d s r.1) (fun e => EndsInError d (rowFrameError s.row e))
      (decodeRow m (s.offsetAt s.row).toNat d.widthInt (s.boundAt s.row)) := by
  have hstep := step_eq_stepRowStart h.running h.phase h.moves
  have hlt := lt_trans hrow (heightInt_toNat_lt d)
  generalize hexpected : d.widthInt - (s.boundAt s.row).left.toNat - (s.boundAt s.row).right.toNat = expected
  generalize hstart : (s.offsetAt s.row).toNat = start
  cases hfull : (s.boundAt s.row).full with
  | true =>
    rw [stepRowStart_full hfull, hstart] at hstep
    rw [decodeRow_full hfull]
    exact ⟨_, .head hstep (.refl (m.len + 2) _), transparentRow_afterRow h hrow start⟩
  | false =>
    by_cases hneg : expected < 0
    · rw [decodeRow_overrun hfull (hexpected ▸ hneg)]
      rw [stepRowStart_error hfull (rowEntry_overrun (by rwa [h.desc, hexpected])), h.desc, hexpected, hstart] at hstep
      have hin : InPhase m d .rowStart (atRowStart expected start s) :=
        ⟨h.running, h.phase, h.buf, h.desc, h.moves⟩
      exact Follows.of_error_turn hstep (raise_endsInRowError hin rfl ⟨.rowOverrun, start⟩ hlt)
    · have hnonneg := not_lt.mp hneg
      rw [stepRowStart_ok hfull (rowEntry_ok (by rwa [h.desc, hexpected])), h.desc, hexpected, hstart] at hstep
      rw [decodeRow_interpreted hfull (hexpected ▸ hnonneg), hexpected]
      have hloop := rowLoop_follows (m.len - start + 1) [] (rowOpened_inPhase h expected start)
        (by rwa [rowOpened_row]) (rowOpened_emitted expected start s)
        (by rw [rowOpened_cursor]; exact Nat.lt_succ_self _)
      rw [rowOpened_expected, rowOpened_cursor, rowOpened_row] at hloop
      refine Follows.mono (Follows.head hstep (Follows.map (hloop.andThen (k := 1) fun r t => ?_))) (by omega)
      rintro ⟨ps, hps, hlength, rfl⟩
      obtain rfl : r.1 = ps := hps
      have hend := atRowEnd_inPhase (rowOpened_inPhase h expected start) r.1 r.2
      exact ⟨_, .head (step_eq_stepRowEnd hend.running hend.phase hend.moves) (.refl 0 _),
        interpretedRow_afterRow h hrow hexpected.symm start r.2 hlength⟩

/-! ### The rows of a frame (R200, R204) -/

theorem decodeRows_cons (width : Int) (r : Nat) (bound : RowBound) (offset : BitVec 32)
    (rest : List (RowBound × BitVec 32)) :
    decodeRows m width r ((bound, offset) :: rest) =
      ((decodeRow m offset.toNat width bound).mapError (rowFrameError r)).bind fun row =>
        (decodeRows m width (r + 1) rest).map (row.1.map Pixel.word :: ·) := by
  rw [decodeRows]
  cases decodeRow m offset.toNat width bound with
  | error e => rfl
  | ok row =>
    dsimp only [Except.mapError, Except.bind]
    cases decodeRows m width (r + 1) rest with
    | error e => rfl
    | ok rows => rfl

/-- From `s` to `t` these rows of `width` words have been written from row `r` on, and nothing before row `r`. -/
def RowsWritten (width r : Nat) (rows : List (List (BitVec 16))) (s t : State) : Prop :=
  (∀ k row, rows[k]? = some row →
    row.length = width ∧ ∀ c w, row[c]? = some w → t.pixel? (r + k) c = some w) ∧
  ∀ k < r, ∀ c, t.pixel? k c = s.pixel? k c

theorem RowsWritten.cons {width r : Nat} {ps : List Pixel} {rows : List (List (BitVec 16))} {t u : State}
    (hlength : ps.length = width) (hrow : ColumnsWritten r 0 ps s t) (h : RowsWritten width (r + 1) rows t u) :
    RowsWritten width r (ps.map Pixel.word :: rows) s u := by
  obtain ⟨hrest, hbefore⟩ := h
  refine ⟨fun k row hk => ?_, fun k hk c => ?_⟩
  · cases k with
    | zero =>
      cases hk
      refine ⟨(List.length_map _).trans hlength, fun c w hw => ?_⟩
      obtain ⟨p, hp, rfl⟩ : ∃ p, ps[c]? = some p ∧ p.word = w := by simpa using hw
      exact (hbefore r (Nat.lt_succ_self r) c).trans (hrow.pixel? hp)
    | succ k =>
      rw [show r + (k + 1) = r + 1 + k by omega]
      exact hrest k row hk
  · exact (hbefore k (Nat.lt_succ_of_lt hk) c).trans (hrow.of_row_ne (Nat.ne_of_lt hk) c)

theorem keepsTables_trans {t u : State} (h : s.KeepsTables t) (h' : t.KeepsTables u) : s.KeepsTables u := by
  obtain ⟨hbounds, hoffsets, hdraws⟩ := h
  obtain ⟨hbounds', hoffsets', hdraws'⟩ := h'
  exact ⟨hbounds'.trans hbounds, hoffsets'.trans hoffsets, hdraws'.trans hdraws⟩

theorem keepsTables_boundAt {t : State} (h : s.KeepsTables t) (r : Nat) : t.boundAt r = s.boundAt r := by
  obtain ⟨hbounds, -, hdraws⟩ := h
  exact boundAt_congr hbounds hdraws r

theorem keepsTables_offsetAt {t : State} (h : s.KeepsTables t) (r : Nat) : t.offsetAt r = s.offsetAt r := by
  obtain ⟨-, hoffsets, hdraws⟩ := h
  exact offsetAt_congr hoffsets hdraws r

/-- The block's run over the rows from row `r` on follows the pure function, `BUF_LEN + 3` turns to a row (R149). -/
theorem rows_follow (entries : List (RowBound × BitVec 32)) {r : Nat} (hs : AtRow m d r s)
    (hcount : r + entries.length = d.heightInt.toNat)
    (hentries : ∀ k bound offset, entries[k]? = some (bound, offset) →
      s.boundAt (r + k) = bound ∧ s.offsetAt (r + k) = offset) :
    Follows (entries.length * (m.len + 3)) s
      (fun rows t => Ended d .done t ∧ s.KeepsTables t ∧ rows.length = entries.length ∧
        RowsWritten d.widthInt.toNat r rows s t)
      (EndsInError d) (decodeRows m d.widthInt r entries) := by
  induction entries generalizing r s with
  | nil =>
    obtain rfl : r = d.heightInt.toNat := hcount
    rw [AtRow, if_neg (lt_irrefl _)] at hs
    exact ⟨s, .refl _ s, hs, ⟨rfl, rfl, rfl⟩, rfl, fun k row hk => by simp at hk, fun k _ c => rfl⟩
  | cons entry rest ih =>
    obtain ⟨bound, offset⟩ := entry
    have hlt : r < d.heightInt.toNat := by rw [List.length_cons] at hcount; omega
    rw [AtRow, if_pos hlt] at hs
    obtain ⟨hin, rfl⟩ := hs
    obtain ⟨hbound, hoffset⟩ := hentries 0 bound offset rfl
    have hrow := row_follows hin hlt
    rw [Nat.add_zero] at hbound hoffset
    rw [hbound, hoffset] at hrow
    rw [decodeRows_cons, List.length_cons, Nat.succ_mul, Nat.add_comm (rest.length * _)]
    refine Follows.bind (Follows.mapError hrow) fun row t => ?_
    rintro ⟨hat, htables, hlength, hwritten⟩
    have hrest : ∀ k bound offset, rest[k]? = some (bound, offset) →
        t.boundAt (s.row + 1 + k) = bound ∧ t.offsetAt (s.row + 1 + k) = offset := fun k bound offset hk => by
      rw [keepsTables_boundAt htables, keepsTables_offsetAt htables, Nat.add_assoc, Nat.add_comm 1]
      exact hentries (k + 1) bound offset hk
    refine Follows.map ((ih hat (by rw [List.length_cons] at hcount; omega) hrest).imp fun rows u => ?_)
    rintro ⟨hdone, htables', hcount', hrows⟩
    exact ⟨hdone, keepsTables_trans htables htables', congrArg (· + 1) hcount', hrows.cons hlength hwritten⟩

/-! ### The frame (R200, R215) -/

theorem decodeFrame_bad {cap : Option Nat} (h : badDimensions d cap = true) :
    decodeFrame m d cap = .error ⟨.invalidDimensions, .check, 0, 0⟩ := if_pos h

theorem decodeFrame_good {cap : Option Nat} (h : badDimensions d cap = false) :
    decodeFrame m d cap =
      (tableEntries boundOfWord m d.boundsTableOffset .bounds 0 d.heightInt.toNat).bind fun bounds =>
        (tableEntries (BitVec.ofNat 32) m d.cmdTableOffset .cmdtab 0 d.heightInt.toNat).bind fun offsets =>
          (decodeRows m d.widthInt 0 (bounds.zip offsets)).map fun rows => ⟨bounds, offsets, rows⟩ := by
  rw [decodeFrame, if_neg (by rw [h]; decide)]
  cases tableEntries boundOfWord m d.boundsTableOffset .bounds 0 d.heightInt.toNat with
  | error e => rfl
  | ok bounds =>
    cases tableEntries (BitVec.ofNat 32) m d.cmdTableOffset .cmdtab 0 d.heightInt.toNat with
    | error e => rfl
    | ok offsets =>
      dsimp only [Except.bind]
      cases decodeRows m d.widthInt 0 (bounds.zip offsets) with
      | error e => rfl
      | ok rows => rfl

theorem stepCheck_bad (h : badDimensions s.desc s.gridCap = true) :
    stepCheck s = raise .invalidDimensions 0 s := if_pos h

theorem stepCheck_empty (h : badDimensions s.desc s.gridCap = false) (hempty : s.desc.heightInt = 0) :
    stepCheck s = { s with status := .done } := by
  simp only [stepCheck, h, Bool.false_eq_true, if_false, if_pos hempty]

theorem stepCheck_rows (h : badDimensions s.desc s.gridCap = false) (hrows : s.desc.heightInt ≠ 0) :
    stepCheck s = { s with idx := 0, phase := .bounds } := by
  simp only [stepCheck, h, Bool.false_eq_true, if_false, if_neg hrows]

theorem heightInt_nonneg {cap : Option Nat} (h : badDimensions d cap = false) : 0 ≤ d.heightInt := by
  simp only [badDimensions, Bool.or_eq_false_iff, decide_eq_false_iff_not, not_lt] at h
  obtain ⟨⟨-, hheight⟩, -⟩ := h
  exact hheight

/-- The stores at DONE, field by field of the frame. -/
theorem holdsFrame_of_written {bounds : List RowBound} {offsets : List (BitVec 32)} {rows : List (List (BitVec 16))}
    {height width : Nat} {t : State} (hbounds : bounds.length = height) (hoffsets : offsets.length = height)
    (hrows : rows.length = height) (hbound : ∀ r b, bounds[r]? = some b → s.boundAt r = b)
    (hoffset : ∀ r v, offsets[r]? = some v → s.offsetAt r = v) (htables : s.KeepsTables t)
    (hwritten : RowsWritten width 0 rows s t) : t.HoldsFrame ⟨bounds, offsets, rows⟩ height width := by
  refine ⟨hbounds, hoffsets, hrows, fun r b hr => (keepsTables_boundAt htables r).trans (hbound r b hr),
    fun r v hr => (keepsTables_offsetAt htables r).trans (hoffset r v hr), fun r row hr => ?_⟩
  obtain ⟨hall, -⟩ := hwritten
  obtain ⟨hlength, hpixels⟩ := hall r row hr
  refine ⟨hlength, fun c w hw => ?_⟩
  have hpixel := hpixels c w hw
  rw [Nat.zero_add] at hpixel
  rw [State.pixelAt, hpixel, Option.getD_some]

/-- From the phase BOUNDS on, a frame with rows. -/
theorem frame_follows_of_bounds (h : InPhase m d .bounds s) (hidx : s.idx = 0) (hrows : 0 < d.heightInt.toNat)
    {cap : Option Nat} (hgood : badDimensions d cap = false) :
    Follows (2 * d.heightInt.toNat + d.heightInt.toNat * (m.len + 3)) s
      (fun f t => Ended d .done t ∧ t.HoldsFrame f d.heightInt.toNat d.widthInt.toNat) (EndsInError d)
      (decodeFrame m d cap) := by
  rw [decodeFrame_good hgood, Nat.two_mul, Nat.add_assoc]
  have hbound : AtBound m d 0 s := (atEntry_of_lt hrows).mpr ⟨h, hidx⟩
  refine Follows.bind ((bounds_walk m d).follows _ hbound (Nat.zero_add _)) fun bounds t => ?_
  rintro ⟨hat, hbounds, hboundsStored, -⟩
  have hoffset : AtOffset m d t.boundAt 0 t :=
    ⟨(atEntry_of_lt hrows).mpr (atEntry_height.mp hat), fun k => rfl⟩
  refine Follows.bind ((offsets_walk m d t.boundAt).follows _ hoffset (Nat.zero_add _)) fun offsets u => ?_
  rintro ⟨⟨hat, hkept⟩, hoffsets, hoffsetsStored, -⟩
  have hrow : AtRow m d 0 u := by
    rw [AtRow, if_pos hrows]
    exact atEntry_height.mp hat
  have hboundAt : ∀ r b, bounds[r]? = some b → u.boundAt r = b := fun r b hr =>
    (hkept r).trans (Nat.zero_add r ▸ hboundsStored r b hr)
  have hoffsetAt : ∀ r v, offsets[r]? = some v → u.offsetAt r = v := fun r v hr =>
    Nat.zero_add r ▸ hoffsetsStored r v hr
  have hlength : (bounds.zip offsets).length = d.heightInt.toNat := by
    rw [List.length_zip, hbounds, hoffsets, min_self]
  have hrun := rows_follow (bounds.zip offsets) hrow ((Nat.zero_add _).trans hlength) fun r b v hr => by
    obtain ⟨hb, hv⟩ := List.getElem?_zip_eq_some.mp hr
    rw [Nat.zero_add]
    exact ⟨hboundAt r b hb, hoffsetAt r v hv⟩
  rw [hlength] at hrun
  refine Follows.map (hrun.imp fun rows v => ?_)
  rintro ⟨hdone, htables, hcount, hwritten⟩
  exact ⟨hdone, holdsFrame_of_written hbounds hoffsets hcount hboundAt hoffsetAt htables hwritten⟩

/-- From the phase CHECK on, within R149's bound. -/
theorem frame_follows (h : InPhase m d .check s) :
    Follows (stepBound m d) s (fun f t => Ended d .done t ∧ t.HoldsFrame f d.heightInt.toNat d.widthInt.toNat)
      (EndsInError d) (decodeFrame m d s.gridCap) := by
  have hstep := step_eq_stepCheck h.running h.phase h.moves
  rw [stepBound, Nat.add_assoc, Nat.add_comm 1]
  cases hbad : badDimensions d s.gridCap with
  | true =>
    rw [stepCheck_bad (by rwa [h.desc])] at hstep
    rw [decodeFrame_bad hbad]
    exact Follows.of_error_turn hstep
      (raise_endsInError h _ _ (by rw [State.errorRow, h.phase]; rfl) (by decide))
  | false =>
    by_cases hempty : d.heightInt = 0
    · rw [stepCheck_empty (by rwa [h.desc]) (by rwa [h.desc])] at hstep
      have hframe : decodeFrame m d s.gridCap = .ok ⟨[], [], []⟩ := by
        rw [decodeFrame_good hbad, hempty]
        rfl
      rw [hframe, hempty]
      refine ⟨_, .head hstep (.refl _ _), ⟨rfl, h.desc, h.moves⟩, rfl, rfl, rfl, ?_, ?_, ?_⟩ <;>
        exact fun r x hr => by simp at hr
    · rw [stepCheck_rows (by rwa [h.desc]) (by rwa [h.desc])] at hstep
      have hnonneg := heightInt_nonneg hbad
      have hbounds : InPhase m d .bounds { s with idx := 0, phase := .bounds } :=
        ⟨h.running, rfl, h.buf, h.desc, h.moves⟩
      exact Follows.head hstep (frame_follows_of_bounds hbounds rfl (by omega) hbad)

end

theorem hostStart_of_not_running {s : State} (h : s.status ≠ .running) : hostStart s = acceptStart s := by
  unfold hostStart
  cases hs : s.status with
  | running => exact absurd hs h
  | idle => rfl
  | done => rfl
  | error => rfl

/-- Settles O53: from CHECK on the block follows the frame function part by part, and where it stops it stays. -/
theorem stepMachineConformsToTheFrameFunction : Obligations.StepMachineConformsToTheFrameFunction := by
  intro s hstatus hmoves
  rw [hostStart_of_not_running hstatus]
  have hrun := frame_follows (s := acceptStart s) (m := s.buf) (d := s.pending) ⟨rfl, rfl, rfl, rfl, hmoves⟩
  rw [acceptStart_gridCap] at hrun
  cases hframe : decodeFrame s.buf s.pending s.gridCap with
  | ok f =>
    rw [hframe] at hrun
    obtain ⟨t, hreach, ⟨hdone, hdesc, hturns⟩, hholds⟩ := hrun
    exact ⟨t, hreach.run_eq (by rw [hdone]; decide) hturns, hdesc, hdone, hholds⟩
  | error e =>
    rw [hframe] at hrun
    obtain ⟨t, hreach, ⟨herror, hdesc, hturns⟩, hholds⟩ := hrun
    exact ⟨t, hreach.run_eq (by rw [herror]; decide) hturns, hdesc, herror, hholds⟩

end Sys2Proof.Proofs
end

section
/-! PROOFS. The family 60_exceptions.md: the order in which the errors of one command pass are met (R239). -/

namespace Sys2Proof.Proofs

open Sys2Proof.Machine

/-! ### The operand reads: the first byte outside the buffer -/

/-- A walk over the buffer that fails, fails for want of the byte at the buffer's end. -/
def FailsOnlyAtBufferEnd {α : Type} (m : Memory) : Except RowError α → Prop
  | .ok _ => True
  | .error e => e = ⟨.truncatedInput, m.len⟩

section

variable {m : Memory} {a : Nat}

/-- With every byte before `a` in the buffer, the first of the bytes from `a` on that is missing is the one at the
buffer's end. -/
theorem indexRun_failsOnlyAtBufferEnd (mk : Byte → Pixel) (n : Nat) (ha : a ≤ m.len) :
    FailsOnlyAtBufferEnd m (indexRun m mk a n) := by
  unfold indexRun
  split
  case isTrue => trivial
  case isFalse => exact congrArg (RowError.mk .truncatedInput) (Nat.max_eq_right ha)

theorem afterByte_failsOnlyAtBufferEnd {α : Type} {k : Byte → Except RowError α} (ha : a ≤ m.len)
    (hk : a + 1 ≤ m.len → ∀ b, FailsOnlyAtBufferEnd m (k b)) : FailsOnlyAtBufferEnd m (afterByte m a k) := by
  unfold afterByte
  split
  case isTrue hpresent => exact hk hpresent _
  case isFalse hmissing =>
    exact congrArg (RowError.mk .truncatedInput) (Nat.le_antisymm ha (Nat.le_of_not_lt hmissing))

theorem afterPacked_failsOnlyAtBufferEnd {α : Type} {k : Nat → Nat → Except RowError α} (value : Nat)
    (ha : a ≤ m.len) (hk : ∀ n d, d ≤ m.len → FailsOnlyAtBufferEnd m (k n d)) :
    FailsOnlyAtBufferEnd m (afterPacked m a value k) := by
  unfold afterPacked
  split
  case isTrue => exact afterByte_failsOnlyAtBufferEnd ha fun hnext _ => hk _ _ hnext
  case isFalse => exact hk _ _ ha

theorem samePixels_failsOnlyAtBufferEnd (p : Pixel) (n : Nat) : FailsOnlyAtBufferEnd m (samePixels p n a) := trivial

theorem packedRepeat_failsOnlyAtBufferEnd (p : Pixel) (value : Nat) (ha : a ≤ m.len) :
    FailsOnlyAtBufferEnd m (afterPacked m a value fun n d => samePixels p n d) :=
  afterPacked_failsOnlyAtBufferEnd value ha fun n _ _ => samePixels_failsOnlyAtBufferEnd p n

theorem packedFill_failsOnlyAtBufferEnd (mk : Byte → Pixel) (value : Nat) (ha : a ≤ m.len) :
    FailsOnlyAtBufferEnd m
      (afterPacked m a value fun n d => afterByte m d fun b => samePixels (mk b) n (d + 1)) :=
  afterPacked_failsOnlyAtBufferEnd value ha fun n _ hd =>
    afterByte_failsOnlyAtBufferEnd hd fun _ b => samePixels_failsOnlyAtBufferEnd (mk b) n

/-- R231: a command of the stream proper whose byte is in the buffer can only run out of operand bytes. -/
theorem commandPixels_failsOnlyAtBufferEnd {c : Nat} (hc : c < m.len) {i : Instr} (hi : plainCommand i = true) :
    FailsOnlyAtBufferEnd m (commandPixels m c i) := by
  have hc : c + 1 ≤ m.len := hc
  cases i with
  | ldraw count => exact indexRun_failsOnlyAtBufferEnd _ _ hc
  | lskip value => exact packedRepeat_failsOnlyAtBufferEnd _ _ hc
  | bdraw high =>
    exact afterByte_failsOnlyAtBufferEnd hc fun hnext _ => indexRun_failsOnlyAtBufferEnd _ _ hnext
  | bskip high => exact afterByte_failsOnlyAtBufferEnd hc fun _ _ => samePixels_failsOnlyAtBufferEnd _ _
  | player value =>
    exact afterPacked_failsOnlyAtBufferEnd (k := fun n d => indexRun m .player d n) _ hc
      fun n _ hd => indexRun_failsOnlyAtBufferEnd _ n hd
  | fill value => exact packedFill_failsOnlyAtBufferEnd .palette _ hc
  | pfill value => exact packedFill_failsOnlyAtBufferEnd .player _ hc
  | sfill value => exact packedRepeat_failsOnlyAtBufferEnd _ _ hc
  | sp1n => exact afterByte_failsOnlyAtBufferEnd hc fun _ _ => samePixels_failsOnlyAtBufferEnd _ _
  | sp2n => exact afterByte_failsOnlyAtBufferEnd hc fun _ _ => samePixels_failsOnlyAtBufferEnd _ _
  | xflip0 => trivial
  | xflip1 => trivial
  | xpal0 => trivial
  | xpal1 => trivial
  | sp1 => trivial
  | sp2 => trivial
  | xda8 => trivial
  | xda9 => trivial
  | xdaa => trivial
  | rsvdBE => exact nomatch hi
  | rsvdCE => exact nomatch hi
  | rsvdDE => exact nomatch hi
  | rsvdEE => exact nomatch hi
  | rsvdFE => exact nomatch hi
  | eor high => exact nomatch hi

end

/-! ### The errors of a decoded command -/

/-- R170: the commands outside R103's legal ones are the reserved bytes. -/
theorem exec_of_not_wellFormed {i : Instr} (hi : i.wellFormed = false) (s : State) :
    exec i s = .next (raise .unknownExtendedCommand s.cursor s) := by
  cases i with
  | rsvdBE => exact reservedExtended_eq s
  | rsvdCE => exact reservedExtended_eq s
  | rsvdDE => exact reservedExtended_eq s
  | rsvdEE => exact reservedExtended_eq s
  | rsvdFE => exact reservedExtended_eq s
  | _ => exact nomatch hi

theorem ne_eor_of_plainCommand {i : Instr} (hi : plainCommand i = true) (high : BitVec 4) : i ≠ .eor high := by
  rintro rfl
  exact nomatch hi

/-- A command of the stream proper that ends a RUNNING row in ERROR has met the buffer's end. -/
theorem exec_error_of_plainCommand {i : Instr} {s t : State} (hi : plainCommand i = true)
    (hrunning : s.status = .running) (hread : s.cursor < s.buf.len) (hexec : exec i s = .next t)
    (herror : t.status = .error) : t.errCode = .truncatedInput ∧ t.errOffset = s.buf.len := by
  have hyields := exec_yields s.buf s.cursor i (ne_eor_of_plainCommand hi)
  have hends := commandPixels_failsOnlyAtBufferEnd hread hi
  cases hpixels : commandPixels s.buf s.cursor i with
  | ok r =>
    obtain ⟨ps, next⟩ := r
    rw [hpixels] at hyields
    have hnext : exec i s = .next (moveCursor next (emitAll ps s)) := hyields s rfl
    cases hexec.symm.trans hnext
    simp [hrunning] at herror
  | error e =>
    rw [hpixels] at hyields hends
    obtain ⟨ps, hyields⟩ := hyields
    obtain rfl : e = ⟨.truncatedInput, s.buf.len⟩ := hends
    have hraised : exec i s =
        .next (raise .truncatedInput s.buf.len (moveCursor s.buf.len (emitAll ps s))) := hyields s rfl
    cases hexec.symm.trans hraised
    exact ⟨rfl, rfl⟩

/-- Settles O28: the pass tests the count, then reads the byte, then runs the command, whose own errors are told apart
by its kind; an operand error lies at the buffer's end, past the command byte since that byte was read. -/
theorem errorsOfAPassComeInOrder : Obligations.ErrorsOfAPassComeInOrder := by
  intro s hstatus hphase hmoves
  rw [step_eq_cmdsPass hstatus hphase hmoves]
  refine ⟨cmdsPass_overrun, fun hcount hread => cmdsPass_truncated (not_lt.mpr hcount) hread,
    fun hcount hread i hdecode => ?_⟩
  rw [cmdsPass_decoded (not_lt.mpr hcount) hread hdecode]
  refine ⟨?eor, fun hi => exec_of_not_wellFormed hi s, fun hi t hexec herror => ?operand⟩
  case eor =>
    rintro ⟨high, rfl⟩ hwrong
    exact exec_eor_of_not_exact hwrong
  case operand =>
    obtain ⟨hcode, hoffset⟩ := exec_error_of_plainCommand hi hstatus hread hexec herror
    rw [hoffset]
    exact ⟨hcode, hread, (Nat.max_eq_right hread).symm⟩

end Sys2Proof.Proofs
end

section
/-! PROOFS. The family 60_exceptions.md: how long an error stays recorded, and its two exits (R240). -/

namespace Sys2Proof.Proofs

open Sys2Proof.Machine

section

variable {s t : State}

/-- The block takes no step in ERROR (R236; log 8). -/
theorem blockStep_of_error (h : s.status = .error) : blockStep s = .next s := by
  simp only [blockStep, h]

/-- R264 refuses a change of the buffer only while RUNNING. -/
theorem bindBuffer_of_not_running (h : s.status ≠ .running) (bytes : List Byte) :
    bindBuffer bytes s = .next { s with buf := Memory.ofBytes bytes } := if_neg fun hrun => h hrun.1

theorem hostAct_keepsStatus_of_error {a : HostAction} (hstatus : s.status = .error) (hstart : a ≠ .start)
    (hreset : a ≠ .reset) (h : hostAct a s = .next t) : s.KeepsStatus t := by
  cases a with
  | start => exact absurd rfl hstart
  | reset => exact absurd rfl hreset
  | writePending d =>
    cases h
    exact ⟨rfl, rfl, rfl, rfl, rfl, rfl⟩
  | bindBuffer bytes =>
    have hbound := bindBuffer_of_not_running (by rw [hstatus]; decide) bytes
    cases h.symm.trans hbound
    exact ⟨rfl, rfl, rfl, rfl, rfl, rfl⟩
  | other =>
    cases h
    exact ⟨rfl, rfl, rfl, rfl, rfl, rfl⟩

theorem step_keepsStatus_of_error (hstatus : s.status = .error)
    (hexit : ∀ rest, s.hostMoves ≠ .act .start :: rest ∧ s.hostMoves ≠ .act .reset :: rest)
    (h : step s = .next t) : s.KeepsStatus t := by
  rcases turn_cases s with hturn | ⟨a, rest, hturn⟩
  · rw [step_of_blockTurn hturn, blockStep_of_error (s := { s with hostMoves := s.hostMoves.tail }) hstatus] at h
    cases h
    exact ⟨rfl, rfl, rfl, rfl, rfl, rfl⟩
  · obtain ⟨hstart, hreset⟩ := hexit rest
    rw [step_of_hostTurn hturn] at h
    exact hostAct_keepsStatus_of_error (s := { s with hostMoves := rest }) hstatus
      (fun ha => hstart (ha ▸ hturn)) (fun ha => hreset (ha ▸ hturn)) h

/-- R207: START leaves ERROR for RUNNING. -/
theorem step_start_of_error {rest : List HostMove} (hstatus : s.status = .error)
    (hturn : s.hostMoves = .act .start :: rest) : step s = .next (acceptStart { s with hostMoves := rest }) := by
  rw [step_of_hostTurn hturn]
  exact congrArg _ (hostStart_of_not_running (s := { s with hostMoves := rest }) (by rw [hstatus]; decide))

/-- R260: a reset leaves any status for IDLE. -/
theorem step_reset {rest : List HostMove} (hturn : s.hostMoves = .act .reset :: rest) :
    step s = .next (hostReset { s with hostMoves := rest }) := step_of_hostTurn hturn

end

/-- Settles O41: in ERROR the block does nothing and the host's other actions write neither STATUS nor an error
register, while START, accepted there, and reset write all of them. -/
theorem errorPersistsUntilStartOrReset : Obligations.ErrorPersistsUntilStartOrReset := by
  intro s t hstatus hstep
  refine ⟨fun hexit => step_keepsStatus_of_error hstatus hexit hstep, fun rest hturn => ?_⟩
  rcases hturn with hstart | hreset
  · cases hstep.symm.trans (step_start_of_error hstatus hstart)
    exact ⟨by simp, rfl, rfl, rfl, rfl, rfl⟩
  · cases hstep.symm.trans (step_reset hreset)
    exact ⟨by simp [hostReset, State.reset], rfl, rfl, rfl, rfl, rfl⟩

end Sys2Proof.Proofs
end

section
/-! PROOFS. The family 70_reset_and_hazards.md: what a START does in each STATUS (R263). -/

namespace Sys2Proof.Proofs

open Sys2Proof.Machine

section

variable {s : State}

/-- R263: the operation in progress continues unchanged. -/
theorem hostStart_of_running (h : s.status = .running) : hostStart s = s := by
  simp only [hostStart, h]

/-- The host's START is one turn of the schedule, in every STATUS. -/
theorem step_start {rest : List HostMove} (hturn : s.hostMoves = .act .start :: rest) :
    step s = .next (hostStart { s with hostMoves := rest }) := step_of_hostTurn hturn

end

/-- Settles O43: the START turn runs `hostStart`, which is the identity in RUNNING and R207's `acceptStart` in the
three other statuses. -/
theorem startLatchesTheDescriptor : Obligations.StartLatchesTheDescriptor := by
  intro s rest hturn
  rw [step_start hturn]
  refine ⟨fun hrunning => ?ignored, fun hnot => ?accepted⟩
  case ignored => rw [hostStart_of_running (s := { s with hostMoves := rest }) hrunning]
  case accepted =>
    rw [hostStart_of_not_running (s := { s with hostMoves := rest }) hnot]
    exact ⟨_, rfl, by simp⟩

end Sys2Proof.Proofs
end

section
/-! PROOFS. The family 30_encoding.md: the assembler's lines and the stream they are read back from (R109, R110). -/

namespace Sys2Proof.Proofs

open Sys2Proof.Machine

/-! ### The decoder against the encoder (R92, R98) -/

/-- A field of a command byte is at most six bits wide, so each command with a field is a small table. -/
theorem decode_encode (i : Instr) : decode (encode i) = .ok i := by
  cases i with
  | ldraw count => revert count; decide
  | lskip value => revert value; decide
  | bdraw high => revert high; decide
  | bskip high => revert high; decide
  | player value => revert value; decide
  | fill value => revert value; decide
  | pfill value => revert value; decide
  | sfill value => revert value; decide
  | eor high => revert high; decide
  | _ => rfl

/-- Settles O1, by the decode of each command's byte. -/
theorem decodeOfEncodeIsIdentity : Obligations.DecodeOfEncodeIsIdentity := decode_encode

/-- Settles O3: each byte of the spec's table is the byte of the command listed beside it. -/
theorem bytesOfTheSpecDecodeAsTheSpecSays : Obligations.BytesOfTheSpecDecodeAsTheSpecSays :=
  ⟨decode_encode (.ldraw 0#6), decode_encode (.lskip 0#6), decode_encode (.bdraw 0#4), decode_encode (.eor 0#4),
    decode_encode (.eor 1#4), decode_encode (.lskip 9#6), decode_encode (.ldraw 15#6), decode_encode (.player 4#4),
    decode_encode .sp1n, decode_encode (.pfill 7#4), decode_encode (.sfill 9#4), decode_encode .xdaa,
    decode_encode .rsvdBE, decode_encode (.bskip 12#4), decode_encode (.fill 14#4), decode_encode (.eor 15#4)⟩

/-! ### Counts as fields (R96, R97) -/

theorem toNat_ofNat_of_le {w n : Nat} (h : n ≤ 2 ^ w - 1) : (BitVec.ofNat w n).toNat = n := by
  have hpos : 0 < 2 ^ w := Nat.two_pow_pos w
  rw [BitVec.toNat_ofNat, Nat.mod_eq_of_lt (by omega)]

/-- An in-command count of at least 1 never chooses the PEC long form. -/
theorem ofNat_ne_zero_of_range {w n : Nat} (hlow : 1 ≤ n) (hhigh : n ≤ 2 ^ w - 1) : BitVec.ofNat w n ≠ 0#w := by
  intro h
  have hn : (BitVec.ofNat w n).toNat = n := toNat_ofNat_of_le hhigh
  rw [h, BitVec.toNat_ofNat, Nat.zero_mod] at hn
  omega

theorem toNat_countByte {n : Nat} (h : n ≤ 255) : (countByte n).toNat = n := toNat_ofNat_of_le h

theorem countByte_toNat (b : Byte) : countByte b.toNat = b := BitVec.ofNat_toNat 8 b

/-- A 12-bit count is its high nibble and its count byte. -/
theorem toNat_splitCount {n : Nat} (h : n ≤ 4095) :
    (BitVec.ofNat 4 (n >>> 8) ++ countByte n : BitVec 12).toNat = n := by
  rw [bigCount_toNat, Nat.shiftRight_eq_div_pow, countByte, BitVec.toNat_ofNat, BitVec.toNat_ofNat]
  omega

theorem splitCount_toNat (high : BitVec 4) (b : Byte) :
    BitVec.ofNat 4 ((high ++ b : BitVec 12).toNat >>> 8) = high ∧ countByte (high ++ b : BitVec 12).toNat = b := by
  have hhigh := high.isLt
  have hb := b.isLt
  rw [bigCount_toNat, Nat.shiftRight_eq_div_pow]
  constructor
  · apply BitVec.eq_of_toNat_eq
    rw [BitVec.toNat_ofNat]
    omega
  · apply BitVec.eq_of_toNat_eq
    rw [countByte, BitVec.toNat_ofNat]
    omega

/-! ### Operands read from a stream -/

section

variable {mk : List Byte → AsmLine} {bs rest : List Byte} {l : AsmLine}

theorem lineOfRun_append (mk : List Byte → AsmLine) {n : Nat} {idxs : List Byte} (h : n = idxs.length)
    (rest : List Byte) : lineOfRun mk n (idxs ++ rest) = some (mk idxs, rest) := by
  subst h
  simp [lineOfRun, splitBytes]

theorem eq_append_of_lineOfRun {n : Nat} (h : lineOfRun mk n bs = some (l, rest)) :
    ∃ idxs, l = mk idxs ∧ idxs.length = n ∧ bs = idxs ++ rest := by
  unfold lineOfRun splitBytes at h
  split at h
  case isTrue hn =>
    cases h
    exact ⟨bs.take n, rfl, List.length_take_of_le hn, (List.take_append_drop n bs).symm⟩
  case isFalse => cases h

theorem eq_cons_of_lineAfterCount {k : Byte → List Byte → Option (AsmLine × List Byte)}
    (h : lineAfterCount k bs = some (l, rest)) : ∃ b tail, bs = b :: tail ∧ k b tail = some (l, rest) := by
  cases bs with
  | nil => cases h
  | cons b tail => exact ⟨b, tail, rfl, h⟩

theorem eq_cons_of_lineOfIndex {mk : Byte → AsmLine} (h : lineOfIndex mk bs = some (l, rest)) :
    ∃ idx, l = mk idx ∧ bs = idx :: rest := by
  cases bs with
  | nil => cases h
  | cons idx tail =>
    cases h
    exact ⟨idx, rfl, rfl⟩

/-- R100, R101: a line's operands are read back behind its command, whatever follows. -/
theorem readOperands_operands (hwf : l.wellFormed = true) (rest : List Byte) :
    readOperands l.command (l.operands ++ rest) = some (l, rest) := by
  cases l <;>
    simp only [AsmLine.wellFormed, decide_eq_true_eq] at hwf <;>
    simp only [AsmLine.command, AsmLine.operands, readOperands, List.cons_append, List.nil_append, lineAfterCount,
      lineOfIndex, if_true]
  case ldraw idxs => exact lineOfRun_append _ (toNat_ofNat_of_le hwf) rest
  case lskip n =>
    obtain ⟨hlow, hhigh⟩ := hwf
    rw [if_neg (ofNat_ne_zero_of_range hlow hhigh), toNat_ofNat_of_le hhigh]
  case bdraw idxs => exact lineOfRun_append _ (toNat_splitCount hwf) rest
  case bskip n => rw [toNat_splitCount hwf]
  case player idxs =>
    obtain ⟨hlow, hhigh⟩ := hwf
    rw [if_neg (ofNat_ne_zero_of_range hlow hhigh)]
    exact lineOfRun_append _ (toNat_ofNat_of_le hhigh) rest
  case playerX idxs => exact lineOfRun_append _ (toNat_countByte hwf) rest
  case fill n idx =>
    obtain ⟨hlow, hhigh⟩ := hwf
    rw [if_neg (ofNat_ne_zero_of_range hlow hhigh), toNat_ofNat_of_le hhigh]
  case pfill n idx =>
    obtain ⟨hlow, hhigh⟩ := hwf
    rw [if_neg (ofNat_ne_zero_of_range hlow hhigh), toNat_ofNat_of_le hhigh]
  case sfill n =>
    obtain ⟨hlow, hhigh⟩ := hwf
    rw [if_neg (ofNat_ne_zero_of_range hlow hhigh), toNat_ofNat_of_le hhigh]
  case eor k => rw [toNat_ofNat_of_le hwf]
  -- what is left has one count byte; the lines without operands are closed already
  all_goals rw [toNat_countByte hwf]

end

/-- Settles O4: the decoder gives back the line's command, and the command says how many operand bytes are its. -/
theorem readLineOfAssembledLine : Obligations.ReadLineOfAssembledLine := by
  intro l rest hwf
  rw [AsmLine.bytes, List.cons_append, readLine, decode_encode]
  exact readOperands_operands hwf rest

/-! ### The line that was read, and its bytes -/

theorem toNat_le_two_pow_sub_one {w : Nat} (value : BitVec w) : value.toNat ≤ 2 ^ w - 1 :=
  Nat.le_sub_one_of_lt value.isLt

/-- The range of an in-command count that is not the long form's 0. -/
theorem toNat_range_of_ne_zero {w : Nat} {value : BitVec w} (h : value ≠ 0#w) :
    1 ≤ value.toNat ∧ value.toNat ≤ 2 ^ w - 1 :=
  ⟨Nat.pos_of_ne_zero (toNat_ne_zero_of_ne h), toNat_le_two_pow_sub_one value⟩

/-- The line meets its constraint, is one of the command `i`, and its operands with the bytes `rest` are `bs`. -/
def IsLineOf (i : Instr) (bs rest : List Byte) (l : AsmLine) : Prop :=
  l.wellFormed = true ∧ l.command = i ∧ bs = l.operands ++ rest

section

variable {bs rest : List Byte} {l : AsmLine}

/-- A line that has one count byte besides its command. -/
theorem isLineOf_countByte {i : Instr} {mk : Nat → AsmLine}
    (hwf : ∀ n, (mk n).wellFormed = decide (n ≤ 255)) (hcommand : ∀ n, (mk n).command = i)
    (hoperands : ∀ n, (mk n).operands = [countByte n])
    (h : lineAfterCount (fun b tail => some (mk b.toNat, tail)) bs = some (l, rest)) : IsLineOf i bs rest l := by
  obtain ⟨b, tail, rfl, hline⟩ := eq_cons_of_lineAfterCount h
  cases hline
  refine ⟨?_, hcommand _, ?_⟩
  · rw [hwf]
    exact decide_eq_true (toNat_le_two_pow_sub_one b)
  · rw [hoperands, countByte_toNat]
    rfl

/-- A line of a count byte and an index byte. -/
theorem isLineOf_countByte_index {i : Instr} {mk : Nat → Byte → AsmLine}
    (hwf : ∀ n idx, (mk n idx).wellFormed = decide (n ≤ 255)) (hcommand : ∀ n idx, (mk n idx).command = i)
    (hoperands : ∀ n idx, (mk n idx).operands = [countByte n, idx])
    (h : lineAfterCount (fun b tail => lineOfIndex (mk b.toNat) tail) bs = some (l, rest)) :
    IsLineOf i bs rest l := by
  obtain ⟨b, tail, rfl, hindex⟩ := eq_cons_of_lineAfterCount h
  obtain ⟨idx, rfl, rfl⟩ := eq_cons_of_lineOfIndex hindex
  refine ⟨?_, hcommand _ _, ?_⟩
  · rw [hwf]
    exact decide_eq_true (toNat_le_two_pow_sub_one b)
  · rw [hoperands, countByte_toNat]
    rfl

theorem isLineOf_of_readOperands {i : Instr} (h : readOperands i bs = some (l, rest)) : IsLineOf i bs rest l := by
  cases i <;> simp only [readOperands] at h
  case ldraw count =>
    obtain ⟨idxs, rfl, hlength, rfl⟩ := eq_append_of_lineOfRun h
    refine ⟨decide_eq_true (hlength ▸ toNat_le_two_pow_sub_one count), ?_, rfl⟩
    rw [AsmLine.command, hlength, BitVec.ofNat_toNat, BitVec.setWidth_eq]
  case lskip value =>
    split at h
    case isTrue hzero => exact hzero ▸ isLineOf_countByte (fun _ => rfl) (fun _ => rfl) (fun _ => rfl) h
    case isFalse hshort =>
      cases h
      exact ⟨decide_eq_true (toNat_range_of_ne_zero hshort), congrArg Instr.lskip (BitVec.ofNat_toNat 6 value), rfl⟩
  case bdraw high =>
    obtain ⟨b, tail, rfl, hrun⟩ := eq_cons_of_lineAfterCount h
    obtain ⟨idxs, rfl, hlength, rfl⟩ := eq_append_of_lineOfRun hrun
    obtain ⟨hhigh, hb⟩ := splitCount_toNat high b
    refine ⟨decide_eq_true (hlength ▸ toNat_le_two_pow_sub_one _), ?_, ?_⟩
    · rw [AsmLine.command, hlength, hhigh]
    · rw [AsmLine.operands, hlength, hb]
      rfl
  case bskip high =>
    obtain ⟨b, tail, rfl, hline⟩ := eq_cons_of_lineAfterCount h
    cases hline
    obtain ⟨hhigh, hb⟩ := splitCount_toNat high b
    refine ⟨decide_eq_true (toNat_le_two_pow_sub_one _), congrArg Instr.bskip hhigh, ?_⟩
    rw [AsmLine.operands, hb]
    rfl
  case player value =>
    split at h
    case isTrue hzero =>
      subst hzero
      obtain ⟨b, tail, rfl, hrun⟩ := eq_cons_of_lineAfterCount h
      obtain ⟨idxs, rfl, hlength, rfl⟩ := eq_append_of_lineOfRun hrun
      refine ⟨decide_eq_true (hlength ▸ toNat_le_two_pow_sub_one b), rfl, ?_⟩
      rw [AsmLine.operands, hlength, countByte_toNat]
      rfl
    case isFalse hshort =>
      obtain ⟨idxs, rfl, hlength, rfl⟩ := eq_append_of_lineOfRun h
      refine ⟨decide_eq_true (hlength ▸ toNat_range_of_ne_zero hshort), ?_, rfl⟩
      rw [AsmLine.command, hlength, BitVec.ofNat_toNat, BitVec.setWidth_eq]
  case fill value =>
    split at h
    case isTrue hzero =>
      exact hzero ▸ isLineOf_countByte_index (fun _ _ => rfl) (fun _ _ => rfl) (fun _ _ => rfl) h
    case isFalse hshort =>
      obtain ⟨idx, rfl, rfl⟩ := eq_cons_of_lineOfIndex h
      exact ⟨decide_eq_true (toNat_range_of_ne_zero hshort), congrArg Instr.fill (BitVec.ofNat_toNat 4 value), rfl⟩
  case pfill value =>
    split at h
    case isTrue hzero =>
      exact hzero ▸ isLineOf_countByte_index (fun _ _ => rfl) (fun _ _ => rfl) (fun _ _ => rfl) h
    case isFalse hshort =>
      obtain ⟨idx, rfl, rfl⟩ := eq_cons_of_lineOfIndex h
      exact ⟨decide_eq_true (toNat_range_of_ne_zero hshort), congrArg Instr.pfill (BitVec.ofNat_toNat 4 value), rfl⟩
  case sfill value =>
    split at h
    case isTrue hzero => exact hzero ▸ isLineOf_countByte (fun _ => rfl) (fun _ => rfl) (fun _ => rfl) h
    case isFalse hshort =>
      cases h
      exact ⟨decide_eq_true (toNat_range_of_ne_zero hshort), congrArg Instr.sfill (BitVec.ofNat_toNat 4 value), rfl⟩
  case sp1n => exact isLineOf_countByte (fun _ => rfl) (fun _ => rfl) (fun _ => rfl) h
  case sp2n => exact isLineOf_countByte (fun _ => rfl) (fun _ => rfl) (fun _ => rfl) h
  case eor high =>
    cases h
    exact ⟨decide_eq_true (toNat_le_two_pow_sub_one high), congrArg Instr.eor (BitVec.ofNat_toNat 4 high), rfl⟩
  -- what is left has no operands, or is a reserved byte, of which no line is read
  all_goals
    cases h
    all_goals exact ⟨rfl, rfl, rfl⟩

end

/-- Settles O5: the byte that is read is that of the decoded command, and the rest is as its operands were read. -/
theorem assembledLineOfReadLine : Obligations.AssembledLineOfReadLine := by
  intro bs rest l h
  cases bs with
  | nil => cases h
  | cons cmd tail =>
    obtain ⟨i, hdecode, hencode⟩ := decode_readsBack cmd
    rw [readLine, hdecode] at h
    obtain ⟨hwf, hcommand, rfl⟩ := isLineOf_of_readOperands h
    refine ⟨hwf, ?_⟩
    rw [AsmLine.bytes, hcommand, hencode, List.cons_append]

/-! ### Pseudo-instructions (R110) -/

theorem expansion_of_one_line {p : PseudoLine} {l : AsmLine} (hwf : l.wellFormed = true)
    (hpixels : l.pixels = p.pixels) (hexpand : p.expand = [l]) :
    (∀ l ∈ p.expand, l.wellFormed = true) ∧ p.expand.flatMap AsmLine.pixels = p.pixels := by
  simp [hexpand, hwf, hpixels]

/-- Settles O6: the bounds between the forms of an expansion are the constraints of those forms. -/
theorem pseudoInstructionsExpandToTheirPixels : Obligations.PseudoInstructionsExpandToTheirPixels := by
  intro p hwf
  cases p <;> simp only [PseudoLine.wellFormed, decide_eq_true_eq] at hwf
  case skip n =>
    by_cases hzero : n = 0
    · subst hzero
      simp [PseudoLine.expand, PseudoLine.pixels]
    by_cases hshort : n ≤ 63
    · exact expansion_of_one_line (l := .lskip n) (decide_eq_true ⟨Nat.pos_of_ne_zero hzero, hshort⟩) rfl
        (by simp [PseudoLine.expand, hzero, hshort])
    by_cases hlong : n ≤ 255
    · exact expansion_of_one_line (l := .lskipX n) (decide_eq_true hlong) rfl
        (by simp [PseudoLine.expand, hzero, hshort, hlong])
    · exact expansion_of_one_line (l := .bskip n) (decide_eq_true hwf) rfl
        (by simp [PseudoLine.expand, hzero, hshort, hlong])
  case draw idxs =>
    by_cases hshort : idxs.length ≤ 63
    · exact expansion_of_one_line (l := .ldraw idxs) (decide_eq_true hshort) rfl (if_pos hshort)
    · exact expansion_of_one_line (l := .bdraw idxs) (decide_eq_true hwf) rfl (if_neg hshort)
  case shadow n =>
    obtain ⟨hlow, hhigh⟩ := hwf
    by_cases hshort : n ≤ 15
    · exact expansion_of_one_line (l := .sfill n) (decide_eq_true ⟨hlow, hshort⟩) rfl (if_pos hshort)
    · exact expansion_of_one_line (l := .sfillX n) (decide_eq_true hhigh) rfl (if_neg hshort)
  case fillp n idx =>
    obtain ⟨hlow, hhigh⟩ := hwf
    by_cases hshort : n ≤ 15
    · exact expansion_of_one_line (l := .fill n idx) (decide_eq_true ⟨hlow, hshort⟩) rfl (if_pos hshort)
    · exact expansion_of_one_line (l := .fillX n idx) (decide_eq_true hhigh) rfl (if_neg hshort)

end Sys2Proof.Proofs
end

section
/-! PROOFS. The family 41_row_commands.md: emitted and padded pixels in the grid, the frame of a command, and a command
against its pixels. -/

namespace Sys2Proof.Proofs

open Sys2Proof.Machine

/-! ### Emitting and padding (R142, R143) -/

section

variable (ps : List Pixel) (s : State)

theorem emitAll_keepsOperation : s.KeepsOperation (emitAll ps s) := by simp [State.KeepsOperation]

theorem emitAll_keepsStatus : s.KeepsStatus (emitAll ps s) := by simp [State.KeepsStatus]

theorem emitAll_keepsTables : s.KeepsTables (emitAll ps s) := by simp [State.KeepsTables]

/-- A column past the run has no pixel of it, whether the run passes EXPECTED or not. -/
theorem emitAll_keepsGridOutsideRun : s.KeepsGridOutsideRun (emitAll ps s) := by
  intro r c houtside
  rw [emitAll_emitted] at houtside
  rw [emitAll_pixel?]
  generalize (s.boundAt s.row).left.toNat = left at houtside ⊢
  split
  case isFalse => rfl
  case isTrue hin =>
    obtain ⟨hrow, hfirst, hshort⟩ := hin
    have hpast : ps.length ≤ c - left - s.emitted :=
      by_contra fun h => houtside ⟨hrow, hfirst, by omega, hshort⟩
    rw [List.getElem?_eq_none hpast]
    rfl

theorem emitAll_pixel?_of_getElem? {k : Nat} {p : Pixel} (hp : ps[k]? = some p)
    (hshort : ((s.emitted + k : Nat) : Int) < s.expected) :
    (emitAll ps s).pixel? s.row ((s.boundAt s.row).left.toNat + s.emitted + k) = some p.word := by
  rw [emitAll_pixel?, Nat.sub_sub, Nat.add_sub_cancel_left, Nat.add_assoc, Nat.add_sub_cancel_left, hp,
    if_pos ⟨rfl, by omega, hshort⟩]
  rfl

/-- Settles O21: the run writes its columns short of EXPECTED and EMITTED, and nothing else. -/
theorem emittedPixelsLandInTheRow : Obligations.EmittedPixelsLandInTheRow := fun ps s =>
  ⟨emitAll_emitted ps s, emitAll_cursor ps s, emitAll_phase ps s, emitAll_keepsOperation ps s,
    emitAll_keepsStatus ps s, emitAll_keepsTables ps s, fun _ _ => emitAll_pixel?_of_getElem? ps s,
    emitAll_keepsGridOutsideRun ps s⟩

end

theorem padFrom_eq_with_grid (c n : Nat) (s : State) : padFrom c n s = { s with grid := (padFrom c n s).grid } := by
  induction n generalizing c s with
  | zero => rfl
  | succ n ih => exact ih (c + 1) (writePixel s.row c .transparent s)

/-- Settles O22: each padded column is one write of the Transparent word. -/
theorem paddingWritesTransparentColumns : Obligations.PaddingWritesTransparentColumns := fun c n s =>
  ⟨padFrom_pixel? c n s, padFrom_eq_with_grid c n s⟩

/-! ### The frame of a command -/

section

variable {s t : State}

/-- The frame that O23 states, for a command that keeps PHASE. -/
theorem commandResult_frame (h : CommandResult s t) :
    s.KeepsOperation t ∧ s.cursor ≤ t.cursor ∧ s.emitted ≤ t.emitted ∧ t.phase = s.phase ∧
      ((s.KeepsStatus t ∧ s.KeepsTables t ∧ s.KeepsGridOutsideRun t) ∨ ∃ e, s.EnteredError t e t.cursor) := by
  have hcount (ps : List Pixel) : s.emitted ≤ s.emitted + ps.length := Nat.le_add_right _ _
  rcases h with ⟨ps, c, -, -, hc, rfl⟩ | ⟨ps, c, -, -, hc, -, rfl⟩ | rfl
  · refine ⟨emitAll_keepsOperation ps s, Nat.le_of_lt hc, ?_, emitAll_phase ps s,
      .inl ⟨emitAll_keepsStatus ps s, emitAll_keepsTables ps s, emitAll_keepsGridOutsideRun ps s⟩⟩
    rw [moveCursor_emitted, emitAll_emitted]
    exact hcount ps
  · refine ⟨emitAll_keepsOperation ps s, Nat.le_of_lt hc, ?_, emitAll_phase ps s, .inr ⟨.truncatedInput, ?_⟩⟩
    · rw [raise_emitted, moveCursor_emitted, emitAll_emitted]
      exact hcount ps
    · simp [State.EnteredError, State.errorRow]
  · exact ⟨⟨rfl, rfl, rfl, rfl, rfl, rfl, rfl, rfl⟩, le_refl _, le_refl _, rfl, .inr ⟨_, raise_enteredError s _ _⟩⟩

/-- An EOR writes PHASE only, or enters an error at the cursor (R171). -/
theorem eorResult_frame (h : EorResult s t) :
    s.KeepsOperation t ∧ s.cursor ≤ t.cursor ∧ s.emitted ≤ t.emitted ∧
      ((s.KeepsStatus t ∧ s.KeepsTables t ∧ s.KeepsGridOutsideRun t) ∨
        ∃ e, s.EnteredError t e t.cursor ∧ t.phase = s.phase) := by
  rcases h with ⟨-, rfl⟩ | ⟨-, rfl⟩
  · exact ⟨⟨rfl, rfl, rfl, rfl, rfl, rfl, rfl, rfl⟩, le_refl _, le_refl _,
      .inl ⟨⟨rfl, rfl, rfl, rfl, rfl, rfl⟩, ⟨rfl, rfl, rfl⟩, fun _ _ _ => rfl⟩⟩
  · exact ⟨⟨rfl, rfl, rfl, rfl, rfl, rfl, rfl, rfl⟩, le_refl _, le_refl _, .inr ⟨_, raise_enteredError s _ _, rfl⟩⟩

end

/-- Settles O23, by the inversion of `exec`: the command is an EOR, or it emits pixels or enters an error. -/
theorem commandsKeepTheirFrame : Obligations.CommandsKeepTheirFrame := by
  intro i s t _ hexec
  rcases exec_cases hexec with ⟨high, rfl, heor⟩ | hcommand
  · obtain ⟨hoperation, hcursor, hemitted, hkeeps | herror⟩ := eorResult_frame heor
    · obtain ⟨hstatus, htables, hgrid⟩ := hkeeps
      exact ⟨hoperation, hcursor, hemitted, .inl ⟨hstatus, htables, hgrid, fun hne => absurd rfl (hne high)⟩⟩
    · exact ⟨hoperation, hcursor, hemitted, .inr herror⟩
  · obtain ⟨hoperation, hcursor, hemitted, hphase, hkeeps | ⟨e, herror⟩⟩ := commandResult_frame hcommand
    · obtain ⟨hstatus, htables, hgrid⟩ := hkeeps
      exact ⟨hoperation, hcursor, hemitted, .inl ⟨hstatus, htables, hgrid, fun _ => hphase⟩⟩
    · exact ⟨hoperation, hcursor, hemitted, .inr ⟨e, herror, hphase⟩⟩

/-- Settles O25: a command does what its pixel function yields, from the state's own cursor. -/
theorem commandsFollowTheirPixelFunction : Obligations.CommandsFollowTheirPixelFunction := by
  intro i s hi
  have hyields := exec_yields s.buf s.cursor i hi
  cases hpixels : commandPixels s.buf s.cursor i with
  | ok r =>
    rw [hpixels] at hyields
    exact hyields s rfl
  | error e =>
    rw [hpixels] at hyields
    obtain ⟨ps, hraised⟩ := hyields
    exact ⟨ps, hraised s rfl⟩

end Sys2Proof.Proofs
end

section
/-! PROOFS. The family 41_row_commands.md: the bytes of a line in the buffer, and the rows they make up (R109, R173). -/

namespace Sys2Proof.Proofs

open Sys2Proof.Machine

/-! ### Bytes in the buffer -/

section

variable {m : Memory} {a : Nat}

theorem holdsAt_cons {b : Byte} {bs : List Byte} (h : m.HoldsAt a (b :: bs)) :
    a < m.len ∧ m.byte a = b ∧ m.HoldsAt (a + 1) bs := by
  obtain ⟨hlen, hbytes⟩ := h
  rw [List.length_cons] at hlen
  refine ⟨by omega, hbytes 0 b rfl, by omega, fun k c hk => ?_⟩
  rw [Nat.add_assoc, Nat.add_comm 1]
  exact hbytes (k + 1) c hk

theorem holdsAt_append {bs cs : List Byte} (h : m.HoldsAt a (bs ++ cs)) :
    m.HoldsAt a bs ∧ m.HoldsAt (a + bs.length) cs := by
  induction bs generalizing a with
  | nil =>
    obtain ⟨hlen, -⟩ := id h
    exact ⟨⟨le_trans (Nat.le_add_right a _) hlen, fun k b hk => by simp at hk⟩, h⟩
  | cons b bs ih =>
    obtain ⟨hread, hbyte, hrest⟩ := holdsAt_cons h
    obtain ⟨⟨hlen, hbytes⟩, hlater⟩ := ih hrest
    refine ⟨⟨by rw [List.length_cons]; omega, fun k c hk => ?_⟩, ?_⟩
    · cases k with
      | zero => cases hk; exact hbyte
      | succ k => rw [← Nat.add_assoc, Nat.add_right_comm]; exact hbytes k c hk
    · rwa [List.length_cons, ← Nat.add_assoc, Nat.add_right_comm]

theorem bytesFrom_of_holdsAt {bs : List Byte} (h : m.HoldsAt a bs) : m.bytesFrom a bs.length = bs := by
  induction bs generalizing a with
  | nil => rfl
  | cons b bs ih =>
    obtain ⟨-, hbyte, hrest⟩ := holdsAt_cons h
    rw [List.length_cons, Memory.bytesFrom, hbyte, ih hrest]

/-! ### The pixel function on the operand bytes of a line -/

section

variable {bs idxs : List Byte} {b : Byte} {n : Nat}

theorem afterByte_of_holdsAt {α : Type} {k : Byte → Except RowError α} (h : m.HoldsAt a (b :: bs)) :
    afterByte m a k = k b := by
  obtain ⟨hread, hbyte, -⟩ := holdsAt_cons h
  rw [afterByte, if_pos hread, hbyte]

theorem afterPacked_short {α : Type} {k : Nat → Nat → Except RowError α} (hlow : 1 ≤ n) :
    afterPacked m a n k = k n a := if_neg (Nat.ne_of_gt hlow)

theorem afterPacked_of_holdsAt {α : Type} {k : Nat → Nat → Except RowError α} (hn : n ≤ 255)
    (h : m.HoldsAt a (countByte n :: bs)) : afterPacked m a 0 k = k n (a + 1) := by
  rw [afterPacked, if_pos rfl, afterByte_of_holdsAt h, toNat_countByte hn]

theorem indexRun_of_holdsAt (mk : Byte → Pixel) (hn : n = idxs.length) (h : m.HoldsAt a idxs) :
    indexRun m mk a n = .ok (idxs.map mk, a + idxs.length) := by
  obtain ⟨hlen, -⟩ := id h
  rw [hn, indexRun, if_pos (.inr hlen), bytesFrom_of_holdsAt h]

/-- The 12-bit count as the pixel function computes it. -/
theorem splitCount_sum (hn : n ≤ 4095) : 256 * (BitVec.ofNat 4 (n >>> 8)).toNat + (countByte n).toNat = n := by
  rw [← bigCount_toNat, toNat_splitCount hn]

end

/-- R109: the pixel function reads a line's bytes as the line says. -/
theorem commandPixels_of_holdsAt {l : AsmLine} (hwf : l.wellFormed = true) (hne : ∀ k, l ≠ .eor k)
    (h : m.HoldsAt a l.bytes) : commandPixels m a l.command = .ok (l.pixels, a + l.bytes.length) := by
  obtain ⟨-, -, hops⟩ := holdsAt_cons h
  cases l <;>
    simp only [AsmLine.wellFormed, decide_eq_true_eq] at hwf <;>
    simp only [AsmLine.operands] at hops <;>
    simp only [AsmLine.command, AsmLine.pixels, AsmLine.bytes, AsmLine.operands, commandPixels, List.length_cons,
      List.length_nil]
  case ldraw idxs =>
    rw [indexRun_of_holdsAt _ (toNat_ofNat_of_le hwf) hops, Nat.add_assoc, Nat.add_comm 1]
  case lskip n =>
    obtain ⟨hlow, hhigh⟩ := hwf
    rw [toNat_ofNat_of_le hhigh, afterPacked_short hlow]
    rfl
  case lskipX n => exact afterPacked_of_holdsAt hwf hops
  case bdraw idxs =>
    obtain ⟨-, -, hidxs⟩ := holdsAt_cons hops
    rw [afterByte_of_holdsAt hops, splitCount_sum hwf, indexRun_of_holdsAt _ rfl hidxs, Nat.add_assoc, Nat.add_assoc,
      Nat.add_comm 1, Nat.add_comm 1, Nat.add_assoc]
  case bskip n => rw [afterByte_of_holdsAt hops, splitCount_sum hwf]; rfl
  case player idxs =>
    obtain ⟨hlow, hhigh⟩ := hwf
    rw [toNat_ofNat_of_le hhigh, afterPacked_short hlow, indexRun_of_holdsAt _ rfl hops, Nat.add_assoc, Nat.add_comm 1]
  case playerX idxs =>
    obtain ⟨-, -, hidxs⟩ := holdsAt_cons hops
    refine (afterPacked_of_holdsAt hwf hops).trans ?_
    rw [indexRun_of_holdsAt _ rfl hidxs, Nat.add_assoc, Nat.add_assoc, Nat.add_comm 1, Nat.add_comm 1]
  case fill n idx =>
    obtain ⟨hlow, hhigh⟩ := hwf
    rw [toNat_ofNat_of_le hhigh, afterPacked_short hlow, afterByte_of_holdsAt hops]
    rfl
  case fillX n idx =>
    obtain ⟨-, -, hidx⟩ := holdsAt_cons hops
    exact (afterPacked_of_holdsAt hwf hops).trans (afterByte_of_holdsAt hidx)
  case pfill n idx =>
    obtain ⟨hlow, hhigh⟩ := hwf
    rw [toNat_ofNat_of_le hhigh, afterPacked_short hlow, afterByte_of_holdsAt hops]
    rfl
  case pfillX n idx =>
    obtain ⟨-, -, hidx⟩ := holdsAt_cons hops
    exact (afterPacked_of_holdsAt hwf hops).trans (afterByte_of_holdsAt hidx)
  case sfill n =>
    obtain ⟨hlow, hhigh⟩ := hwf
    rw [toNat_ofNat_of_le hhigh, afterPacked_short hlow]
    rfl
  case sfillX n => exact afterPacked_of_holdsAt hwf hops
  case sp1n n => rw [afterByte_of_holdsAt hops, toNat_countByte hwf]; rfl
  case sp2n n => rw [afterByte_of_holdsAt hops, toNat_countByte hwf]; rfl
  case eor k => exact absurd rfl (hne k)

theorem decode_of_holdsAt {l : AsmLine} (h : m.HoldsAt a l.bytes) :
    a < m.len ∧ decode (m.byte a) = .ok l.command := by
  obtain ⟨hread, hbyte, -⟩ := holdsAt_cons h
  exact ⟨hread, hbyte ▸ decode_encode l.command⟩

theorem command_ne_eor {l : AsmLine} (hne : ∀ k, l ≠ .eor k) (high : BitVec 4) : l.command ≠ .eor high := by
  cases l with
  | eor k => exact absurd rfl (hne k)
  | _ => exact Instr.noConfusion

end

/-- Settles O26: the pass decodes the line's command, whose pixel function reads the line's operands. -/
theorem assembledLineRunsAsWritten : Obligations.AssembledLineRunsAsWritten := by
  intro l s hwf hne hstatus hphase hmoves hcount hbytes
  obtain ⟨hread, hdecode⟩ := decode_of_holdsAt hbytes
  have hyields := exec_yields s.buf s.cursor l.command (command_ne_eor hne)
  rw [commandPixels_of_holdsAt hwf hne hbytes] at hyields
  rw [step_eq_cmdsPass hstatus hphase hmoves, cmdsPass_decoded (not_lt.mpr hcount) hread hdecode]
  exact hyields s rfl

/-! ### The pure loop over the lines of a row -/

section

variable {m : Memory} {expected : Int}

/-- The lines of a row, its EOR behind them, from a pass with `done` pixels on. -/
theorem rowLoop_of_lines (lines : List AsmLine) {k c passes : Nat} {done : List Pixel}
    (hlines : ∀ l ∈ lines, l.wellFormed = true ∧ ∀ j, l ≠ .eor j)
    (hbytes : m.HoldsAt c (assemble (lines ++ [.eor k])))
    (hexpected : (done.length : Int) + (lines.flatMap AsmLine.pixels).length = expected)
    (hpasses : m.len - c ≤ passes) :
    rowLoop m expected (passes + 1) c done =
      .ok (done ++ lines.flatMap AsmLine.pixels, c + (assemble lines).length) := by
  induction lines generalizing c passes done with
  | nil =>
    obtain ⟨hread, hdecode⟩ := decode_of_holdsAt (l := .eor k) hbytes
    have hexact : (done.length : Int) = expected := (add_zero _).symm.trans hexpected
    rw [rowLoop_eor (by omega) hread hdecode, if_pos hexact, List.flatMap_nil, List.append_nil]
    rfl
  | cons l lines ih =>
    obtain ⟨hline, hrest⟩ := holdsAt_append (bs := l.bytes) hbytes
    obtain ⟨hread, hdecode⟩ := decode_of_holdsAt hline
    obtain ⟨⟨hwf, hne⟩, hlines⟩ := List.forall_mem_cons.mp hlines
    have hlength : l.bytes.length = l.operands.length + 1 := rfl
    rw [List.flatMap_cons, List.length_append, Nat.cast_add, ← add_assoc] at hexpected
    rw [rowLoop_command (by omega) hread hdecode (command_ne_eor hne), commandPixels_of_holdsAt hwf hne hline,
      List.flatMap_cons, ← List.append_assoc, assemble, List.length_append, ← Nat.add_assoc]
    cases passes with
    | zero => omega
    | succ passes => exact ih hlines hrest (by rwa [List.length_append, Nat.cast_add]) (by dsimp only; omega)

/-- R147: the loop ends only at an EOR with the exact count. -/
theorem length_of_rowLoop {passes c final : Nat} {done ps : List Pixel}
    (h : rowLoop m expected passes c done = .ok (ps, final)) : (ps.length : Int) = expected := by
  induction passes generalizing c done with
  | zero => cases h
  | succ passes ih =>
    by_cases hcount : expected < (done.length : Int)
    · rw [rowLoop_overrun hcount] at h
      cases h
    by_cases hread : m.len ≤ c
    · rw [rowLoop_truncated hcount hread] at h
      cases h
    have hread := Nat.lt_of_not_le hread
    obtain ⟨i, hdecode, -⟩ := decode_readsBack (m.byte c)
    by_cases hi : ∀ high, i ≠ .eor high
    case pos =>
      rw [rowLoop_command hcount hread hdecode hi] at h
      cases hpixels : commandPixels m c i with
      | ok r =>
        rw [hpixels] at h
        exact ih h
      | error e =>
        rw [hpixels] at h
        cases h
    case neg =>
      obtain ⟨high, rfl⟩ : ∃ high, i = .eor high := by simpa using hi
      rw [rowLoop_eor hcount hread hdecode] at h
      split at h
      case isTrue hexact =>
        cases h
        exact hexact
      case isFalse => cases h

end

/-- Settles O54, by induction over the lines in the command loop. -/
theorem assembledRowDecodesToItsPixels : Obligations.AssembledRowDecodesToItsPixels := by
  intro m start width bound lines k hfull hlines _ hbytes hcount
  have hloop := rowLoop_of_lines lines (done := []) hlines hbytes ((Int.zero_add _).trans hcount)
    (le_refl (m.len - start))
  rw [decodeRow_interpreted hfull (by omega), hloop]
  rfl

/-- Settles O55: the command loop ends with exactly EXPECTED pixels, and the padding makes up the width. -/
theorem decodedRowHasWidthPixels : Obligations.DecodedRowHasWidthPixels := by
  intro m start width bound ps final hwidth hrow
  cases hfull : bound.full with
  | true =>
    rw [decodeRow_full hfull] at hrow
    cases hrow
    exact ⟨by rw [List.length_replicate]; omega, fun _ => rfl, fun h => (nomatch h)⟩
  | false =>
    by_cases hneg : width - bound.left.toNat - bound.right.toNat < 0
    · rw [decodeRow_overrun hfull hneg] at hrow
      cases hrow
    rw [decodeRow_interpreted hfull (not_lt.mp hneg)] at hrow
    cases hloop : rowLoop m (width - bound.left.toNat - bound.right.toNat) (m.len - start + 1) start [] with
    | error e =>
      rw [hloop] at hrow
      cases hrow
    | ok r =>
      obtain ⟨cs, address⟩ := r
      have hcount := length_of_rowLoop hloop
      rw [hloop] at hrow
      cases hrow
      refine ⟨?_, fun h => (nomatch h), fun _ => ⟨cs, rfl, by omega⟩⟩
      rw [List.length_append, List.length_append, List.length_replicate, List.length_replicate]
      dsimp only
      omega

end Sys2Proof.Proofs
end

section
/-! PROOFS. The family 40_table_lookups.md: each table phase as a whole against the pure lookup (R120, R126). -/

namespace Sys2Proof.Proofs

open Sys2Proof.Machine

section

variable {m : Memory} {d : Descriptor} {α : Type} {entry : Nat → α} {offset : BitVec 32} {stage : ErrStage}
  {get : State → Nat → α} {At : Nat → State → Prop}

/-- Where a walk of `count` entries ends: the entries are stored, or the first error is on record. -/
def WalkEnds (d : Descriptor) (get : State → Nat → α) (At : Nat → State → Prop) (s : State) (i count : Nat)
    (t : State) : Except FrameError (List α) → Prop
  | .ok vs => At d.heightInt.toNat t ∧ vs.length = count ∧ StoredFrom get s i vs t
  | .error e => EndsInError d e t

/-- A walk takes one turn for each entry; an error before the last one stops the block where it is. -/
theorem TableWalk.run (walk : TableWalk m d entry offset stage get At) (count : Nat) {i : Nat} {s : State}
    (hs : At i s) (hcount : i + count = d.heightInt.toNat) :
    ∃ t, Host.Core.run Sys2Proof.core count s = .next t ∧
      WalkEnds d get At s i count t (tableEntries entry m offset stage i count) := by
  induction count generalizing i s with
  | zero =>
    obtain rfl : i = d.heightInt.toNat := hcount
    exact ⟨s, rfl, hs, rfl, fun k v hk => by simp at hk, fun k _ => rfl⟩
  | succ count ih =>
    by_cases hfits : entryAddress offset i + 4 ≤ m.len
    · obtain ⟨u, hstep, hu, hput⟩ := walk.fits hs (by omega) hfits
      obtain ⟨t, hrun, hends⟩ := ih hu (by omega)
      refine ⟨t, (run_succ hstep count).trans hrun, ?_⟩
      rw [tableEntries_fits count hfits]
      cases hrest : tableEntries entry m offset stage (i + 1) count with
      | ok vs =>
        rw [hrest] at hends
        obtain ⟨hat, hlength, hstored⟩ := hends
        exact ⟨hat, congrArg (· + 1) hlength, hstored.cons hput⟩
      | error e =>
        rw [hrest] at hends
        exact hends
    · obtain ⟨t, hstep, ⟨herror, hdesc, hmoves⟩, hheld⟩ := walk.short hs (by omega) hfits
      rw [tableEntries_short count hfits]
      have hstopped : t.status ≠ .running := by
        rw [herror]
        decide
      exact ⟨t, (run_succ hstep count).trans (run_of_stopped hstopped hmoves count), ⟨herror, hdesc, hmoves⟩, hheld⟩

end

/-- Settles O33: the phase is a walk over the bounds table, one turn to an entry. -/
theorem boundsPhaseIsTheWholeTableLookup : Obligations.BoundsPhaseIsTheWholeTableLookup := by
  intro s hstatus hphase hmoves hidx hheight
  have hstart : AtBound s.buf s.desc 0 s :=
    (atEntry_of_lt (by omega)).mpr ⟨⟨hstatus, hphase, rfl, rfl, hmoves⟩, hidx⟩
  obtain ⟨t, hrun, hends⟩ := (bounds_walk s.buf s.desc).run _ hstart (Nat.zero_add _)
  refine ⟨t, hrun, ?_⟩
  cases hlookup : tableEntries boundOfWord s.buf s.desc.boundsTableOffset .bounds 0 s.desc.heightInt.toNat with
  | ok bs =>
    rw [hlookup] at hends
    obtain ⟨hat, hlength, hstored, -⟩ := hends
    obtain ⟨hin, hindex⟩ := atEntry_height.mp hat
    exact ⟨hin.running, hin.phase, hindex, hlength, fun r b hr => Nat.zero_add r ▸ hstored r b hr⟩
  | error e =>
    rw [hlookup] at hends
    obtain ⟨hended, herror⟩ := hends
    exact ⟨hended.status, herror⟩

/-- Settles O34: as for the bounds, the walk over the command table leading to row 0. -/
theorem cmdtabPhaseIsTheWholeTableLookup : Obligations.CmdtabPhaseIsTheWholeTableLookup := by
  intro s hstatus hphase hmoves hidx hheight
  have hstart : AtOffset s.buf s.desc s.boundAt 0 s :=
    ⟨(atEntry_of_lt (by omega)).mpr ⟨⟨hstatus, hphase, rfl, rfl, hmoves⟩, hidx⟩, fun _ => rfl⟩
  obtain ⟨t, hrun, hends⟩ := (offsets_walk s.buf s.desc s.boundAt).run _ hstart (Nat.zero_add _)
  refine ⟨t, hrun, ?_⟩
  cases hlookup : tableEntries (BitVec.ofNat 32) s.buf s.desc.cmdTableOffset .cmdtab 0 s.desc.heightInt.toNat with
  | ok vs =>
    rw [hlookup] at hends
    obtain ⟨⟨hat, -⟩, hlength, hstored, -⟩ := hends
    obtain ⟨hin, hrow⟩ := atEntry_height.mp hat
    exact ⟨hin.running, hin.phase, hrow, hlength, fun r v hr => Nat.zero_add r ▸ hstored r v hr⟩
  | error e =>
    rw [hlookup] at hends
    obtain ⟨hended, herror⟩ := hends
    exact ⟨hended.status, herror⟩

end Sys2Proof.Proofs
end

section
/-! PROOFS. What a turn of the block can do, said once (42_frame_assembler.md R207 to R214), and what follows for every
turn: its totality, its frame, and that it never reads the schedule. -/

namespace Sys2Proof.Proofs

open Sys2Proof.Machine

/-! ### The outcomes of each phase's step -/

/-- R208. -/
theorem stepCheck_cases (s : State) :
    stepCheck s = raise .invalidDimensions 0 s ∨
      badDimensions s.desc s.gridCap = false ∧
        (s.desc.heightInt = 0 ∧ stepCheck s = { s with status := .done } ∨
          s.desc.heightInt ≠ 0 ∧ stepCheck s = { s with idx := 0, phase := .bounds }) := by
  cases hbad : badDimensions s.desc s.gridCap with
  | true => exact .inl (stepCheck_bad hbad)
  | false =>
    by_cases hempty : s.desc.heightInt = 0
    · exact .inr ⟨rfl, .inl ⟨hempty, stepCheck_empty hbad hempty⟩⟩
    · exact .inr ⟨rfl, .inr ⟨hempty, stepCheck_rows hbad hempty⟩⟩

/-- R209. -/
theorem stepBounds_cases (s : State) :
    (∃ a, stepBounds s = raise .truncatedInput a s) ∨
      ∃ w, ((s.idx + 1 : Nat) : Int) = s.desc.heightInt ∧
          stepBounds s = { writeBound s.idx (boundOfWord w) s with idx := 0, phase := .cmdtab } ∨
        ((s.idx + 1 : Nat) : Int) ≠ s.desc.heightInt ∧
          stepBounds s = { writeBound s.idx (boundOfWord w) s with idx := s.idx + 1 } := by
  by_cases hfits : entryAddress s.desc.boundsTableOffset s.idx + 4 ≤ s.buf.len
  · refine .inr ⟨s.buf.littleEndian (entryAddress s.desc.boundsTableOffset s.idx) 4, ?_⟩
    rw [stepBounds_ok (boundEntry_ok hfits)]
    by_cases hlast : ((s.idx + 1 : Nat) : Int) = s.desc.heightInt
    · exact .inl ⟨hlast, if_pos hlast⟩
    · exact .inr ⟨hlast, if_neg hlast⟩
  · exact .inl ⟨_, stepBounds_error (boundEntry_truncated (Nat.lt_of_not_le hfits))⟩

/-- R210. -/
theorem stepCmdtab_cases (s : State) :
    (∃ a, stepCmdtab s = raise .truncatedInput a s) ∨
      ∃ v, ((s.idx + 1 : Nat) : Int) = s.desc.heightInt ∧
          stepCmdtab s = { writeOffset s.idx v s with idx := s.idx + 1, row := 0, phase := .rowStart } ∨
        ((s.idx + 1 : Nat) : Int) ≠ s.desc.heightInt ∧
          stepCmdtab s = { writeOffset s.idx v s with idx := s.idx + 1 } := by
  by_cases hfits : entryAddress s.desc.cmdTableOffset s.idx + 4 ≤ s.buf.len
  · refine .inr ⟨BitVec.ofNat 32 (s.buf.littleEndian (entryAddress s.desc.cmdTableOffset s.idx) 4), ?_⟩
    rw [stepCmdtab_ok (cmdEntry_ok hfits)]
    by_cases hlast : ((s.idx + 1 : Nat) : Int) = s.desc.heightInt
    · exact .inl ⟨hlast, if_pos hlast⟩
    · exact .inr ⟨hlast, if_neg hlast⟩
  · exact .inl ⟨_, stepCmdtab_error (cmdEntry_truncated (Nat.lt_of_not_le hfits))⟩

/-- What a row that is not fully transparent expects (R144). -/
def rowExpected (s : State) : Int :=
  s.desc.widthInt - (s.boundAt s.row).left.toNat - (s.boundAt s.row).right.toNat

/-- R211. -/
theorem stepRowStart_cases (s : State) :
    stepRowStart s = nextRow (transparentRow (s.offsetAt s.row).toNat s) ∨
      (s.boundAt s.row).full = false ∧
        (rowExpected s < 0 ∧
            stepRowStart s =
              raise .rowOverrun (s.offsetAt s.row).toNat (atRowStart (rowExpected s) (s.offsetAt s.row).toNat s) ∨
          0 ≤ rowExpected s ∧ stepRowStart s = rowOpened (rowExpected s) (s.offsetAt s.row).toNat s) := by
  cases hfull : (s.boundAt s.row).full with
  | true => exact .inl (stepRowStart_full hfull)
  | false =>
    refine .inr ⟨rfl, ?_⟩
    by_cases hneg : rowExpected s < 0
    · exact .inl ⟨hneg, stepRowStart_error hfull (rowEntry_overrun hneg)⟩
    · exact .inr ⟨not_lt.mp hneg, stepRowStart_ok hfull (rowEntry_ok (not_lt.mp hneg))⟩

/-- R145, R146, R212: a pass enters an error before its command, or runs it with EMITTED not above EXPECTED. -/
theorem cmdsPass_cases (s : State) :
    ∃ t, cmdsPass s = .next t ∧
      ((∃ e, t = raise e s.cursor s) ∨ (s.emitted : Int) ≤ s.expected ∧ (EorResult s t ∨ CommandResult s t)) := by
  by_cases hcount : s.expected < (s.emitted : Int)
  · exact ⟨_, cmdsPass_overrun hcount, .inl ⟨_, rfl⟩⟩
  by_cases hread : s.buf.len ≤ s.cursor
  · exact ⟨_, cmdsPass_truncated hcount hread, .inl ⟨_, rfl⟩⟩
  obtain ⟨i, hdecode, -⟩ := decode_readsBack (s.buf.byte s.cursor)
  obtain ⟨t, hexec, hresult⟩ := exec_result i s
  refine ⟨t, (cmdsPass_decoded hcount (Nat.lt_of_not_le hread) hdecode).trans hexec, .inr ⟨not_lt.mp hcount, ?_⟩⟩
  rcases hresult with ⟨-, -, heor⟩ | hcommand
  · exact .inl heor
  · exact .inr hcommand

/-! ### The block's step -/

/-- The step that the block takes, by STATUS and PHASE (R207). -/
inductive BlockResult (s : State) : State → Prop
  | stopped (hstatus : s.status ≠ .running) : BlockResult s s
  | check (hstatus : s.status = .running) (hphase : s.phase = .check) : BlockResult s (stepCheck s)
  | bounds (hstatus : s.status = .running) (hphase : s.phase = .bounds) : BlockResult s (stepBounds s)
  | cmdtab (hstatus : s.status = .running) (hphase : s.phase = .cmdtab) : BlockResult s (stepCmdtab s)
  | rowStart (hstatus : s.status = .running) (hphase : s.phase = .rowStart) : BlockResult s (stepRowStart s)
  | cmdsError (hstatus : s.status = .running) (hphase : s.phase = .cmds) (e : ErrCode) :
    BlockResult s (raise e s.cursor s)
  | eor {t : State} (hstatus : s.status = .running) (hphase : s.phase = .cmds) (h : EorResult s t) : BlockResult s t
  | command {t : State} (hstatus : s.status = .running) (hphase : s.phase = .cmds)
    (hcount : (s.emitted : Int) ≤ s.expected) (h : CommandResult s t) : BlockResult s t
  | rowEnd (hstatus : s.status = .running) (hphase : s.phase = .rowEnd) : BlockResult s (stepRowEnd s)

theorem blockStep_of_not_running {s : State} (h : s.status ≠ .running) : blockStep s = .next s := by
  unfold blockStep
  cases hs : s.status with
  | running => exact absurd hs h
  | idle => rfl
  | done => rfl
  | error => rfl

/-- The block's step is total, and of one of these shapes. -/
theorem blockStep_result (s : State) : ∃ t, blockStep s = .next t ∧ BlockResult s t := by
  by_cases hstatus : s.status = .running
  case neg => exact ⟨s, blockStep_of_not_running hstatus, .stopped hstatus⟩
  simp only [blockStep, hstatus]
  cases hphase : s.phase with
  | check => exact ⟨_, rfl, .check hstatus hphase⟩
  | bounds => exact ⟨_, rfl, .bounds hstatus hphase⟩
  | cmdtab => exact ⟨_, rfl, .cmdtab hstatus hphase⟩
  | rowStart => exact ⟨_, rfl, .rowStart hstatus hphase⟩
  | cmds =>
    obtain ⟨t, hpass, ⟨e, rfl⟩ | ⟨hcount, heor | hcommand⟩⟩ := cmdsPass_cases s
    · exact ⟨_, hpass, .cmdsError hstatus hphase e⟩
    · exact ⟨t, hpass, .eor hstatus hphase heor⟩
    · exact ⟨t, hpass, .command hstatus hphase hcount hcommand⟩
  | rowEnd => exact ⟨_, rfl, .rowEnd hstatus hphase⟩

/-- The inversion of the block's step. -/
theorem blockStep_cases {s t : State} (h : blockStep s = .next t) : BlockResult s t := by
  obtain ⟨u, hu, hresult⟩ := blockStep_result s
  cases h.symm.trans hu
  exact hresult

/-- The inversion of a turn: the block's step or the host's action, with the turn taken off the schedule. -/
theorem step_cases {s t : State} (h : step s = .next t) :
    (s.BlockTurn ∧ BlockResult { s with hostMoves := s.hostMoves.tail } t) ∨
      ∃ a rest, s.hostMoves = .act a :: rest ∧ hostAct a { s with hostMoves := rest } = .next t := by
  rcases turn_cases s with hturn | ⟨a, rest, hturn⟩
  · exact .inl ⟨hturn, blockStep_cases ((step_of_blockTurn hturn).symm.trans h)⟩
  · exact .inr ⟨a, rest, hturn, (step_of_hostTurn hturn).symm.trans h⟩

/-- What an action of the host does to the block (R22, R260, R263, R262, R266). -/
inductive HostResult (a : HostAction) (s : State) : State → Prop
  | accepted (ha : a = .start) (hstatus : s.status ≠ .running) : HostResult a s (acceptStart s)
  | reset (ha : a = .reset) : HostResult a s (hostReset s)
  | pending (d : Descriptor) : HostResult a s { s with pending := d }
  | bound (bytes : List Byte) : HostResult a s { s with buf := Memory.ofBytes bytes }
  | unchanged : HostResult a s s

/-- The inversion of the host's action. -/
theorem hostAct_cases {a : HostAction} {s t : State} (h : hostAct a s = .next t) : HostResult a s t := by
  cases a with
  | start =>
    cases h
    by_cases hstatus : s.status = .running
    · rw [hostStart_of_running hstatus]
      exact .unchanged
    · rw [hostStart_of_not_running hstatus]
      exact .accepted rfl hstatus
  | reset =>
    cases h
    exact .reset rfl
  | writePending d =>
    cases h
    exact .pending d
  | bindBuffer bytes =>
    change bindBuffer bytes s = .next t at h
    unfold bindBuffer at h
    split at h
    case isTrue => cases h
    case isFalse =>
      cases h
      exact .bound bytes
  | other =>
    cases h
    exact .unchanged

/-! ### Totality and frame of the block's turn -/

/-- Settles O46, by the totality of the block's step. -/
theorem theBlockAlwaysHasANextStep : Obligations.TheBlockAlwaysHasANextStep := by
  intro s hturn
  obtain ⟨t, hstep, -⟩ := blockStep_result { s with hostMoves := s.hostMoves.tail }
  exact ⟨t, (step_of_blockTurn hturn).trans hstep⟩

/-- Settles O40: a stopped block takes no step (log 8), so only the schedule changes. -/
theorem stoppedBlockKeepsItsState : Obligations.StoppedBlockKeepsItsState := fun s hstatus hturn =>
  (step_of_blockTurn hturn).trans (blockStep_of_not_running (s := { s with hostMoves := s.hostMoves.tail }) hstatus)

section

variable {s t : State}

theorem keepsInputs_of_keepsOperation (h : s.KeepsOperation t) : s.KeepsInputs t := by
  obtain ⟨hpending, hdesc, -, -, -, hbuf, hcap, hmoves⟩ := h
  exact ⟨hpending, hdesc, hbuf, hcap, hmoves⟩

/-- R62: no step of the block writes the descriptors, the buffer or the capacity. -/
theorem blockResult_keepsInputs (h : BlockResult s t) : s.KeepsInputs t := by
  cases h with
  | stopped => exact ⟨rfl, rfl, rfl, rfl, rfl⟩
  | check =>
    obtain heq | ⟨-, ⟨-, heq⟩ | ⟨-, heq⟩⟩ := stepCheck_cases s <;> exact heq ▸ ⟨rfl, rfl, rfl, rfl, rfl⟩
  | bounds =>
    obtain ⟨a, heq⟩ | ⟨w, ⟨-, heq⟩ | ⟨-, heq⟩⟩ := stepBounds_cases s <;> exact heq ▸ ⟨rfl, rfl, rfl, rfl, rfl⟩
  | cmdtab =>
    obtain ⟨a, heq⟩ | ⟨v, ⟨-, heq⟩ | ⟨-, heq⟩⟩ := stepCmdtab_cases s <;> exact heq ▸ ⟨rfl, rfl, rfl, rfl, rfl⟩
  | rowStart =>
    obtain heq | ⟨-, ⟨-, heq⟩ | ⟨-, heq⟩⟩ := stepRowStart_cases s
    · exact heq ▸ keepsInputs_nextRow (padFrom_keepsInputs 0 _ (atRowStart 0 _ s))
    · exact heq ▸ raise_keepsInputs (atRowStart _ _ s) _ _
    · exact heq ▸ padFrom_keepsInputs 0 _ (atRowStart _ _ s)
  | cmdsError _ _ e => exact raise_keepsInputs s e s.cursor
  | eor _ _ heor =>
    obtain ⟨hoperation, -⟩ := eorResult_frame heor
    exact keepsInputs_of_keepsOperation hoperation
  | command _ _ _ hcommand =>
    obtain ⟨hoperation, -⟩ := commandResult_frame hcommand
    exact keepsInputs_of_keepsOperation hoperation
  | rowEnd => exact keepsInputs_nextRow (padFrom_keepsInputs _ _ s)

end

/-- Settles O47: none of the fields is written in any phase. -/
theorem theBlockNeverWritesTheBuffer : Obligations.TheBlockNeverWritesTheBuffer := by
  intro s t hturn hstep
  rw [step_of_blockTurn hturn] at hstep
  obtain ⟨hpending, hdesc, hbuf, hcap, -⟩ := blockResult_keepsInputs (blockStep_cases hstep)
  exact ⟨hbuf, hpending, hdesc, hcap⟩

/-- Of the host's actions only an accepted START and a reset write DESC (R22, R263, R260). -/
theorem hostAct_desc {a : HostAction} {s t : State} (h : hostAct a s = .next t)
    (hstart : a = .start → s.status = .running) (hreset : a ≠ .reset) : t.desc = s.desc := by
  cases hostAct_cases h with
  | accepted ha hstatus => exact absurd (hstart ha) hstatus
  | reset ha => exact absurd ha hreset
  | pending d => rfl
  | bound bytes => rfl
  | unchanged => rfl

/-- Settles O44: the block writes no descriptor, and no other action of the host writes DESC. -/
theorem descChangesOnlyByStartOrReset : Obligations.DescChangesOnlyByStartOrReset := by
  intro s t hstep hstart hreset
  rcases step_cases hstep with ⟨-, hblock⟩ | ⟨a, rest, hturn, hact⟩
  · obtain ⟨-, hdesc, -⟩ := blockResult_keepsInputs hblock
    exact hdesc
  · exact hostAct_desc (s := { s with hostMoves := rest }) hact
      (fun ha => hstart rest (ha ▸ hturn)) (fun ha => hreset rest (ha ▸ hturn))

/-! ### Single steps -/

theorem blockStep_of_cmds {s : State} (hstatus : s.status = .running) (hphase : s.phase = .cmds) :
    blockStep s = cmdsPass s := by
  simp only [blockStep, hstatus, hphase]

/-- Settles O27: the block's step in CMDS is the pass, and the pass is the command. -/
theorem stepRunsTheDecodedCommand : Obligations.StepRunsTheDecodedCommand := by
  intro s i hstatus hphase hcount hread hdecode
  have hblock (moves : List HostMove) :
      blockStep { s with hostMoves := moves } = exec i { s with hostMoves := moves } :=
    (blockStep_of_cmds (s := { s with hostMoves := moves }) hstatus hphase).trans
      (cmdsPass_decoded (s := { s with hostMoves := moves }) (not_lt.mpr hcount) hread hdecode)
  refine ⟨fun hmoves => ?own, fun rest hmoves => ?scheduled⟩
  case own =>
    rw [step_eq_cmdsPass hstatus hphase hmoves]
    exact cmdsPass_decoded (not_lt.mpr hcount) hread hdecode
  case scheduled =>
    rw [step_of_blockTurn (.inr ⟨rest, hmoves⟩), hmoves]
    exact hblock rest

/-- R8, log 16: two's complement, as a test of the raw pattern. -/
theorem s32_eq (raw : BitVec 32) :
    s32 raw = if raw.toNat < 2147483648 then (raw.toNat : Int) else (raw.toNat : Int) - 4294967296 := by
  rw [s32, BitVec.toInt_eq_toNat_cond]
  split <;> split <;> omega

/-- R208, R235. -/
theorem badDimensions_iff (d : Descriptor) (cap : Option Nat) :
    badDimensions d cap = true ↔
      d.widthInt < 0 ∨ d.heightInt < 0 ∨ ∃ c : Nat, cap = some c ∧ (c : Int) < d.widthInt * d.heightInt := by
  cases cap with
  | none => simp [badDimensions, overCapacity]
  | some c => simp [badDimensions, overCapacity, or_assoc]

/-- Settles O29: the step is R208's case distinction, its fields read as the spec reads them. -/
theorem checkStepTestsTheDimensions : Obligations.CheckStepTestsTheDimensions := by
  intro s hstatus hphase hmoves signed w h bad
  have hw : s.desc.widthInt = w := s32_eq _
  have hh : s.desc.heightInt = h := s32_eq _
  have hbad : badDimensions s.desc s.gridCap = true ↔ bad := by rw [badDimensions_iff, hw, hh]
  rw [step_eq_stepCheck hstatus hphase hmoves]
  refine ⟨hw, hh, fun hb => ⟨?reject, ?stage, ?row⟩, fun hb hzero => ?empty, fun hb hrows => ?rows⟩
  case reject => rw [stepCheck_bad (hbad.mpr hb)]
  case stage => rw [raise_errStage, hphase]; rfl
  case row => rw [raise_errRow, State.errorRow, hphase]; rfl
  case empty => rw [stepCheck_empty (Bool.eq_false_iff.mpr (mt hbad.mp hb)) (hh.trans hzero)]
  case rows => rw [stepCheck_rows (Bool.eq_false_iff.mpr (mt hbad.mp hb)) (hh ▸ hrows)]

/-- Settles O38: both kinds of row start write the three registers before anything reads them. -/
theorem rowStartForgetsTheRowBefore : Obligations.RowStartForgetsTheRowBefore := fun _ _ _ _ => rfl

/-! ### The block never reads the schedule -/

/-- The state with another schedule. -/
def withMoves (moves : List HostMove) (s : State) : State := { s with hostMoves := moves }

section

variable (s : State) (moves : List HostMove)

theorem nextRow_withMoves : nextRow (withMoves moves s) = withMoves moves (nextRow s) := by
  unfold nextRow
  rw [apply_ite (withMoves moves)]
  rfl

theorem emitAll_withMoves (ps : List Pixel) :
    emitAll ps (withMoves moves s) = withMoves moves (emitAll ps s) := by
  induction ps generalizing s with
  | nil => rfl
  | cons p ps ih => exact ih (emit p s)

theorem padFrom_withMoves (c n : Nat) :
    padFrom c n (withMoves moves s) = withMoves moves (padFrom c n s) := by
  induction n generalizing c s with
  | zero => rfl
  | succ n ih => exact ih (writePixel s.row c .transparent s) (c + 1)

theorem stepCheck_withMoves : stepCheck (withMoves moves s) = withMoves moves (stepCheck s) := by
  unfold stepCheck
  rw [apply_ite (withMoves moves), apply_ite (withMoves moves)]
  rfl

theorem stepBounds_withMoves :
    stepBounds (withMoves moves s) = withMoves moves (stepBounds s) := by
  by_cases hfits : entryAddress s.desc.boundsTableOffset s.idx + 4 ≤ s.buf.len
  · rw [stepBounds_ok (boundEntry_ok hfits), stepBounds_ok (s := withMoves moves s) (boundEntry_ok hfits)]
    rw [apply_ite (withMoves moves)]
    rfl
  · have hshort := boundEntry_truncated (Nat.lt_of_not_le hfits)
    have hshort' := boundEntry_truncated (s := withMoves moves s) (Nat.lt_of_not_le hfits)
    rw [stepBounds_error hshort, stepBounds_error hshort']
    rfl

theorem stepCmdtab_withMoves :
    stepCmdtab (withMoves moves s) = withMoves moves (stepCmdtab s) := by
  by_cases hfits : entryAddress s.desc.cmdTableOffset s.idx + 4 ≤ s.buf.len
  · rw [stepCmdtab_ok (cmdEntry_ok hfits), stepCmdtab_ok (s := withMoves moves s) (cmdEntry_ok hfits)]
    rw [apply_ite (withMoves moves)]
    rfl
  · have hshort := cmdEntry_truncated (Nat.lt_of_not_le hfits)
    have hshort' := cmdEntry_truncated (s := withMoves moves s) (Nat.lt_of_not_le hfits)
    rw [stepCmdtab_error hshort, stepCmdtab_error hshort']
    rfl

theorem stepRowStart_withMoves :
    stepRowStart (withMoves moves s) = withMoves moves (stepRowStart s) := by
  cases hfull : (s.boundAt s.row).full with
  | true =>
    rw [stepRowStart_full hfull, stepRowStart_full (s := withMoves moves s) hfull,
      ← nextRow_withMoves]
    exact congrArg nextRow (padFrom_withMoves (atRowStart 0 (s.offsetAt s.row).toNat s) moves 0 _)
  | false =>
    by_cases hneg : rowExpected s < 0
    · rw [stepRowStart_error hfull (rowEntry_overrun hneg),
        stepRowStart_error (s := withMoves moves s) hfull (rowEntry_overrun hneg)]
      rfl
    · have hnonneg := not_lt.mp hneg
      rw [stepRowStart_ok hfull (rowEntry_ok hnonneg),
        stepRowStart_ok (s := withMoves moves s) hfull (rowEntry_ok hnonneg)]
      exact congrArg (fun t : State => { t with phase := .cmds })
        (padFrom_withMoves (atRowStart _ (s.offsetAt s.row).toNat s) moves 0 _)

theorem stepRowEnd_withMoves :
    stepRowEnd (withMoves moves s) = withMoves moves (stepRowEnd s) :=
  (congrArg nextRow (padFrom_withMoves s moves _ _)).trans (nextRow_withMoves _ moves)

/-- An EOR reads the counts only, any other command the buffer only. -/
theorem exec_withMoves (i : Instr) :
    exec i (withMoves moves s) = mapNext (withMoves moves) (exec i s) := by
  by_cases hi : ∀ high, i ≠ .eor high
  case neg =>
    obtain ⟨high, rfl⟩ : ∃ high, i = .eor high := by simpa using hi
    by_cases hexact : (s.emitted : Int) = s.expected
    · rw [exec_eor_of_exact hexact, exec_eor_of_exact (s := withMoves moves s) hexact]
      rfl
    · rw [exec_eor_of_not_exact hexact, exec_eor_of_not_exact (s := withMoves moves s) hexact]
      rfl
  case pos =>
    have hyields := exec_yields s.buf s.cursor i hi
    cases hpixels : commandPixels s.buf s.cursor i with
    | ok r =>
      rw [hpixels] at hyields
      refine (hyields (withMoves moves s) rfl).trans (Eq.trans ?_ (congrArg _ (hyields s rfl).symm))
      rw [emitAll_withMoves]
      rfl
    | error e =>
      rw [hpixels] at hyields
      obtain ⟨ps, hyields⟩ := hyields
      refine (hyields (withMoves moves s) rfl).trans (Eq.trans ?_ (congrArg _ (hyields s rfl).symm))
      rw [emitAll_withMoves]
      rfl

theorem cmdsPass_withMoves :
    cmdsPass (withMoves moves s) = mapNext (withMoves moves) (cmdsPass s) := by
  by_cases hcount : s.expected < (s.emitted : Int)
  · rw [cmdsPass_overrun hcount, cmdsPass_overrun (s := withMoves moves s) hcount]
    rfl
  by_cases hread : s.buf.len ≤ s.cursor
  · rw [cmdsPass_truncated hcount hread, cmdsPass_truncated (s := withMoves moves s) hcount hread]
    rfl
  · obtain ⟨i, hdecode, -⟩ := decode_readsBack (s.buf.byte s.cursor)
    have hread := Nat.lt_of_not_le hread
    rw [cmdsPass_decoded hcount hread hdecode,
      cmdsPass_decoded (s := withMoves moves s) hcount hread hdecode, exec_withMoves]

theorem blockStep_withMoves :
    blockStep (withMoves moves s) = mapNext (withMoves moves) (blockStep s) := by
  have hstatus : (withMoves moves s).status = s.status := rfl
  have hphase : (withMoves moves s).phase = s.phase := rfl
  unfold blockStep
  rw [hstatus, hphase]
  cases s.status with
  | running =>
    cases s.phase with
    | check => exact congrArg _ (stepCheck_withMoves s moves)
    | bounds => exact congrArg _ (stepBounds_withMoves s moves)
    | cmdtab => exact congrArg _ (stepCmdtab_withMoves s moves)
    | rowStart => exact congrArg _ (stepRowStart_withMoves s moves)
    | cmds => exact cmdsPass_withMoves s moves
    | rowEnd => exact congrArg _ (stepRowEnd_withMoves s moves)
  | idle => rfl
  | done => rfl
  | error => rfl

end

/-- Settles O58: the block's step commutes with a change of the schedule, so with the turn taken off or emptied. -/
theorem scheduledTurnIsTheBlocksTurn : Obligations.ScheduledTurnIsTheBlocksTurn := by
  intro s rest hmoves
  have hempty : step { s with hostMoves := [] } = blockStep { s with hostMoves := [] } := rfl
  rw [step_of_blockTurn (.inr ⟨rest, hmoves⟩), hmoves, hempty]
  exact blockStep_withMoves { s with hostMoves := [] } rest

end Sys2Proof.Proofs
end

section
/-! PROOFS. The pixel words (10_state.md section 6), error entry (60_exceptions.md section 2), and the host's
actions and reads (70_reset_and_hazards.md). -/

namespace Sys2Proof.Proofs

open Sys2Proof.Machine

/-! ### Pixel words (R50, R51) -/

theorem word_toNat (p : Pixel) : p.word.toNat = 256 * p.kind.toNat + p.index.toNat :=
  toNat_append_eq_mul_add p.kind p.index

theorem word_kind (p : Pixel) : p.word.extractLsb' 8 8 = p.kind := BitVec.extractLsb'_append_eq_left

theorem word_index (p : Pixel) : p.word.extractLsb' 0 8 = p.index := BitVec.extractLsb'_append_eq_right

/-- The kind code chooses the kind, and a kind with an index takes it from the word. -/
theorem ofWord_word (p : Pixel) : Pixel.ofWord p.word = some p := by
  unfold Pixel.ofWord
  rw [word_kind, word_index]
  cases p <;> rfl

/-- Settles O59: the word is the kind code and the index side by side. -/
theorem pixelWordsHoldKindAndIndex : Obligations.PixelWordsHoldKindAndIndex := by
  refine ⟨fun idx => ⟨?palette, rfl, rfl, ?player, rfl, rfl, rfl, ?playerV4⟩,
    fun p => ⟨word_kind p, word_index p, ?kind, ofWord_word p⟩⟩
  case palette => exact (word_toNat (.palette idx)).trans (Nat.zero_add _)
  case player => exact word_toNat (.player idx)
  case playerV4 => exact word_toNat (.playerV4 idx)
  case kind => cases p <;> exact Nat.le_of_ble_eq_true rfl

/-! ### Error entry (R236, R237) -/

/-- Settles O39: the error registers are written, the interpreter's are not, and no store element is left written. -/
theorem errorEntryRecordsTheError : Obligations.ErrorEntryRecordsTheError := by
  intro e a s t
  refine ⟨raise_enteredError s e a, fun hphase => ?check, raise_record_of_bounds e a, raise_record_of_cmdtab e a,
    fun hphase => ?row, rfl, rfl, rfl, ⟨rfl, rfl, rfl, rfl, rfl, rfl, rfl, rfl⟩, fun _ => rfl, fun _ => rfl,
    fun _ _ => rfl⟩
  case check =>
    rw [raise_errStage, raise_errRow, State.errorRow, hphase]
    exact ⟨rfl, rfl⟩
  case row =>
    rw [raise_errStage, raise_errRow, State.errorRow]
    rcases hphase with hphase | hphase <;>
      · rw [hphase]
        exact ⟨rfl, rfl⟩

/-! ### Binding a buffer (R262, R264) -/

section

variable {s : State} {bytes : List Byte} {rest : List HostMove}

theorem byte_ofBytes_of_getElem? {k : Nat} {b : Byte} (h : bytes[k]? = some b) : (Memory.ofBytes bytes).byte k = b := by
  rw [Memory.byte_ofBytes, List.getD_eq_getElem?_getD, h, Option.getD_some]

theorem bindBuffer_of_equal (h : Memory.ofBytes bytes = s.buf) : bindBuffer bytes s = .next s := by
  rw [bindBuffer, if_neg (fun ⟨_, hchange⟩ => hchange h), h]

theorem bindBuffer_of_change (hstatus : s.status = .running) (h : Memory.ofBytes bytes ≠ s.buf) :
    bindBuffer bytes s = .refused .bufferChangedWhileRunning := if_pos ⟨hstatus, h⟩

theorem step_bindBuffer (hturn : s.hostMoves = .act (.bindBuffer bytes) :: rest) :
    step s = bindBuffer bytes { s with hostMoves := rest } := step_of_hostTurn hturn

/-- Of the host's actions only the binding of another buffer while RUNNING is refused (R264). -/
theorem hostAct_refused {a : HostAction} {why : Refusal} (h : hostAct a s = .refused why) :
    why = .bufferChangedWhileRunning ∧
      ∃ bytes, a = .bindBuffer bytes ∧ s.status = .running ∧ Memory.ofBytes bytes ≠ s.buf := by
  cases a with
  | start => cases h
  | reset => cases h
  | writePending d => cases h
  | other => cases h
  | bindBuffer bytes =>
    change bindBuffer bytes s = .refused why at h
    unfold bindBuffer at h
    split at h
    case isTrue hchange =>
      obtain ⟨hstatus, hbuf⟩ := hchange
      cases h
      exact ⟨rfl, bytes, rfl, hstatus, hbuf⟩
    case isFalse => cases h

end

/-- Settles O7: the bound buffer is `Memory.ofBytes`, canonical by its making. -/
theorem boundBufferHoldsItsBytes : Obligations.BoundBufferHoldsItsBytes := by
  intro s bytes rest hturn hstatus
  have hstep := (step_bindBuffer hturn).trans
    (bindBuffer_of_not_running (s := { s with hostMoves := rest }) hstatus bytes)
  exact ⟨Memory.ofBytes bytes, hstep, Memory.wf_ofBytes bytes, Memory.ofBytes_len bytes,
    fun _ _ => byte_ofBytes_of_getElem?⟩

/-- Settles O45: the block's turn always has a next state, so a refusal is the host's. -/
theorem bufferChangeWhileRunningIsRefused : Obligations.BufferChangeWhileRunningIsRefused := by
  refine ⟨fun s bytes rest hturn hstatus => ⟨fun hchange => ?change, fun hequal => ?equal⟩, fun s why hrefused => ?only⟩
  case change =>
    exact (step_bindBuffer hturn).trans (bindBuffer_of_change (s := { s with hostMoves := rest }) hstatus hchange)
  case equal =>
    exact (step_bindBuffer hturn).trans (bindBuffer_of_equal (s := { s with hostMoves := rest }) hequal)
  case only =>
    rcases turn_cases s with hturn | ⟨a, rest, hturn⟩
    · obtain ⟨t, hnext⟩ := theBlockAlwaysHasANextStep s hturn
      cases hnext.symm.trans hrefused
    · obtain ⟨hwhy, bytes, rfl, hstatus, hchange⟩ := hostAct_refused ((step_of_hostTurn hturn).symm.trans hrefused)
      exact ⟨hwhy, bytes, rest, hturn, hstatus, hchange⟩

/-! ### Reset, the pending copy, and reads (R53, R22, R265) -/

/-- Settles O42: a reset gives the block's fields their values of `State.reset`, and the host keeps its own. -/
theorem resetGivesTheSpecifiedValues : Obligations.ResetGivesTheSpecifiedValues := by
  refine ⟨?atReset, fun s rest hturn => ⟨_, step_reset hturn, ?afterReset, rfl, rfl, rfl⟩⟩
  case atReset => exact ⟨rfl, rfl, rfl, rfl, rfl, rfl, rfl, rfl, rfl, rfl, rfl, rfl⟩
  case afterReset => exact ⟨rfl, rfl, rfl, rfl, rfl, rfl, rfl, rfl, rfl, rfl, rfl, rfl⟩

/-- R22: the write of the pending copy is one turn of the schedule. -/
theorem step_writePending {s : State} {d : Descriptor} {rest : List HostMove}
    (hturn : s.hostMoves = .act (.writePending d) :: rest) :
    step s = .next { s with pending := d, hostMoves := rest } := step_of_hostTurn hturn

/-- Settles O57: what START latches is what the write before it left in the pending copy. -/
theorem hostWritesThePendingCopyAndNothingElse : Obligations.HostWritesThePendingCopyAndNothingElse := by
  refine ⟨fun s d rest => step_writePending, fun s d rest hstatus hturn => ?latched, fun s rest hturn => ?other⟩
  case latched =>
    have hstart : step { s with pending := d, hostMoves := .act .start :: rest } =
        .next (acceptStart { s with pending := d, hostMoves := rest }) :=
      (step_start rfl).trans
        (congrArg _ (hostStart_of_not_running (s := { s with pending := d, hostMoves := rest }) hstatus))
    exact ⟨_, (run_succ (step_writePending hturn) 1).trans (run_succ hstart 0), rfl, rfl, rfl, rfl⟩
  case other => exact step_of_hostTurn hturn

/-- Settles O48: each read tests STATUS, and the codes are the encodings of R40 to R42. -/
theorem storesAreDefinedForTheHostAtDoneOnly : Obligations.StoresAreDefinedForTheHostAtDoneOnly := by
  intro nth s r c
  refine ⟨fun hdone => ⟨if_pos hdone, if_pos hdone, if_pos hdone⟩, fun hnot => ⟨if_neg hnot, if_neg hnot, if_neg hnot⟩,
    ?status, ?code, ?stage, rfl, rfl, rfl⟩
  case status => exact ⟨congrArg Status.bits, congrArg Status.bits, congrArg Status.bits, congrArg Status.bits⟩
  case code =>
    exact ⟨congrArg ErrCode.bits, congrArg ErrCode.bits, congrArg ErrCode.bits, congrArg ErrCode.bits,
      congrArg ErrCode.bits, congrArg ErrCode.bits⟩
  case stage =>
    exact ⟨congrArg ErrStage.bits, congrArg ErrStage.bits, congrArg ErrStage.bits, congrArg ErrStage.bits⟩

end Sys2Proof.Proofs
end

section
/-! PROOFS. Invariants of the stores (10_state.md section 5): what the operations that write buffer and stores keep,
every step keeps. -/

namespace Sys2Proof.Proofs

open Sys2Proof.Machine

/-! ### A property of buffer and stores that every write of them keeps -/

/-- `P` is about the buffer and the stores only, is kept where the stores are emptied, where a buffer is bound, and by
every kind of write that the block makes to a store. -/
structure StoreInvariant (P : State → Prop) : Prop where
  congr : ∀ {s t : State}, P s → t.buf = s.buf → t.boundsOut = s.boundsOut → t.cmdoffOut = s.cmdoffOut →
    t.grid = s.grid → P t
  drop : ∀ {s t : State}, P s → t.buf = s.buf → t.boundsOut = [] → t.cmdoffOut = [] → t.grid = [] → P t
  bind : ∀ {s : State} (bytes : List Byte), P s → P { s with buf := Memory.ofBytes bytes }
  bound : ∀ {s : State} (r w : Nat), P s → P (writeBound r (boundOfWord w) s)
  offset : ∀ {s : State} (r : Nat) (v : BitVec 32), P s → P (writeOffset r v s)
  pixel : ∀ {s : State} (r c : Nat) {p : Pixel}, p.isEmitted = true → P s → P (writePixel r c p s)

section

variable {P : State → Prop} {s t : State}

theorem StoreInvariant.raise (hP : StoreInvariant P) (h : P s) (e : ErrCode) (a : Nat) :
    P (Machine.raise e a s) := hP.drop h rfl rfl rfl rfl

/-- R142: an emitted pixel is written or only counted. -/
theorem StoreInvariant.emit (hP : StoreInvariant P) (h : P s) {p : Pixel} (hp : p.isEmitted = true) :
    P (Machine.emit p s) := by
  by_cases hshort : (s.emitted : Int) < s.expected
  · exact hP.congr (hP.pixel s.row ((s.boundAt s.row).left.toNat + s.emitted) hp h) rfl rfl rfl (if_pos hshort)
  · exact hP.congr h rfl rfl rfl (if_neg hshort)

theorem StoreInvariant.emitAll (hP : StoreInvariant P) {ps : List Pixel} (hps : SixKinds ps) (h : P s) :
    P (Machine.emitAll ps s) := by
  induction ps generalizing s with
  | nil => exact h
  | cons p ps ih =>
    obtain ⟨hp, hps⟩ := List.forall_mem_cons.mp hps
    exact ih hps (hP.emit h hp)

theorem StoreInvariant.padFrom (hP : StoreInvariant P) (c n : Nat) (h : P s) : P (Machine.padFrom c n s) := by
  induction n generalizing c s with
  | zero => exact h
  | succ n ih => exact ih (c + 1) (hP.pixel s.row c rfl h)

theorem StoreInvariant.atRowStart (hP : StoreInvariant P) (expected : Int) (start : Nat) (h : P s) :
    P (atRowStart expected start s) := hP.congr h rfl rfl rfl rfl

theorem StoreInvariant.nextRow (hP : StoreInvariant P) (h : P s) : P (Machine.nextRow s) :=
  hP.congr h (nextRow_buf s) (nextRow_boundsOut s) (nextRow_cmdoffOut s) (nextRow_grid s)

theorem StoreInvariant.commandResult (hP : StoreInvariant P) (h : P s) (hresult : CommandResult s t) : P t := by
  have hemitted {ps : List Pixel} (hps : SixKinds ps) (c : Nat) : P (moveCursor c (Machine.emitAll ps s)) :=
    hP.congr (hP.emitAll hps h) rfl rfl rfl rfl
  rcases hresult with ⟨ps, c, -, hps, -, rfl⟩ | ⟨ps, c, -, hps, -, -, rfl⟩ | rfl
  · exact hemitted hps c
  · exact hP.raise (hemitted hps c) _ _
  · exact hP.raise h _ _

theorem StoreInvariant.blockResult (hP : StoreInvariant P) (h : P s) (hresult : BlockResult s t) : P t := by
  cases hresult with
  | stopped => exact h
  | check =>
    obtain heq | ⟨-, ⟨-, heq⟩ | ⟨-, heq⟩⟩ := stepCheck_cases s
    · exact heq ▸ hP.raise h _ _
    · exact heq ▸ hP.congr h rfl rfl rfl rfl
    · exact heq ▸ hP.congr h rfl rfl rfl rfl
  | bounds =>
    obtain ⟨a, heq⟩ | ⟨w, ⟨-, heq⟩ | ⟨-, heq⟩⟩ := stepBounds_cases s
    · exact heq ▸ hP.raise h _ _
    · exact heq ▸ hP.congr (hP.bound s.idx w h) rfl rfl rfl rfl
    · exact heq ▸ hP.congr (hP.bound s.idx w h) rfl rfl rfl rfl
  | cmdtab =>
    obtain ⟨a, heq⟩ | ⟨v, ⟨-, heq⟩ | ⟨-, heq⟩⟩ := stepCmdtab_cases s
    · exact heq ▸ hP.raise h _ _
    · exact heq ▸ hP.congr (hP.offset s.idx v h) rfl rfl rfl rfl
    · exact heq ▸ hP.congr (hP.offset s.idx v h) rfl rfl rfl rfl
  | rowStart =>
    obtain heq | ⟨-, ⟨-, heq⟩ | ⟨-, heq⟩⟩ := stepRowStart_cases s
    · exact heq ▸ hP.nextRow (hP.padFrom 0 _ (hP.atRowStart 0 _ h))
    · exact heq ▸ hP.raise (hP.atRowStart _ _ h) _ _
    · exact heq ▸ hP.congr (hP.padFrom 0 _ (hP.atRowStart _ _ h)) rfl rfl rfl rfl
  | cmdsError _ _ e => exact hP.raise h _ _
  | eor _ _ heor =>
    rcases heor with ⟨-, rfl⟩ | ⟨-, rfl⟩
    · exact hP.congr h rfl rfl rfl rfl
    · exact hP.raise h _ _
  | command _ _ _ hcommand => exact hP.commandResult h hcommand
  | rowEnd => exact hP.nextRow (hP.padFrom _ _ h)

theorem StoreInvariant.hostAct (hP : StoreInvariant P) (h : P s) {a : HostAction}
    (hact : Machine.hostAct a s = .next t) : P t := by
  cases hostAct_cases hact with
  | accepted => exact hP.drop h rfl rfl rfl rfl
  | reset => exact hP.drop h rfl rfl rfl rfl
  | pending d => exact hP.congr h rfl rfl rfl rfl
  | bound bytes => exact hP.bind bytes h
  | unchanged => exact h

/-- Every step of block and host keeps a store invariant, from every state. -/
theorem StoreInvariant.step (hP : StoreInvariant P) (h : P s) (hstep : Machine.step s = .next t) : P t := by
  rcases step_cases hstep with ⟨-, hblock⟩ | ⟨a, rest, -, hact⟩
  · exact hP.blockResult (s := { s with hostMoves := s.hostMoves.tail }) (hP.congr h rfl rfl rfl rfl) hblock
  · exact hP.hostAct (s := { s with hostMoves := rest }) (hP.congr h rfl rfl rfl rfl) hact

end

/-! ### The canonical form -/

theorem put_ne_nil {α : Type} (a : Nat) (v : α) (l : List (Nat × α)) : Cells.put a v l ≠ [] := by
  cases l with
  | nil => exact List.cons_ne_nil _ _
  | cons x rest =>
    unfold Cells.put
    split
    · exact List.cons_ne_nil _ _
    · split <;> exact List.cons_ne_nil _ _

/-- The columns of a row of the grid, none where the row is not listed. -/
theorem rising_columns {g : List (Nat × List (Nat × BitVec 16))} (hg : ∀ x ∈ g, Cells.Rising x.2 ∧ x.2 ≠ [])
    (r : Nat) : Cells.Rising ((Cells.get g r).getD []) := by
  cases hr : Cells.get g r with
  | none => exact List.Pairwise.nil
  | some cols =>
    obtain ⟨hrising, -⟩ := hg _ (Cells.mem_of_get hr)
    exact hrising

theorem canonical_storeInvariant : StoreInvariant State.Canonical where
  congr := by
    rintro s t ⟨hbuf, hbounds, hoffsets, hgrid, hrows⟩ heqBuf heqBounds heqOffsets heqGrid
    exact ⟨heqBuf ▸ hbuf, heqBounds ▸ hbounds, heqOffsets ▸ hoffsets, heqGrid ▸ hgrid, heqGrid ▸ hrows⟩
  drop := by
    rintro s t ⟨hbuf, -⟩ heqBuf heqBounds heqOffsets heqGrid
    exact ⟨heqBuf ▸ hbuf, heqBounds ▸ .nil, heqOffsets ▸ .nil, heqGrid ▸ .nil, heqGrid ▸ fun x hx => nomatch hx⟩
  bind := fun bytes ⟨_, hstores⟩ => ⟨Memory.wf_ofBytes bytes, hstores⟩
  bound := fun r w ⟨hbuf, hbounds, hrest⟩ => ⟨hbuf, Cells.rising_put r _ hbounds, hrest⟩
  offset := fun r v ⟨hbuf, hbounds, hoffsets, hrest⟩ => ⟨hbuf, hbounds, Cells.rising_put r v hoffsets, hrest⟩
  pixel := by
    rintro s r c p - ⟨hbuf, hbounds, hoffsets, hgrid, hrows⟩
    refine ⟨hbuf, hbounds, hoffsets, Cells.rising_put r _ hgrid, fun x hx => ?_⟩
    rcases Cells.mem_put hx with rfl | hx
    · exact ⟨Cells.rising_put c _ (rising_columns hrows r), put_ne_nil c _ _⟩
    · exact hrows x hx

/-- Settles O51: the canonical form is a store invariant. -/
theorem stepKeepsTheCanonicalForm : Obligations.StepKeepsTheCanonicalForm := fun _ _ =>
  canonical_storeInvariant.step

/-! ### The six kinds of pixel word -/

theorem pixel?_of_grid_nil {s : State} (h : s.grid = []) (r c : Nat) : s.pixel? r c = none := by
  rw [State.pixel?, h]
  rfl

theorem holdsSixKinds_of_grid_nil {s : State} (h : s.grid = []) : s.HoldsSixKinds := by
  intro r c w hw
  rw [pixel?_of_grid_nil h] at hw
  cases hw

theorem sixKinds_storeInvariant : StoreInvariant State.HoldsSixKinds where
  congr := fun h _ _ _ hgrid r c w hw => h r c w ((pixel?_congr hgrid r c).symm.trans hw)
  drop := fun _ _ _ _ hgrid => holdsSixKinds_of_grid_nil hgrid
  bind := fun _ h => h
  bound := fun _ _ h => h
  offset := fun _ _ h => h
  pixel := by
    intro s r c p hp h r' c' w hw
    rw [writePixel_pixel?] at hw
    split at hw
    case isTrue => exact ⟨p, hp, Option.some.inj hw⟩
    case isFalse => exact h r' c' w hw

/-- Settles O60: the commands and the padding write pixels of the six kinds only. -/
theorem onlyTheSixKindsAreWritten : Obligations.OnlyTheSixKindsAreWritten :=
  ⟨fun _ _ => sixKinds_storeInvariant.step, holdsSixKinds_of_grid_nil rfl⟩

/-! ### `FULL` implies `LEFT` and `RIGHT` 0 (R46) -/

theorem boundOfWord_normal (w : Nat) (h : (boundOfWord w).full = true) :
    (boundOfWord w).left = 0#16 ∧ (boundOfWord w).right = 0#16 := by
  unfold boundOfWord classify at h ⊢
  split at h
  case isTrue hsentinel => rw [if_pos hsentinel]; exact ⟨rfl, rfl⟩
  case isFalse => cases h

theorem boundsNormal_storeInvariant : StoreInvariant State.BoundsNormal where
  congr := fun h _ hbounds _ _ x hx => h x (hbounds ▸ hx)
  drop := fun _ _ hbounds _ _ x hx => nomatch (hbounds ▸ hx : x ∈ [])
  bind := fun _ h => h
  bound := by
    intro s r w h x hx
    rcases Cells.mem_put hx with rfl | hx
    · exact boundOfWord_normal w
    · exact h x hx
  offset := fun _ _ h => h
  pixel := fun _ _ _ _ h => h

end Sys2Proof.Proofs
end

section
/-! PROOFS. The invariant of the block (10_state.md section 3, 42_frame_assembler.md section 2) and that a pixel is
written once in an operation (41_row_commands.md section 4). -/

namespace Sys2Proof.Proofs

open Sys2Proof.Machine

/-! ### How far the grid is written -/

section

variable {s t : State} {row first : Nat} {ps : List Pixel}

theorem gridTo_of_grid_nil (h : s.grid = []) : s.GridTo 0 0 := by
  intro r c
  rw [pixel?_of_grid_nil h]
  simp

theorem gridTo_congr (hgrid : t.grid = s.grid) (hdesc : t.desc = s.desc) (h : s.GridTo row first) :
    t.GridTo row first := by
  intro r c
  rw [pixel?_congr hgrid, hdesc]
  exact h r c

theorem pixel?_eq_none_of_gridTo (h : s.GridTo row first) {c : Nat} (hc : first ≤ c) : s.pixel? row c = none := by
  rw [← Option.not_isSome_iff_eq_none, h row c]
  omega

/-- A run of pixels that starts where the written columns end moves that end on by its length. -/
theorem gridTo_of_columnsWritten (h : s.GridTo row first) (hdesc : t.desc = s.desc)
    (hwritten : ColumnsWritten row first ps s t) : t.GridTo row (first + ps.length) := by
  intro r c
  rw [hwritten r c, hdesc]
  split
  case isTrue hin =>
    obtain ⟨rfl, hfirst⟩ := hin
    rw [pixel?_eq_none_of_gridTo h hfirst, Option.or_none, Option.isSome_map, isSome_getElem?]
    omega
  case isFalse hout =>
    rw [h r c]
    omega

/-- R214: where the last column of a row is written, the row is done. -/
theorem gridTo_succ (h : s.GridTo row s.desc.widthInt.toNat) : s.GridTo (row + 1) 0 := by
  intro r c
  rw [h r c]
  omega

/-- What a run writes was not written before it. -/
theorem pixel?_kept_of_columnsWritten (h : s.GridTo row first) (hwritten : ColumnsWritten row first ps s t) {r c : Nat}
    {w : BitVec 16} (hw : s.pixel? r c = some w) : t.pixel? r c = some w := by
  rw [hwritten r c]
  split
  case isTrue hin =>
    obtain ⟨rfl, hfirst⟩ := hin
    rw [pixel?_eq_none_of_gridTo h hfirst] at hw
    cases hw
  case isFalse => exact hw

/-- R142: of a run that starts within EXPECTED the pixels short of EXPECTED are stored. -/
theorem emitAll_written_take (ps : List Pixel) (h : (s.emitted : Int) ≤ s.expected) :
    ColumnsWritten s.row ((s.boundAt s.row).left.toNat + s.emitted) (ps.take (s.expected.toNat - s.emitted)) s
      (emitAll ps s) := by
  intro r c
  rw [emitAll_pixel?, Nat.sub_sub, List.getElem?_take]
  generalize (s.boundAt s.row).left.toNat = left
  by_cases hin : r = s.row ∧ left + s.emitted ≤ c
  case neg => rw [if_neg hin, if_neg (fun ⟨hr, hfirst, _⟩ => hin ⟨hr, hfirst⟩)]
  case pos =>
    rw [if_pos hin]
    obtain ⟨hr, hfirst⟩ := hin
    by_cases hc : ((c - left : Nat) : Int) < s.expected
    · rw [if_pos ⟨hr, hfirst, hc⟩, if_pos (by omega)]
    · rw [if_neg (fun ⟨_, _, hlt⟩ => hc hlt), if_neg (by omega)]
      rfl

end

/-! ### How far the tables are written -/

section

variable {s t : State} {nb nc : Nat}

theorem tablesTo_of_nil (hbounds : s.boundsOut = []) (hoffsets : s.cmdoffOut = []) : s.TablesTo 0 0 := by
  refine ⟨fun r => ?_, fun r => ?_⟩
  · rw [hbounds]
    simp
  · rw [hoffsets]
    simp

theorem tablesTo_congr (hbounds : t.boundsOut = s.boundsOut) (hoffsets : t.cmdoffOut = s.cmdoffOut)
    (h : s.TablesTo nb nc) : t.TablesTo nb nc := by
  rw [State.TablesTo, hbounds, hoffsets]
  exact h

theorem isSome_get_put {α : Type} {l : List (Nat × α)} {n : Nat} (h : ∀ r, (Cells.get l r).isSome ↔ r < n) (v : α)
    (r : Nat) : (Cells.get (Cells.put n v l) r).isSome ↔ r < n + 1 := by
  rw [Cells.get_put]
  split
  case isTrue heq => simp [heq]
  case isFalse hne =>
    rw [h r]
    omega

theorem tablesTo_writeBound (b : RowBound) (h : s.TablesTo nb nc) : (writeBound nb b s).TablesTo (nb + 1) nc := by
  obtain ⟨hbounds, hoffsets⟩ := h
  exact ⟨isSome_get_put hbounds b, hoffsets⟩

theorem tablesTo_writeOffset (v : BitVec 32) (h : s.TablesTo nb nc) : (writeOffset nc v s).TablesTo nb (nc + 1) := by
  obtain ⟨hbounds, hoffsets⟩ := h
  exact ⟨hbounds, isSome_get_put hoffsets v⟩

end

/-! ### The invariant, status by status and phase by phase -/

section

variable {s : State}

theorem operationInv_running (hstatus : s.status = .running) : s.OperationInv ↔ s.Progress := by
  rw [State.OperationInv, hstatus]

theorem operationInv_done (hstatus : s.status = .done) :
    s.OperationInv ↔ 0 ≤ s.desc.widthInt ∧ 0 ≤ s.desc.heightInt ∧
      s.TablesTo s.desc.heightInt.toNat s.desc.heightInt.toNat ∧ s.GridTo s.desc.heightInt.toNat 0 := by
  rw [State.OperationInv, hstatus]

theorem operationInv_error (hstatus : s.status = .error) : s.OperationInv ↔ s.TablesTo 0 0 ∧ s.GridTo 0 0 := by
  rw [State.OperationInv, hstatus]

theorem operationInv_idle (hstatus : s.status = .idle) : s.OperationInv ↔ s.TablesTo 0 0 ∧ s.GridTo 0 0 := by
  rw [State.OperationInv, hstatus]

theorem progress_check (hphase : s.phase = .check) :
    s.Progress ↔ s.idx = 0 ∧ s.row = 0 ∧ s.TablesTo 0 0 ∧ s.GridTo 0 0 := by
  rw [State.Progress, hphase]

theorem progress_bounds (hphase : s.phase = .bounds) :
    s.Progress ↔ s.DimensionsChecked ∧ s.row = 0 ∧ s.idx < s.desc.heightInt.toNat ∧ s.TablesTo s.idx 0 ∧
      s.GridTo 0 0 := by
  rw [State.Progress, hphase]

theorem progress_cmdtab (hphase : s.phase = .cmdtab) :
    s.Progress ↔ s.DimensionsChecked ∧ s.row = 0 ∧ s.idx < s.desc.heightInt.toNat ∧
      s.TablesTo s.desc.heightInt.toNat s.idx ∧ s.GridTo 0 0 := by
  rw [State.Progress, hphase]

/-- What holds in every row phase: the tables are whole, the frame has this row. -/
def InRows (s : State) : Prop :=
  s.DimensionsChecked ∧ s.row < s.desc.heightInt.toNat ∧ s.TablesTo s.desc.heightInt.toNat s.desc.heightInt.toNat

theorem progress_rowStart (hphase : s.phase = .rowStart) : s.Progress ↔ InRows s ∧ s.GridTo s.row 0 := by
  rw [State.Progress, hphase, InRows, and_assoc, and_assoc]

theorem progress_cmds (hphase : s.phase = .cmds) :
    s.Progress ↔ InRows s ∧ s.RowOpen ∧
      s.GridTo s.row ((s.boundAt s.row).left.toNat + min s.emitted s.expected.toNat) := by
  rw [State.Progress, hphase, InRows, and_assoc, and_assoc]

theorem progress_rowEnd (hphase : s.phase = .rowEnd) :
    s.Progress ↔ InRows s ∧ s.RowOpen ∧ (s.emitted : Int) = s.expected ∧
      s.GridTo s.row ((s.boundAt s.row).left.toNat + s.emitted) := by
  rw [State.Progress, hphase, InRows, and_assoc, and_assoc]

end

/-! ### The ranges of the dimensions and of a row -/

section

variable {s t : State}

theorem dimensionsChecked_congr (hdesc : t.desc = s.desc) (hcap : t.gridCap = s.gridCap)
    (h : s.DimensionsChecked) : t.DimensionsChecked := by
  rw [State.DimensionsChecked, hdesc, hcap]
  exact h

theorem widthInt_nonneg (h : badDimensions s.desc s.gridCap = false) : 0 ≤ s.desc.widthInt := by
  by_contra hneg
  have hbad := (badDimensions_iff s.desc s.gridCap).mpr (.inl (not_le.mp hneg))
  rw [h] at hbad
  cases hbad

theorem widthInt_le (d : Descriptor) : d.widthInt ≤ 2 ^ 31 - 1 := by
  have hlt : d.widthInt < 2 ^ 31 := BitVec.toInt_lt (x := d.width)
  omega

/-- R36: EXPECTED of a row of a checked frame. -/
theorem rowExpected_range (h : s.DimensionsChecked) : -131070 ≤ rowExpected s ∧ rowExpected s ≤ 2 ^ 31 - 1 := by
  obtain ⟨hgood, -⟩ := h
  have hlow := widthInt_nonneg hgood
  have hhigh := widthInt_le s.desc
  have hleft := (s.boundAt s.row).left.isLt
  have hright := (s.boundAt s.row).right.isLt
  rw [rowExpected]
  omega

/-- R143: where the right padding of an open row ends. -/
theorem rowOpen_width (h : s.RowOpen) :
    (s.boundAt s.row).left.toNat + s.expected.toNat + (s.boundAt s.row).right.toNat = s.desc.widthInt.toNat := by
  obtain ⟨-, hexpected, hnonneg, -⟩ := h
  omega

theorem inRows_congr (hdesc : t.desc = s.desc) (hcap : t.gridCap = s.gridCap) (hrow : t.row = s.row)
    (hbounds : t.boundsOut = s.boundsOut) (hoffsets : t.cmdoffOut = s.cmdoffOut) (h : InRows s) : InRows t := by
  obtain ⟨hdims, hlt, htables⟩ := h
  rw [InRows, hdesc, hrow]
  exact ⟨dimensionsChecked_congr hdesc hcap hdims, hlt, tablesTo_congr hbounds hoffsets htables⟩

end

/-! ### The invariant of the operation, kept by each phase's step -/

/-- The part of the invariant that is not about the listing of buffer and stores. -/
def OperationSound (s : State) : Prop := s.CountersInRange ∧ s.OperationInv

section

variable {s t : State}

theorem operationSound_of_progress (hcounters : s.CountersInRange) (hstatus : s.status = .running) (h : s.Progress) :
    OperationSound s := ⟨hcounters, (operationInv_running hstatus).mpr h⟩

/-- An error entry empties the stores and keeps the counters (R236, R237). -/
theorem operationSound_raise (h : s.CountersInRange) (e : ErrCode) (a : Nat) : OperationSound (raise e a s) :=
  ⟨h, (operationInv_error rfl).mpr ⟨tablesTo_of_nil rfl rfl, gridTo_of_grid_nil rfl⟩⟩

/-- R214: after a row whose columns are all written comes the next one, or the frame is complete. -/
theorem operationSound_nextRow (hcounters : s.CountersInRange) (hstatus : s.status = .running) (hrows : InRows s)
    (hgrid : s.GridTo s.row s.desc.widthInt.toNat) : OperationSound (nextRow s) := by
  obtain ⟨hemitted, hlow, hhigh, hidx, -⟩ := hcounters
  obtain ⟨hdims, hrow, htables⟩ := id hrows
  have hgrid' : (nextRow s).GridTo (s.row + 1) 0 := gridTo_congr (nextRow_grid s) (nextRow_desc s) (gridTo_succ hgrid)
  have htables' := tablesTo_congr (nextRow_boundsOut s) (nextRow_cmdoffOut s) htables
  refine ⟨by simp only [State.CountersInRange, nextRow_emitted, nextRow_expected, nextRow_idx, nextRow_row,
    nextRow_desc]; omega, ?_⟩
  by_cases hlast : ((s.row + 1 : Nat) : Int) = s.desc.heightInt
  · obtain ⟨hdone, -⟩ := nextRow_last hlast
    obtain ⟨hgood, hheight⟩ := hdims
    rw [operationInv_done hdone, nextRow_desc]
    have hall : s.desc.heightInt.toNat = s.row + 1 := by omega
    exact ⟨widthInt_nonneg hgood, hheight.le, htables', hall ▸ hgrid'⟩
  · obtain ⟨hrunning, hphase⟩ := nextRow_more hlast
    have hmore : s.row + 1 < s.desc.heightInt.toNat := by_contra fun h => hlast ((succ_eq_heightInt_iff hrow).mpr h)
    rw [operationInv_running (hrunning.trans hstatus), progress_rowStart hphase, InRows, nextRow_desc, nextRow_row]
    exact ⟨⟨dimensionsChecked_congr (nextRow_desc s) (nextRow_gridCap s) hdims, hmore, htables'⟩, hgrid'⟩

theorem stepCheck_sound (hstatus : s.status = .running) (hphase : s.phase = .check) (h : OperationSound s) :
    OperationSound (stepCheck s) := by
  obtain ⟨hcounters, hinv⟩ := h
  obtain ⟨-, hrow, htables, hgrid⟩ := (progress_check hphase).mp ((operationInv_running hstatus).mp hinv)
  obtain heq | ⟨hgood, ⟨hempty, heq⟩ | ⟨hrows, heq⟩⟩ := stepCheck_cases s
  · exact heq ▸ operationSound_raise hcounters _ _
  · rw [heq]
    refine ⟨hcounters, (operationInv_done rfl).mpr ⟨widthInt_nonneg hgood, heightInt_nonneg hgood, ?_⟩⟩
    dsimp only
    rw [hempty]
    exact ⟨htables, hgrid⟩
  · have hheight : 0 < s.desc.heightInt := lt_of_le_of_ne (heightInt_nonneg hgood) hrows.symm
    obtain ⟨hemitted, hlow, hhigh, -, hrowLe⟩ := hcounters
    rw [heq]
    exact operationSound_of_progress ⟨hemitted, hlow, hhigh, Nat.zero_le _, hrowLe⟩ hstatus
      ((progress_bounds rfl).mpr ⟨⟨hgood, hheight⟩, hrow, by dsimp only; omega, htables, hgrid⟩)

theorem stepBounds_sound (hstatus : s.status = .running) (hphase : s.phase = .bounds) (h : OperationSound s) :
    OperationSound (stepBounds s) := by
  obtain ⟨hcounters, hinv⟩ := h
  obtain ⟨hdims, hrow, hidx, htables, hgrid⟩ := (progress_bounds hphase).mp ((operationInv_running hstatus).mp hinv)
  obtain ⟨hemitted, hlow, hhigh, -, hrowLe⟩ := id hcounters
  obtain ⟨a, heq⟩ | ⟨w, ⟨hlast, heq⟩ | ⟨hmore, heq⟩⟩ := stepBounds_cases s
  · exact heq ▸ operationSound_raise hcounters _ _
  · have hall : s.desc.heightInt.toNat = s.idx + 1 := by omega
    have htables' := tablesTo_writeBound (boundOfWord w) htables
    rw [heq]
    exact operationSound_of_progress ⟨hemitted, hlow, hhigh, Nat.zero_le _, hrowLe⟩ hstatus
      ((progress_cmdtab rfl).mpr ⟨hdims, hrow, Nat.zero_lt_of_lt hidx, hall ▸ htables', hgrid⟩)
  · have hlt : s.idx + 1 < s.desc.heightInt.toNat := by_contra fun h => hmore ((succ_eq_heightInt_iff hidx).mpr h)
    rw [heq]
    exact operationSound_of_progress ⟨hemitted, hlow, hhigh, hlt.le, hrowLe⟩ hstatus
      ((progress_bounds (s := { writeBound s.idx (boundOfWord w) s with idx := s.idx + 1 }) hphase).mpr
        ⟨hdims, hrow, hlt, tablesTo_writeBound (boundOfWord w) htables, hgrid⟩)

theorem stepCmdtab_sound (hstatus : s.status = .running) (hphase : s.phase = .cmdtab) (h : OperationSound s) :
    OperationSound (stepCmdtab s) := by
  obtain ⟨hcounters, hinv⟩ := h
  obtain ⟨hdims, hrow, hidx, htables, hgrid⟩ := (progress_cmdtab hphase).mp ((operationInv_running hstatus).mp hinv)
  obtain ⟨hemitted, hlow, hhigh, -, hrowLe⟩ := id hcounters
  obtain ⟨a, heq⟩ | ⟨v, ⟨hlast, heq⟩ | ⟨hmore, heq⟩⟩ := stepCmdtab_cases s
  · exact heq ▸ operationSound_raise hcounters _ _
  · have hall : s.desc.heightInt.toNat = s.idx + 1 := by omega
    have htables' : (writeOffset s.idx v s).TablesTo s.desc.heightInt.toNat s.desc.heightInt.toNat := by
      have hwritten := tablesTo_writeOffset v htables
      rwa [← hall] at hwritten
    rw [heq]
    exact operationSound_of_progress ⟨hemitted, hlow, hhigh, hall.ge, Nat.zero_le _⟩ hstatus
      ((progress_rowStart rfl).mpr ⟨⟨hdims, Nat.zero_lt_of_lt hidx, htables'⟩, hgrid⟩)
  · have hlt : s.idx + 1 < s.desc.heightInt.toNat := by_contra fun h => hmore ((succ_eq_heightInt_iff hidx).mpr h)
    rw [heq]
    exact operationSound_of_progress ⟨hemitted, hlow, hhigh, hlt.le, hrowLe⟩ hstatus
      ((progress_cmdtab (s := { writeOffset s.idx v s with idx := s.idx + 1 }) hphase).mpr
        ⟨hdims, hrow, hlt, tablesTo_writeOffset v htables, hgrid⟩)

/-! #### The rows -/

theorem countersInRange_padFrom (c n : Nat) (h : s.CountersInRange) : (padFrom c n s).CountersInRange := by
  simpa [State.CountersInRange] using h

theorem inRows_padFrom (c n : Nat) (h : InRows s) : InRows (padFrom c n s) :=
  inRows_congr (padFrom_desc _ _ _) (padFrom_gridCap _ _ _) (padFrom_row _ _ _) (padFrom_boundsOut _ _ _)
    (padFrom_cmdoffOut _ _ _) h

theorem transparentRow_written (start : Nat) (s : State) :
    ColumnsWritten s.row 0 (List.replicate s.desc.widthInt.toNat .transparent) s (transparentRow start s) :=
  padFrom_written (s := atRowStart 0 start s) _

theorem transparentRow_row (start : Nat) (s : State) : (transparentRow start s).row = s.row := padFrom_row _ _ _

theorem transparentRow_desc (start : Nat) (s : State) : (transparentRow start s).desc = s.desc := padFrom_desc _ _ _

theorem rowOpened_written (expected : Int) (start : Nat) (s : State) :
    ColumnsWritten s.row 0 (List.replicate (s.boundAt s.row).left.toNat .transparent) s (rowOpened expected start s) :=
  padFrom_written (s := atRowStart expected start s) _

theorem rowOpened_desc (expected : Int) (start : Nat) (s : State) : (rowOpened expected start s).desc = s.desc :=
  padFrom_desc _ _ _

/-- R144: the row that the step opens. -/
theorem rowOpened_rowOpen (start : Nat) (hfull : (s.boundAt s.row).full = false) (hnonneg : 0 ≤ rowExpected s) :
    (rowOpened (rowExpected s) start s).RowOpen := by
  rw [State.RowOpen, rowOpened_row, rowOpened_boundAt, rowOpened_expected, rowOpened_emitted, rowOpened_desc]
  exact ⟨hfull, rfl, hnonneg, by omega⟩

theorem stepRowStart_sound (hstatus : s.status = .running) (hphase : s.phase = .rowStart) (h : OperationSound s) :
    OperationSound (stepRowStart s) := by
  obtain ⟨hcounters, hinv⟩ := h
  obtain ⟨hrows, hgrid⟩ := (progress_rowStart hphase).mp ((operationInv_running hstatus).mp hinv)
  obtain ⟨hdims, -, -⟩ := id hrows
  obtain ⟨-, -, -, hidx, hrowLe⟩ := hcounters
  obtain ⟨hlow, hhigh⟩ := rowExpected_range hdims
  -- the registers of the row, whatever it is found to expect
  have hstart {expected : Int} (start : Nat) (hlow : -131070 ≤ expected) (hhigh : expected ≤ 2 ^ 31 - 1) :
      (atRowStart expected start s).CountersInRange := ⟨Nat.zero_le _, hlow, hhigh, hidx, hrowLe⟩
  generalize hoffset : (s.offsetAt s.row).toNat = start
  obtain heq | ⟨hfull, ⟨-, heq⟩ | ⟨hnonneg, heq⟩⟩ := stepRowStart_cases s <;> rw [heq, hoffset]
  · have hcolumns := gridTo_of_columnsWritten hgrid (transparentRow_desc start s) (transparentRow_written start s)
    rw [List.length_replicate, Nat.zero_add] at hcolumns
    refine operationSound_nextRow (countersInRange_padFrom _ _ (hstart start (by decide) (by decide)))
      ((padFrom_status _ _ _).trans hstatus) (inRows_padFrom _ _ (s := atRowStart 0 start s) hrows) ?_
    rwa [transparentRow_row, transparentRow_desc]
  · exact operationSound_raise (hstart start hlow hhigh) _ _
  · have hcolumns := gridTo_of_columnsWritten hgrid (rowOpened_desc (rowExpected s) start s)
      (rowOpened_written (rowExpected s) start s)
    rw [List.length_replicate, Nat.zero_add] at hcolumns
    refine operationSound_of_progress (countersInRange_padFrom _ _ (hstart start hlow hhigh))
      ((padFrom_status _ _ _).trans hstatus) ((progress_cmds rfl).mpr
        ⟨inRows_padFrom _ _ (s := atRowStart (rowExpected s) start s) hrows, rowOpened_rowOpen start hfull hnonneg, ?_⟩)
    rwa [rowOpened_row, rowOpened_boundAt, rowOpened_emitted, Nat.zero_min, Nat.add_zero]

/-- R212: in an open row the grid is written up to the pixels emitted so far. -/
theorem emitted_le_of_rowOpen (hopen : s.RowOpen) (hcount : (s.emitted : Int) ≤ s.expected) :
    min s.emitted s.expected.toNat = s.emitted := by
  obtain ⟨-, -, hnonneg, -⟩ := hopen
  omega

theorem countersInRange_emitAll {ps : List Pixel} (hps : ps.length ≤ 4095) (c : Nat)
    (hcount : (s.emitted : Int) ≤ s.expected) (h : s.CountersInRange) :
    (moveCursor c (emitAll ps s)).CountersInRange := by
  obtain ⟨-, hlow, hhigh, hidx, hrow⟩ := h
  simp only [State.CountersInRange, moveCursor_emitted, moveCursor_expected, moveCursor_idx, moveCursor_row,
    moveCursor_desc, emitAll_emitted, emitAll_expected, emitAll_idx, emitAll_row, emitAll_desc]
  omega

/-- A command emits at most 4095 pixels from a count not above EXPECTED, and those short of EXPECTED are written. -/
theorem commandResult_sound (hstatus : s.status = .running) (hphase : s.phase = .cmds)
    (hcount : (s.emitted : Int) ≤ s.expected) (hresult : CommandResult s t) (h : OperationSound s) :
    OperationSound t := by
  obtain ⟨hcounters, hinv⟩ := h
  rcases hresult with ⟨ps, c, hps, -, -, rfl⟩ | ⟨ps, c, hps, -, -, -, rfl⟩ | rfl
  · obtain ⟨hrows, hopen, hgrid⟩ := (progress_cmds hphase).mp ((operationInv_running hstatus).mp hinv)
    rw [emitted_le_of_rowOpen hopen hcount] at hgrid
    have hcolumns := gridTo_of_columnsWritten hgrid (emitAll_desc ps s) (emitAll_written_take ps hcount)
    have hend : (s.boundAt s.row).left.toNat + s.emitted + (ps.take (s.expected.toNat - s.emitted)).length =
        (s.boundAt s.row).left.toNat + min (s.emitted + ps.length) s.expected.toNat := by
      rw [List.length_take]
      omega
    rw [hend] at hcolumns
    refine operationSound_of_progress (countersInRange_emitAll hps c hcount hcounters) ?status
      ((progress_cmds ?phase).mpr ⟨?rows, ?opened, ?grid⟩)
    case status => rwa [moveCursor_status, emitAll_status]
    case phase => rwa [moveCursor_phase, emitAll_phase]
    case rows =>
      exact inRows_congr (emitAll_desc ps s) (emitAll_gridCap ps s) (emitAll_row ps s) (emitAll_boundsOut ps s)
        (emitAll_cmdoffOut ps s) hrows
    case opened =>
      obtain ⟨hfull, hexpected, hnonneg, -⟩ := hopen
      simp only [State.RowOpen, moveCursor_row, moveCursor_boundAt, moveCursor_expected, moveCursor_desc,
        moveCursor_emitted, emitAll_row, emitAll_boundAt, emitAll_expected, emitAll_desc, emitAll_emitted]
      exact ⟨hfull, hexpected, hnonneg, by omega⟩
    case grid =>
      rw [moveCursor_row, moveCursor_boundAt, moveCursor_emitted, moveCursor_expected, emitAll_row, emitAll_boundAt,
        emitAll_emitted, emitAll_expected]
      exact hcolumns
  · exact operationSound_raise (countersInRange_emitAll hps c hcount hcounters) _ _
  · exact operationSound_raise hcounters _ _

theorem eorResult_sound (hstatus : s.status = .running) (hphase : s.phase = .cmds) (hresult : EorResult s t)
    (h : OperationSound s) : OperationSound t := by
  obtain ⟨hcounters, hinv⟩ := h
  rcases hresult with ⟨hexact, rfl⟩ | ⟨-, rfl⟩
  · obtain ⟨hrows, hopen, hgrid⟩ := (progress_cmds hphase).mp ((operationInv_running hstatus).mp hinv)
    rw [emitted_le_of_rowOpen hopen hexact.le] at hgrid
    exact operationSound_of_progress hcounters hstatus ((progress_rowEnd rfl).mpr ⟨hrows, hopen, hexact, hgrid⟩)
  · exact operationSound_raise hcounters _ _

theorem stepRowEnd_sound (hstatus : s.status = .running) (hphase : s.phase = .rowEnd) (h : OperationSound s) :
    OperationSound (stepRowEnd s) := by
  obtain ⟨hcounters, hinv⟩ := h
  obtain ⟨hrows, hopen, hexact, hgrid⟩ := (progress_rowEnd hphase).mp ((operationInv_running hstatus).mp hinv)
  have hemitted : s.expected.toNat = s.emitted := by omega
  have hwidth := rowOpen_width hopen
  rw [stepRowEnd]
  refine operationSound_nextRow (countersInRange_padFrom _ _ hcounters) ((padFrom_status _ _ _).trans hstatus)
    (inRows_padFrom _ _ hrows) ?_
  rw [hemitted] at hwidth
  have hcolumns := gridTo_of_columnsWritten hgrid (padFrom_desc _ _ _) (padFrom_written (s.boundAt s.row).right.toNat)
  rw [padFrom_row, padFrom_desc, hemitted]
  rwa [List.length_replicate, hwidth] at hcolumns

end

/-! ### The invariant of the block -/

section

variable {s t : State}

theorem blockResult_sound (hresult : BlockResult s t) (h : OperationSound s) : OperationSound t := by
  cases hresult with
  | stopped => exact h
  | check hstatus hphase => exact stepCheck_sound hstatus hphase h
  | bounds hstatus hphase => exact stepBounds_sound hstatus hphase h
  | cmdtab hstatus hphase => exact stepCmdtab_sound hstatus hphase h
  | rowStart hstatus hphase => exact stepRowStart_sound hstatus hphase h
  | cmdsError hstatus hphase e =>
    obtain ⟨hcounters, -⟩ := h
    exact operationSound_raise hcounters _ _
  | eor hstatus hphase heor => exact eorResult_sound hstatus hphase heor h
  | command hstatus hphase hcount hcommand => exact commandResult_sound hstatus hphase hcount hcommand h
  | rowEnd hstatus hphase => exact stepRowEnd_sound hstatus hphase h

/-- The state that a START leaves, and that a reset leaves: all counters 0, nothing written. -/
theorem countersInRange_of_zero (hemitted : s.emitted = 0) (hexpected : s.expected = 0) (hidx : s.idx = 0)
    (hrow : s.row = 0) : s.CountersInRange := by
  rw [State.CountersInRange, hemitted, hexpected, hidx, hrow]
  exact ⟨Nat.zero_le _, by decide, by decide, Nat.zero_le _, Nat.zero_le _⟩

theorem acceptStart_sound (s : State) : OperationSound (acceptStart s) :=
  operationSound_of_progress (countersInRange_of_zero rfl rfl rfl rfl) rfl
    ((progress_check rfl).mpr ⟨rfl, rfl, tablesTo_of_nil rfl rfl, gridTo_of_grid_nil rfl⟩)

theorem hostReset_sound (s : State) : OperationSound (hostReset s) :=
  ⟨countersInRange_of_zero rfl rfl rfl rfl,
    (operationInv_idle rfl).mpr ⟨tablesTo_of_nil rfl rfl, gridTo_of_grid_nil rfl⟩⟩

theorem hostAct_sound {a : HostAction} (hact : hostAct a s = .next t) (h : OperationSound s) : OperationSound t := by
  cases hostAct_cases hact with
  | accepted => exact acceptStart_sound s
  | reset => exact hostReset_sound s
  | pending d => exact h
  | bound bytes => exact h
  | unchanged => exact h

theorem step_keeps_operationSound (h : OperationSound s) (hstep : step s = .next t) : OperationSound t := by
  rcases step_cases hstep with ⟨-, hblock⟩ | ⟨a, rest, -, hact⟩
  · exact blockResult_sound hblock h
  · exact hostAct_sound hact h

end

/-- Settles O50: the listing of buffer and stores by the store invariants, the rest phase by phase. -/
theorem stepKeepsTheInvariant : Obligations.StepKeepsTheInvariant := by
  rintro s t ⟨hcanonical, hnormal, hsound⟩ hstep
  exact ⟨canonical_storeInvariant.step hcanonical hstep, boundsNormal_storeInvariant.step hnormal hstep,
    step_keeps_operationSound hsound hstep⟩

/-- Settles O49: nothing is listed at reset and every counter is 0. -/
theorem resetMeetsTheInvariant : Obligations.ResetMeetsTheInvariant :=
  ⟨⟨⟨.nil, fun _ h => (nomatch h)⟩, .nil, .nil, .nil, fun _ h => (nomatch h)⟩, fun _ h => (nomatch h),
    countersInRange_of_zero rfl rfl rfl rfl,
    (operationInv_idle rfl).mpr ⟨tablesTo_of_nil rfl rfl, gridTo_of_grid_nil rfl⟩⟩

/-! ### A pixel is written once -/

section

variable {s t : State}

/-- From `s` to `t` every written element of the grid keeps its word. -/
def KeepsWritten (s t : State) : Prop := ∀ r c w, s.pixel? r c = some w → t.pixel? r c = some w

theorem keepsWritten_of_grid_eq (h : t.grid = s.grid) : KeepsWritten s t := fun r c _ hw =>
  (pixel?_congr h r c).trans hw

theorem keepsWritten_of_columnsWritten {row first : Nat} {ps : List Pixel} (h : s.GridTo row first)
    (hwritten : ColumnsWritten row first ps s t) : KeepsWritten s t := fun _ _ _ =>
  pixel?_kept_of_columnsWritten h hwritten

theorem commandResult_keepsWritten (hstatus : s.status = .running) (hphase : s.phase = .cmds)
    (hcount : (s.emitted : Int) ≤ s.expected) (hresult : CommandResult s t) (hinv : s.OperationInv)
    (hnoError : t.status ≠ .error) : KeepsWritten s t := by
  rcases hresult with ⟨ps, c, -, -, -, rfl⟩ | ⟨ps, c, -, -, -, -, rfl⟩ | rfl
  · obtain ⟨-, hopen, hgrid⟩ := (progress_cmds hphase).mp ((operationInv_running hstatus).mp hinv)
    rw [emitted_le_of_rowOpen hopen hcount] at hgrid
    exact keepsWritten_of_columnsWritten hgrid (emitAll_written_take ps hcount)
  · exact absurd rfl hnoError
  · exact absurd rfl hnoError

/-- Every run of pixels that a step writes begins where the invariant says that the written columns end. -/
theorem blockResult_keepsWritten (hresult : BlockResult s t) (hinv : s.OperationInv) (hnoError : t.status ≠ .error) :
    KeepsWritten s t := by
  cases hresult with
  | stopped => exact keepsWritten_of_grid_eq rfl
  | check =>
    obtain heq | ⟨-, ⟨-, heq⟩ | ⟨-, heq⟩⟩ := stepCheck_cases s <;> rw [heq] at hnoError ⊢
    · exact absurd rfl hnoError
    · exact keepsWritten_of_grid_eq rfl
    · exact keepsWritten_of_grid_eq rfl
  | bounds =>
    obtain ⟨a, heq⟩ | ⟨w, ⟨-, heq⟩ | ⟨-, heq⟩⟩ := stepBounds_cases s <;> rw [heq] at hnoError ⊢
    · exact absurd rfl hnoError
    · exact keepsWritten_of_grid_eq rfl
    · exact keepsWritten_of_grid_eq rfl
  | cmdtab =>
    obtain ⟨a, heq⟩ | ⟨v, ⟨-, heq⟩ | ⟨-, heq⟩⟩ := stepCmdtab_cases s <;> rw [heq] at hnoError ⊢
    · exact absurd rfl hnoError
    · exact keepsWritten_of_grid_eq rfl
    · exact keepsWritten_of_grid_eq rfl
  | rowStart hstatus hphase =>
    obtain ⟨-, hgrid⟩ := (progress_rowStart hphase).mp ((operationInv_running hstatus).mp hinv)
    obtain heq | ⟨-, ⟨-, heq⟩ | ⟨-, heq⟩⟩ := stepRowStart_cases s <;> rw [heq] at hnoError ⊢
    · intro r c w hw
      rw [nextRow_pixel?]
      exact pixel?_kept_of_columnsWritten hgrid (transparentRow_written _ s) hw
    · exact absurd rfl hnoError
    · exact keepsWritten_of_columnsWritten hgrid (rowOpened_written _ _ s)
  | cmdsError => exact absurd rfl hnoError
  | eor _ _ heor =>
    rcases heor with ⟨-, rfl⟩ | ⟨-, rfl⟩
    · exact keepsWritten_of_grid_eq rfl
    · exact absurd rfl hnoError
  | command hstatus hphase hcount hcommand =>
    exact commandResult_keepsWritten hstatus hphase hcount hcommand hinv hnoError
  | rowEnd hstatus hphase =>
    obtain ⟨-, hopen, hexact, hgrid⟩ := (progress_rowEnd hphase).mp ((operationInv_running hstatus).mp hinv)
    have hemitted : s.expected.toNat = s.emitted := by omega
    intro r c w hw
    rw [stepRowEnd, nextRow_pixel?, hemitted]
    exact pixel?_kept_of_columnsWritten hgrid (padFrom_written _) hw

end

/-- Settles O52: a step writes behind what is written, and the invariant of the next state tells what DONE holds. -/
theorem pixelsAreWrittenOnce : Obligations.PixelsAreWrittenOnce := by
  refine ⟨fun s t hinv _ hturn hstep hnoError => ?kept, fun s t hinv _ _ hstep hdone r c => ?whole⟩
  case kept =>
    obtain ⟨-, -, -, hoperation⟩ := hinv
    rw [step_of_blockTurn hturn] at hstep
    exact blockResult_keepsWritten (s := { s with hostMoves := s.hostMoves.tail }) (blockStep_cases hstep) hoperation
      hnoError
  case whole =>
    obtain ⟨-, -, -, hoperation⟩ := stepKeepsTheInvariant s t hinv hstep
    obtain ⟨-, -, -, hgrid⟩ := (operationInv_done hdone).mp hoperation
    rw [hgrid r c]
    omega

end Sys2Proof.Proofs
end
